-- ==== Sys2Proof/Word.lean ====
section
/-! DEFINITION. The data types of the engine's ports: bytes, the 32-bit address operand, the chip-select
line identifier. Spec: 00_scope.md R7 (BYTE_BITS, ADDR_PARAM_BITS), R8 (CS_ID), R11. -/

namespace Sys2Proof

/-- A byte: an unsigned 8-bit value (R7, R11). -/
abbrev Byte := BitVec 8

/-- The address operand of a request: 32 bits, of which the low 24 are ever transmitted (R7, R31, R131). -/
abbrev Address := BitVec 32

/-- A chip-select line identifier: an opaque name, compared and stored, never computed with (R8, R35). -/
abbrev CsId := Nat

end Sys2Proof
end

