-- ==== Sys2Proof/Config.lean ====
section
/-! DEFINITION. What one instance of the hardware fixes: the constants the spec states (00_scope.md R7), the
record of the parameters it leaves open (R8), and the free values. A value marked OPEN in R8 with no default is
an opaque constant here: nothing can prove what it is. -/

namespace Sys2Proof

/-! ## Constants the spec fixes (R7) -/

/-- `MAX_ADDRESS`: the last byte address of the main array (R7, R69). The engine never checks it (R65). -/
def maxAddress : Nat := 0x7FFFFF

/-- `SECTOR_SIZE` (R7): sector-erase granularity, a host contract (R64). -/
def sectorSize : Nat := 4096

/-- `BLOCK32_SIZE` (R7): 32K-block erase granularity, a host contract (R64). -/
def block32Size : Nat := 32768

/-- `BLOCK64_SIZE` (R7): 64K-block erase granularity, a host contract (R64). -/
def block64Size : Nat := 65536

/-- `PAGE_SIZE` (R7): the device's page, a device limit the engine does not check (R65). -/
def pageSize : Nat := 256

/-- `EXPECTED_MFR` (R7): the manufacturer identity byte `INIT` accepts. -/
def expectedMfr : Byte := 0xEF

/-- `EXPECTED_DEV` (R7): the device identity byte `INIT` accepts. -/
def expectedDev : Byte := 0x16

/-- `DUMMY_VALUE` (R7): the transmitted value of every dummy byte. -/
def dummyValue : Byte := 0x00

/-- `READ_FILL` (R7): the byte transmitted while a read payload byte is captured. -/
def readFill : Byte := 0x00

/-! ## The bus configuration (R34) -/

/-- The clock setting a transaction uses (R12): `DEFAULT` or `READ`. -/
inductive Clk where
  | default
  | read
deriving DecidableEq, Repr

/-- `SPI_MODE` (R8): clock polarity and clock phase, each 0 or 1. -/
structure SpiMode where
  polarity : Bool
  phase : Bool
deriving DecidableEq, Repr

/-- `BIT_ORDER` (R7, R60): most-significant bit first is the only order there is. -/
inductive BitOrder where
  | msbFirst
deriving DecidableEq, Repr

/-- `bus_cfg` (R34): four constants, fixed for the life of the engine. -/
structure BusCfg where
  clkDefaultHz : Nat
  clkReadHz : Nat
  mode : SpiMode
  bitOrder : BitOrder
deriving DecidableEq, Repr

/-- What `BusBegin` hands the bus transport (R9, R34, R121): one clock rate, the mode and the bit order. -/
structure BusParams where
  rateHz : Nat
  mode : SpiMode
  bitOrder : BitOrder
deriving DecidableEq, Repr

/-- The constraint of R8 on the two clock rates: both positive, the read rate the lower. -/
abbrev BusCfg.Ok (b : BusCfg) : Prop := 0 < b.clkReadHz ∧ b.clkReadHz < b.clkDefaultHz

/-! ## The open parameters (R8) -/

/-- The opcode table `OPC` (R8, R93, R97): one byte per wire operation, in the row order of R96. -/
structure OpcodeTable where
  writeEnable : Byte
  volatileWriteEnable : Byte
  writeDisable : Byte
  releasePowerDown : Byte
  readManufacturerId : Byte
  readJedecId : Byte
  readUniqueId : Byte
  readData : Byte
  fastRead : Byte
  pageProgram : Byte
  sectorErase : Byte
  blockErase32K : Byte
  blockErase64K : Byte
  chipErase : Byte
  readSr1 : Byte
  writeSr1 : Byte
  readSr2 : Byte
  writeSr2 : Byte
  readSr3 : Byte
  writeSr3 : Byte
  readSfdp : Byte
  eraseSecurityRegister : Byte
  programSecurityRegister : Byte
  readSecurityRegister : Byte
  suspend : Byte
  resume : Byte
  powerDown : Byte
  enableReset : Byte
  resetDevice : Byte
deriving DecidableEq, Repr

/-- The 29 opcode bytes in the row order of R96. -/
def OpcodeTable.toList (o : OpcodeTable) : List Byte :=
  [o.writeEnable, o.volatileWriteEnable, o.writeDisable, o.releasePowerDown, o.readManufacturerId, o.readJedecId,
   o.readUniqueId, o.readData, o.fastRead, o.pageProgram] ++
  [o.sectorErase, o.blockErase32K, o.blockErase64K, o.chipErase, o.readSr1, o.writeSr1, o.readSr2, o.writeSr2,
   o.readSr3, o.writeSr3] ++
  [o.readSfdp, o.eraseSecurityRegister, o.programSecurityRegister, o.readSecurityRegister, o.suspend, o.resume,
   o.powerDown, o.enableReset, o.resetDevice]

/-- The open parameters that decide a frame or its acceptance (R8). `lenMax = none` is "unbounded". -/
structure Config where
  opc : OpcodeTable
  dummyFastRead : Nat
  dummySfdp : Nat
  dummySecregRead : Nat
  lenMax : Option Nat
deriving DecidableEq, Repr

/-- R98: the 29 opcode bytes are pairwise distinct; "a model checks it of its configuration". -/
abbrev Config.Distinct (c : Config) : Prop := c.opc.toList.Nodup

/-! ## Free values -/

/-- OPEN (R8, `CLK_READ_HZ`): one less than the read clock rate, in hertz. -/
opaque Config.clkReadHzPred : Nat

/-- OPEN (R8, `CLK_DEFAULT_HZ`): one less than the default clock rate's excess over the read rate. -/
opaque Config.clkExcessPred : Nat

/-- OPEN (R8, `CS_ID`): an identifier a platform gives the chip-select line. -/
opaque Config.someCsId : CsId

/-- The oracle (R10, R79): byte number `k` of those the device answers with where no answer was scripted. -/
opaque Config.deviceByte : Nat → Byte

/-- OPEN (R8, `SECREG_BOUNDS`): the 24-bit addresses of the security registers. The engine never checks it. -/
opaque Config.inSecregBounds : BitVec 24 → Bool

/-- OPEN (R8, `SFDP_BOUNDS`): the 24-bit addresses of the SFDP metadata. The engine never checks it. -/
opaque Config.inSfdpBounds : BitVec 24 → Bool

/-- The bus configuration of the default instance (R8): the two rates OPEN but within their constraint, `SPI_MODE` at
R8's default (0, 0), the bit order fixed. PRESUMED (GK3) for the mode: notes/assumptions/2.md. -/
def standardBusCfg : BusCfg where
  clkDefaultHz := (Config.clkReadHzPred + 1) + (Config.clkExcessPred + 1)
  clkReadHz := Config.clkReadHzPred + 1
  mode := { polarity := false, phase := false }
  bitOrder := .msbFirst

end Sys2Proof
end

