-- ==== Sys2Proof/Syntax.lean ====
section
/-! DEFINITION. The engine's instruction set: its operations (00_scope.md R3; 30_encoding.md R96, R103). `Instr` has
one constructor per row of spec/opcode_table.json, the 29 wire operations; `Request` adds the three compound
operations, which have no opcode (R104). An operation with a host-chosen payload has the operands of
10_state.md R31 and R49: a length `n` and the transfer buffer `buf` it hands over. -/

namespace Sys2Proof

/-- The names of the 29 wire operations, in the row order of R96. -/
inductive WireOp where
  | writeEnable | volatileWriteEnable | writeDisable | releasePowerDown
  | readManufacturerId | readJedecId | readUniqueId
  | readData | fastRead
  | pageProgram | sectorErase | blockErase32K | blockErase64K | chipErase
  | readSr1 | writeSr1 | readSr2 | writeSr2 | readSr3 | writeSr3
  | readSfdp
  | eraseSecurityRegister | programSecurityRegister | readSecurityRegister
  | suspend | resume | powerDown | enableReset | resetDevice
deriving DecidableEq, Repr

/-- All 29, in the row order of R96. -/
def WireOp.all : List WireOp :=
  [.writeEnable, .volatileWriteEnable, .writeDisable, .releasePowerDown, .readManufacturerId, .readJedecId,
   .readUniqueId, .readData, .fastRead, .pageProgram] ++
  [.sectorErase, .blockErase32K, .blockErase64K, .chipErase, .readSr1, .writeSr1, .readSr2, .writeSr2,
   .readSr3, .writeSr3] ++
  [.readSfdp, .eraseSecurityRegister, .programSecurityRegister, .readSecurityRegister, .suspend, .resume,
   .powerDown, .enableReset, .resetDevice]

/-- A wire operation with its operands (R103). `addr` is the 32-bit address operand, `n` the payload length, `buf`
the contents of the transfer buffer handed over (for a read: what it holds before), `val` the byte to write. -/
inductive Instr where
  | writeEnable
  | volatileWriteEnable
  | writeDisable
  | releasePowerDown
  | readManufacturerId
  | readJedecId
  | readUniqueId
  | readData (addr : Address) (n : Nat) (buf : List Byte)
  | fastRead (addr : Address) (n : Nat) (buf : List Byte)
  | pageProgram (addr : Address) (n : Nat) (buf : List Byte)
  | sectorErase (addr : Address)
  | blockErase32K (addr : Address)
  | blockErase64K (addr : Address)
  | chipErase
  | readSr1
  | writeSr1 (val : Byte)
  | readSr2
  | writeSr2 (val : Byte)
  | readSr3
  | writeSr3 (val : Byte)
  | readSfdp (addr : Address) (n : Nat) (buf : List Byte)
  | eraseSecurityRegister (addr : Address)
  | programSecurityRegister (addr : Address) (n : Nat) (buf : List Byte)
  | readSecurityRegister (addr : Address) (n : Nat) (buf : List Byte)
  | suspend
  | resume
  | powerDown
  | enableReset
  | resetDevice
deriving DecidableEq, Repr

/-- A request the host can present (R3, R102, R103): a wire operation or one of the three compound operations. -/
inductive Request where
  | wire (i : Instr)
  | isBusy
  | reset
  | init (cs : CsId)
deriving DecidableEq, Repr

/-- The name of a wire operation. -/
def Instr.op : Instr → WireOp
  | .writeEnable => .writeEnable
  | .volatileWriteEnable => .volatileWriteEnable
  | .writeDisable => .writeDisable
  | .releasePowerDown => .releasePowerDown
  | .readManufacturerId => .readManufacturerId
  | .readJedecId => .readJedecId
  | .readUniqueId => .readUniqueId
  | .readData _ _ _ => .readData
  | .fastRead _ _ _ => .fastRead
  | .pageProgram _ _ _ => .pageProgram
  | .sectorErase _ => .sectorErase
  | .blockErase32K _ => .blockErase32K
  | .blockErase64K _ => .blockErase64K
  | .chipErase => .chipErase
  | .readSr1 => .readSr1
  | .writeSr1 _ => .writeSr1
  | .readSr2 => .readSr2
  | .writeSr2 _ => .writeSr2
  | .readSr3 => .readSr3
  | .writeSr3 _ => .writeSr3
  | .readSfdp _ _ _ => .readSfdp
  | .eraseSecurityRegister _ => .eraseSecurityRegister
  | .programSecurityRegister _ _ _ => .programSecurityRegister
  | .readSecurityRegister _ _ _ => .readSecurityRegister
  | .suspend => .suspend
  | .resume => .resume
  | .powerDown => .powerDown
  | .enableReset => .enableReset
  | .resetDevice => .resetDevice

/-- The address operand, for the addressed operations of R96. -/
def Instr.addr? : Instr → Option Address
  | .readData a _ _ | .fastRead a _ _ | .readSfdp a _ _ | .readSecurityRegister a _ _ => some a
  | .pageProgram a _ _ | .programSecurityRegister a _ _ => some a
  | .sectorErase a | .blockErase32K a | .blockErase64K a | .eraseSecurityRegister a => some a
  | .writeEnable | .volatileWriteEnable | .writeDisable | .releasePowerDown | .readManufacturerId | .readJedecId
  | .readUniqueId | .chipErase | .readSr1 | .writeSr1 _ | .readSr2 | .writeSr2 _ | .readSr3 | .writeSr3 _
  | .suspend | .resume | .powerDown | .enableReset | .resetDevice => none

/-- The host-chosen length and the transfer buffer, for the operations whose payload length the host chooses. -/
def Instr.span? : Instr → Option (Nat × List Byte)
  | .readData _ n b | .fastRead _ n b | .readSfdp _ n b | .readSecurityRegister _ n b => some (n, b)
  | .pageProgram _ n b | .programSecurityRegister _ n b => some (n, b)
  | .sectorErase _ | .blockErase32K _ | .blockErase64K _ | .eraseSecurityRegister _
  | .writeEnable | .volatileWriteEnable | .writeDisable | .releasePowerDown | .readManufacturerId | .readJedecId
  | .readUniqueId | .chipErase | .readSr1 | .writeSr1 _ | .readSr2 | .writeSr2 _ | .readSr3 | .writeSr3 _
  | .suspend | .resume | .powerDown | .enableReset | .resetDevice => none

/-- The byte operand of the status-register writes. -/
def Instr.val? : Instr → Option Byte
  | .writeSr1 v | .writeSr2 v | .writeSr3 v => some v
  | .readData _ _ _ | .fastRead _ _ _ | .readSfdp _ _ _ | .readSecurityRegister _ _ _
  | .pageProgram _ _ _ | .programSecurityRegister _ _ _
  | .sectorErase _ | .blockErase32K _ | .blockErase64K _ | .eraseSecurityRegister _
  | .writeEnable | .volatileWriteEnable | .writeDisable | .releasePowerDown | .readManufacturerId | .readJedecId
  | .readUniqueId | .chipErase | .readSr1 | .readSr2 | .readSr3
  | .suspend | .resume | .powerDown | .enableReset | .resetDevice => none

end Sys2Proof
end

