-- ==== Sys2Proof/WellFormed.lean ====
section
/-! DEFINITION. Well-formed requests: 60_exceptions.md R253 ("A request is well-formed when its operands fit rule R31"),
10_state.md R49. The widths (`val` a byte, `addr` 32 bits) are carried by the types; what is left to check is the
payload length, against the buffer and against `LEN_MAX`. -/

namespace Sys2Proof

/-- `n <= |buf|` (R49: "a request with `n > |buf|` is not a request"). -/
def fitsBuffer (n : Nat) (buf : List Byte) : Bool := decide (n ≤ buf.length)

/-- `n <= LEN_MAX` (R8, R31). -/
def fitsLenMax (c : Config) (n : Nat) : Bool :=
  match c.lenMax with
  | none => true
  | some m => decide (n ≤ m)

/-- R253 for a wire operation. -/
def Instr.wellFormed (c : Config) (i : Instr) : Bool :=
  match i.span? with
  | none => true
  | some (n, buf) => fitsBuffer n buf && fitsLenMax c n

/-- R253 for any request: the compound operations have no operand that could fail to fit. -/
def Request.wellFormed (c : Config) : Request → Bool
  | .wire i => i.wellFormed c
  | .isBusy => true
  | .reset => true
  | .init _ => true

end Sys2Proof
end

