-- ==== Sys2Proof/Decode.lean ====
section
/-! DEFINITION. Frames: the operation table of 30_encoding.md R96, the opcode bytes of R97, the decoder of R99 and the
encoder of R90 and R138. A frame is the transmit sequence of one transaction: opcode, address, dummies, payload. -/

namespace Sys2Proof

/-! ## The operation table -/

/-- Payload direction (R91). -/
inductive Dir where
  | none | read | write
deriving DecidableEq, Repr

/-- The frame descriptor `FD` of R91. -/
structure FrameDesc where
  opc : Byte
  addressed : Bool
  d : Nat
  dir : Dir
  n : Nat
  clk : Clk
  gated : Bool
deriving DecidableEq, Repr

/-- `OPC[op]` (R93). -/
def opcodeOf (c : Config) : WireOp → Byte
  | .writeEnable => c.opc.writeEnable
  | .volatileWriteEnable => c.opc.volatileWriteEnable
  | .writeDisable => c.opc.writeDisable
  | .releasePowerDown => c.opc.releasePowerDown
  | .readManufacturerId => c.opc.readManufacturerId
  | .readJedecId => c.opc.readJedecId
  | .readUniqueId => c.opc.readUniqueId
  | .readData => c.opc.readData
  | .fastRead => c.opc.fastRead
  | .pageProgram => c.opc.pageProgram
  | .sectorErase => c.opc.sectorErase
  | .blockErase32K => c.opc.blockErase32K
  | .blockErase64K => c.opc.blockErase64K
  | .chipErase => c.opc.chipErase
  | .readSr1 => c.opc.readSr1
  | .writeSr1 => c.opc.writeSr1
  | .readSr2 => c.opc.readSr2
  | .writeSr2 => c.opc.writeSr2
  | .readSr3 => c.opc.readSr3
  | .writeSr3 => c.opc.writeSr3
  | .readSfdp => c.opc.readSfdp
  | .eraseSecurityRegister => c.opc.eraseSecurityRegister
  | .programSecurityRegister => c.opc.programSecurityRegister
  | .readSecurityRegister => c.opc.readSecurityRegister
  | .suspend => c.opc.suspend
  | .resume => c.opc.resume
  | .powerDown => c.opc.powerDown
  | .enableReset => c.opc.enableReset
  | .resetDevice => c.opc.resetDevice

/-- Column "addressed" of R96. -/
def isAddressed : WireOp → Bool
  | .readData | .fastRead | .pageProgram | .sectorErase | .blockErase32K | .blockErase64K | .readSfdp
  | .eraseSecurityRegister | .programSecurityRegister | .readSecurityRegister => true
  | .writeEnable | .volatileWriteEnable | .writeDisable | .releasePowerDown | .readManufacturerId | .readJedecId
  | .readUniqueId | .chipErase | .readSr1 | .writeSr1 | .readSr2 | .writeSr2 | .readSr3 | .writeSr3
  | .suspend | .resume | .powerDown | .enableReset | .resetDevice => false

/-- Column "d" of R96: `MFRID_DUMMY`, `JEDEC_DUMMY`, `UID_DUMMY` of R7 and the three open counts of R8. -/
def dummyCount (c : Config) : WireOp → Nat
  | .readManufacturerId => 2
  | .readUniqueId => 4
  | .fastRead => c.dummyFastRead
  | .readSfdp => c.dummySfdp
  | .readSecurityRegister => c.dummySecregRead
  | .readJedecId | .readData
  | .writeEnable | .volatileWriteEnable | .writeDisable | .releasePowerDown
  | .pageProgram | .sectorErase | .blockErase32K | .blockErase64K | .chipErase
  | .readSr1 | .writeSr1 | .readSr2 | .writeSr2 | .readSr3 | .writeSr3
  | .eraseSecurityRegister | .programSecurityRegister
  | .suspend | .resume | .powerDown | .enableReset | .resetDevice => 0

/-- Column "dir" of R96. -/
def dirOf : WireOp → Dir
  | .readManufacturerId | .readJedecId | .readUniqueId | .readData | .fastRead | .readSr1 | .readSr2 | .readSr3
  | .readSfdp | .readSecurityRegister => .read
  | .pageProgram | .writeSr1 | .writeSr2 | .writeSr3 | .programSecurityRegister => .write
  | .writeEnable | .volatileWriteEnable | .writeDisable | .releasePowerDown | .sectorErase | .blockErase32K
  | .blockErase64K | .chipErase | .eraseSecurityRegister
  | .suspend | .resume | .powerDown | .enableReset | .resetDevice => .none

/-- Column "n" of R96: the payload length where it is fixed (`MFRID_READ`, `JEDEC_READ`, `UID_READ` of R7; 1 for a
status register), and nothing where the host chooses it. -/
def fixedLength : WireOp → Option Nat
  | .readManufacturerId => some 2
  | .readJedecId => some 3
  | .readUniqueId => some 8
  | .readSr1 | .writeSr1 | .readSr2 | .writeSr2 | .readSr3 | .writeSr3 => some 1
  | .readData | .fastRead | .pageProgram | .readSfdp | .programSecurityRegister | .readSecurityRegister => none
  | .writeEnable | .volatileWriteEnable | .writeDisable | .releasePowerDown | .sectorErase | .blockErase32K
  | .blockErase64K | .chipErase | .eraseSecurityRegister
  | .suspend | .resume | .powerDown | .enableReset | .resetDevice => some 0

/-- Column "clk" of R96: `READ` for `READ_DATA` only (R121). -/
def clkOf : WireOp → Clk
  | .readData => .read
  | .writeEnable | .volatileWriteEnable | .writeDisable | .releasePowerDown | .readManufacturerId | .readJedecId
  | .readUniqueId | .fastRead | .pageProgram | .sectorErase | .blockErase32K | .blockErase64K | .chipErase
  | .readSr1 | .writeSr1 | .readSr2 | .writeSr2 | .readSr3 | .writeSr3
  | .readSfdp | .eraseSecurityRegister | .programSecurityRegister | .readSecurityRegister
  | .suspend | .resume | .powerDown | .enableReset | .resetDevice => .default

/-- Column "gated" of R96: the ten wire operations of R148. -/
def isGated : WireOp → Bool
  | .pageProgram | .sectorErase | .blockErase32K | .blockErase64K | .chipErase | .writeSr1 | .writeSr2 | .writeSr3
  | .eraseSecurityRegister | .programSecurityRegister => true
  | .writeEnable | .volatileWriteEnable | .writeDisable | .releasePowerDown | .readManufacturerId | .readJedecId
  | .readUniqueId | .readData | .fastRead | .readSr1 | .readSr2 | .readSr3 | .readSfdp | .readSecurityRegister
  | .suspend | .resume | .powerDown | .enableReset | .resetDevice => false

/-- The frame descriptor of an operation whose payload has `n` bytes (R91, R96). -/
def descriptor (c : Config) (op : WireOp) (n : Nat) : FrameDesc where
  opc := opcodeOf c op
  addressed := isAddressed op
  d := dummyCount c op
  dir := dirOf op
  n := n
  clk := clkOf op
  gated := isGated op

/-- The payload length of an operation: the fixed one, else the host's (R91). -/
def payloadLength (op : WireOp) (hostN : Option Nat) : Option Nat :=
  match fixedLength op with
  | some k => some k
  | none => hostN

/-! ## The default instance -/

/-- R97's default table. PRESUMED: every byte is GK1, general knowledge (notes/assumptions/1.md). -/
def standardOpcodes : OpcodeTable where
  writeEnable := 0x06
  volatileWriteEnable := 0x50
  writeDisable := 0x04
  releasePowerDown := 0xAB
  readManufacturerId := 0x90
  readJedecId := 0x9F
  readUniqueId := 0x4B
  readData := 0x03
  fastRead := 0x0B
  pageProgram := 0x02
  sectorErase := 0x20
  blockErase32K := 0x52
  blockErase64K := 0xD8
  chipErase := 0xC7
  readSr1 := 0x05
  writeSr1 := 0x01
  readSr2 := 0x35
  writeSr2 := 0x31
  readSr3 := 0x15
  writeSr3 := 0x11
  readSfdp := 0x5A
  eraseSecurityRegister := 0x44
  programSecurityRegister := 0x42
  readSecurityRegister := 0x48
  suspend := 0x75
  resume := 0x7A
  powerDown := 0xB9
  enableReset := 0x66
  resetDevice := 0x99

/-- Configuration `C0` of 95_test_vectors.md: R8's defaults. PRESUMED (GK1, GK2): notes/assumptions/1.md and 2.md. -/
def standardConfig : Config where
  opc := standardOpcodes
  dummyFastRead := 1
  dummySfdp := 1
  dummySecregRead := 1
  lenMax := none

/-! ## The decoder (R99, R100) -/

/-- Why a transmit sequence is not a frame of this engine (R99 (1), (3), (6); R100). -/
inductive DecodeRefusal where
  /-- No byte at all: R99 asks for `|t| >= 1`. -/
  | empty
  /-- Byte 0 is none of the 29 values of `OPC` (R100). -/
  | unknownOpcode
  /-- Shorter than opcode, address and dummies: `|t| < 1 + a + d` (R99 (3)). -/
  | tooShort
  /-- A payload where there is none, or not of the fixed length (R99 (3)). -/
  | wrongLength
  /-- A dummy byte that is not `0x00` (R99 (6)). -/
  | nonzeroDummy
  /-- A read fill that is not `0x00` (R99 (6)). -/
  | nonzeroFill
deriving DecidableEq, Repr

/-- R99 (1): the operation whose opcode a byte is, by a match on the whole byte. -/
def opOfByte (c : Config) (b : Byte) : Option WireOp :=
  WireOp.all.find? (fun op => opcodeOf c op == b)

/-- R99 (4): the address `t[1]*65536 + t[2]*256 + t[3]`; the 8 bits above are not in the frame. -/
def addressOf (b2 b1 b0 : Byte) : Address := (0 : BitVec 8) ++ b2 ++ b1 ++ b0

/-- The address field and what follows it (R94). -/
def takeAddress (addressed : Bool) (t : List Byte) : Except DecodeRefusal (Address × List Byte) :=
  if addressed then
    match t with
    | b2 :: b1 :: b0 :: rest => .ok (addressOf b2 b1 b0, rest)
    | _ => .error .tooShort
  else .ok (0, t)

/-- What follows `d` dummy bytes (R95 (a), R99 (6)). -/
def dropDummies : Nat → List Byte → Except DecodeRefusal (List Byte)
  | 0, t => .ok t
  | _ + 1, [] => .error .tooShort
  | d + 1, b :: t => if b = dummyValue then dropDummies d t else .error .nonzeroDummy

/-- An operation with no payload. -/
def decodeBare (i : Instr) (p : List Byte) : Except DecodeRefusal Instr :=
  if p = [] then .ok i else .error .wrongLength

/-- A read payload of fixed length `k`: `k` fills. -/
def decodeFixedRead (i : Instr) (k : Nat) (p : List Byte) : Except DecodeRefusal Instr :=
  if p.length ≠ k then .error .wrongLength
  else if p = List.replicate k readFill then .ok i else .error .nonzeroFill

/-- A read payload of host-chosen length: its fills, which are also the buffer the decoded request hands over. -/
def decodeRead (f : Nat → List Byte → Instr) (p : List Byte) : Except DecodeRefusal Instr :=
  if p = List.replicate p.length readFill then .ok (f p.length p) else .error .nonzeroFill

/-- A status-register write: exactly one payload byte (R95 (c)). -/
def decodeByte (f : Byte → Instr) (p : List Byte) : Except DecodeRefusal Instr :=
  match p with
  | [v] => .ok (f v)
  | _ => .error .wrongLength

/-- R99 (3), (5): the instruction of an operation, its address and its payload. -/
def decodePayload (op : WireOp) (a : Address) (p : List Byte) : Except DecodeRefusal Instr :=
  match op with
  | .writeEnable => decodeBare .writeEnable p
  | .volatileWriteEnable => decodeBare .volatileWriteEnable p
  | .writeDisable => decodeBare .writeDisable p
  | .releasePowerDown => decodeBare .releasePowerDown p
  | .readManufacturerId => decodeFixedRead .readManufacturerId 2 p
  | .readJedecId => decodeFixedRead .readJedecId 3 p
  | .readUniqueId => decodeFixedRead .readUniqueId 8 p
  | .readData => decodeRead (.readData a) p
  | .fastRead => decodeRead (.fastRead a) p
  | .pageProgram => .ok (.pageProgram a p.length p)
  | .sectorErase => decodeBare (.sectorErase a) p
  | .blockErase32K => decodeBare (.blockErase32K a) p
  | .blockErase64K => decodeBare (.blockErase64K a) p
  | .chipErase => decodeBare .chipErase p
  | .readSr1 => decodeFixedRead .readSr1 1 p
  | .writeSr1 => decodeByte .writeSr1 p
  | .readSr2 => decodeFixedRead .readSr2 1 p
  | .writeSr2 => decodeByte .writeSr2 p
  | .readSr3 => decodeFixedRead .readSr3 1 p
  | .writeSr3 => decodeByte .writeSr3 p
  | .readSfdp => decodeRead (.readSfdp a) p
  | .eraseSecurityRegister => decodeBare (.eraseSecurityRegister a) p
  | .programSecurityRegister => .ok (.programSecurityRegister a p.length p)
  | .readSecurityRegister => decodeRead (.readSecurityRegister a) p
  | .suspend => decodeBare .suspend p
  | .resume => decodeBare .resume p
  | .powerDown => decodeBare .powerDown p
  | .enableReset => decodeBare .enableReset p
  | .resetDevice => decodeBare .resetDevice p

/-- What follows the opcode of `op`. -/
def decodeFields (c : Config) (op : WireOp) (t : List Byte) : Except DecodeRefusal Instr :=
  match takeAddress (isAddressed op) t with
  | .error e => .error e
  | .ok (a, rest) =>
    match dropDummies (dummyCount c op) rest with
    | .error e => .error e
    | .ok p => decodePayload op a p

/-- R99: the wire operation whose command transaction transmits exactly `t`. Total on any bytes; a sequence that is
"not a frame of this engine" is refused by name (R100). -/
def decode (c : Config) (t : List Byte) : Except DecodeRefusal Instr :=
  match t with
  | [] => .error .empty
  | b :: rest =>
    match opOfByte c b with
    | none => .error .unknownOpcode
    | some op => decodeFields c op rest

/-! ## The encoder (R90, R138) -/

/-- The 24-bit big-endian address field, most significant byte first (R61, R94). -/
def addressField (a : Address) : List Byte := [a.extractLsb' 16 8, a.extractLsb' 8 8, a.extractLsb' 0 8]

/-- The write payload of an instruction: `buf[0 .. n-1]`, or the byte `val` (R95). -/
def Instr.payload (i : Instr) : List Byte :=
  match i.val?, i.span? with
  | some v, _ => [v]
  | none, some (n, buf) => buf.take n
  | none, none => []

/-- The payload length of an instruction (R96). -/
def Instr.length (i : Instr) : Nat := (payloadLength i.op (i.span?.map Prod.fst)).getD 0

/-- `Frame(FD, addr, buf)` of R138. -/
def frame (fd : FrameDesc) (addr : Address) (payload : List Byte) : List Byte :=
  [fd.opc] ++ (if fd.addressed then addressField addr else []) ++ List.replicate fd.d dummyValue ++
    (match fd.dir with
     | .write => payload.take fd.n
     | .read => List.replicate fd.n readFill
     | .none => [])

/-- The bytes the engine transmits in the command transaction of `i` (R138). -/
def encode (c : Config) (i : Instr) : List Byte :=
  frame (descriptor c i.op i.length) (i.addr?.getD 0) i.payload

/-- `addr[23:0]`, the part of the address operand a frame carries (R131). -/
def low24 (a : Address) : Address := a &&& 0x00FFFFFF

/-- The request a frame stands for: what the frame does not carry (the top byte of the address operand, what a
buffer holds beyond what is sent, what a read buffer held before) is at a fixed value. -/
def Instr.canonical : Instr → Instr
  | .readData a n _ => .readData (low24 a) n (List.replicate n readFill)
  | .fastRead a n _ => .fastRead (low24 a) n (List.replicate n readFill)
  | .readSfdp a n _ => .readSfdp (low24 a) n (List.replicate n readFill)
  | .readSecurityRegister a n _ => .readSecurityRegister (low24 a) n (List.replicate n readFill)
  | .pageProgram a n b => .pageProgram (low24 a) n (b.take n)
  | .programSecurityRegister a n b => .programSecurityRegister (low24 a) n (b.take n)
  | .sectorErase a => .sectorErase (low24 a)
  | .blockErase32K a => .blockErase32K (low24 a)
  | .blockErase64K a => .blockErase64K (low24 a)
  | .eraseSecurityRegister a => .eraseSecurityRegister (low24 a)
  | .writeEnable => .writeEnable
  | .volatileWriteEnable => .volatileWriteEnable
  | .writeDisable => .writeDisable
  | .releasePowerDown => .releasePowerDown
  | .readManufacturerId => .readManufacturerId
  | .readJedecId => .readJedecId
  | .readUniqueId => .readUniqueId
  | .chipErase => .chipErase
  | .readSr1 => .readSr1
  | .writeSr1 v => .writeSr1 v
  | .readSr2 => .readSr2
  | .writeSr2 v => .writeSr2 v
  | .readSr3 => .readSr3
  | .writeSr3 v => .writeSr3 v
  | .suspend => .suspend
  | .resume => .resume
  | .powerDown => .powerDown
  | .enableReset => .enableReset
  | .resetDevice => .resetDevice

/-! ## Words of spec/opcode_table.json -/

/-- The first `nbits / 8` bytes of a word, byte 0 from its least significant bits. -/
def wordBytes (nbits w : Nat) : List Byte :=
  (List.range (nbits / 8)).map (fun k => BitVec.ofNat 8 (w >>> (8 * k)))

/-- The frame a word of the opcode table stands for: its bytes, and, up to the shortest frame its opcode admits
(`1 + a + d`, and the payload where its length is fixed), bytes of zeros. -/
def wordFrame (c : Config) (nbits w : Nat) : List Byte :=
  match wordBytes nbits w with
  | [] => []
  | b :: rest =>
    match opOfByte c b with
    | none => b :: rest
    | some op =>
      let shortest := 1 + (if isAddressed op then 3 else 0) + dummyCount c op + (fixedLength op).getD 0
      (b :: rest) ++ List.replicate (shortest - (rest.length + 1)) 0

/-- The instruction the decoder reads from a word of spec/opcode_table.json, under the default configuration. -/
def decodeTableWord (nbits w : Nat) : Option Instr :=
  match decode standardConfig (wordFrame standardConfig nbits w) with
  | .ok i => some i
  | .error _ => none

end Sys2Proof
end

