-- ==== Sys2Proof/Machine/State.lean ====
section
/-! DEFINITION. The state of the engine (10_state.md), its reset value (R53), and the reasons a step can stop.
The device is no part of it: it is the oracle that answers each byte exchange (00_scope.md R6, R10; decision D25). -/

namespace Sys2Proof.Machine

/-- The level last driven on the chip-select line (R44). Low is asserted. -/
inductive CsLevel where
  | high | low
deriving DecidableEq, Repr

/-- The closed set of status codes (60_exceptions.md R240). No code has a number (R241). -/
inductive StatusCode where
  | ok | busy | unknownManufacturerId | unknownDeviceId
deriving DecidableEq, Repr

/-- The five events of R12. `csLow` and `csHigh` name the pin they drive (R35, R41); `busBegin` holds the clock setting
and the parameters handed to the transport (R9, R34). In `xfer tx rx` the engine chooses `tx`, the oracle `rx`. -/
inductive Event where
  | csLow (pin : CsId)
  | busBegin (clk : Clk) (params : BusParams)
  | xfer (tx rx : Byte)
  | busEnd
  | csHigh (pin : CsId)
deriving DecidableEq, Repr

/-- The position inside a transaction (R36): each names the event about to be emitted. -/
inductive TxPos where
  | csLow
  | busBegin
  | opcode
  | addr (k : Nat)
  | dummy (k : Nat)
  | payload (k : Nat)
  | busEnd
  | csHigh
deriving DecidableEq, Repr

/-- The sequencer phase (R36): the stage, and inside a transaction the position. -/
inductive Phase where
  | idle
  | setup
  | gate (tp : TxPos)
  | cmd (j : Fin 2) (tp : TxPos)
deriving DecidableEq, Repr

/-- The `op` latch: one of the 32 operations of R96. -/
inductive OpName where
  | wire (o : WireOp)
  | isBusy
  | reset
  | init
deriving DecidableEq, Repr

/-- A reference to the host's transfer buffer, with its explicit length (R31, R49). -/
structure BufRef where
  len : Nat
deriving DecidableEq, Repr

/-- The operand latches (R31) and the operation's named outputs (R135: the bytes captured so far). A latch that holds
no value is `none`. `cs` is the operand of `INIT` (R161; notes/assumptions/10.md). -/
structure Latches where
  op : Option OpName
  addr : Option Address
  n : Option Nat
  buf : Option BufRef
  val : Option Byte
  cs : Option CsId
  outputs : List Byte
deriving DecidableEq, Repr

/-- "After `return` every latch holds no value" (R31). -/
def Latches.empty : Latches where
  op := none
  addr := none
  n := none
  buf := none
  val := none
  cs := none
  outputs := []

/-- Byte memory in one canonical form: see `Memory.wf` in Machine/Ops.lean. -/
abbrev Memory := List Host.Cell

/-- The host's transfer buffer (R48, R49): the one memory the engine touches, addressed by index `0 .. len-1`. -/
structure TransferBuffer where
  len : Nat
  cells : Memory
deriving DecidableEq, Repr

/-- What the bus transport does with the next byte exchange (R14, R79): completes it with a byte the device chose, or
never completes it. -/
inductive BusAnswer where
  | byte (b : Byte)
  | never
deriving DecidableEq, Repr

/-- The engine's answer on the host port (R103): a status code with the bytes read, or the Boolean of `IS_BUSY`. -/
inductive Response where
  | status (code : StatusCode) (data : List Byte)
  | boolean (b : Bool)
deriving DecidableEq, Repr

/-- A request on the host port (R253): as the record of R102, or as the frame it is to send, which the decoder of R99
reads (the model's `REQ_ENCODING`: notes/assumptions/6.md). -/
inductive PortItem where
  | request (r : Request)
  | frame (t : List Byte)
deriving DecidableEq, Repr

/-- A request as the engine accepts it (R31, R102): the operation and the operands it has. -/
structure Call where
  op : OpName
  addr : Option Address := none
  n : Option Nat := none
  buf : Option (List Byte) := none
  val : Option Byte := none
  cs : Option CsId := none
deriving DecidableEq, Repr

/-- The whole state. -/
@[ext]
structure State where
  /-- The configuration of this instance (R8, R51): no step changes it. -/
  cfg : Config
  /-- `cs_id` (R35): no value until the first `INIT`. -/
  csId : Option CsId
  /-- `bus_cfg` (R34): no step changes it. -/
  busCfg : BusCfg
  /-- `last_status` (R33): no value until the first status-returning operation returns. -/
  lastStatus : Option StatusCode
  /-- The sequencer phase (R36). -/
  phase : Phase
  /-- The operand latches (R31). -/
  latch : Latches
  /-- `cs_level` (R44). -/
  csLevel : CsLevel
  /-- `bus_open` (R45). -/
  busOpen : Bool
  /-- `bus_clk` (R46): meaningful only while a transaction is open. -/
  busClk : Option Clk
  /-- The host's transfer buffer, as last handed over with a request (R49). -/
  buf : TransferBuffer
  /-- The oracle's scripted answers, the next one first (R10, R79); after them the free values of `Config.deviceByte`. -/
  answers : List BusAnswer
  /-- How many free values the oracle has given. -/
  drawn : Nat
  /-- The requests the host will present, the next one first (R253, R289). -/
  port : List PortItem
  /-- The trace since construction, oldest first (R12, R289). -/
  trace : List Event
  /-- The responses given since construction, oldest first (R253, R289). -/
  responses : List Response
deriving DecidableEq, Repr

/-- What an engine with no step to make is short of. The hardware has no faulting condition (R261): no meaning answers a
fault (`Obligations.NoRequestFaults`), and no step does from a state with the invariant of R54
(`Obligations.OnlyStalledBusStops`), so none of these is met in a state that a run reaches. -/
inductive Fault where
  /-- Raised by a step in a state no run reaches, where a transaction runs and `cs_id` holds no value (R268). Safe. -/
  | noPin
  /-- Raised by a step in a state no run reaches, where the running operation lacks an operand latch (R31). Safe. -/
  | latchEmpty
  /-- Raised by a step in a state no run reaches, where a payload index is outside the buffer (R49). Safe. -/
  | bufferOverrun
deriving DecidableEq, Repr

/-- Why there is no step, and no fault: a request that is not accepted (R253, R261), or the stuck engine of R14 and R258.
No event, no response, no state change. -/
inductive Refusal where
  /-- Raised by `exec` for an instruction that has no meaning. None is left. Safe. -/
  | notModelled (mnemonic : String)
  /-- Raised by every meaning when the engine is mid-operation (R255; U9, "the model refuses"). Safe. -/
  | notQuiescent
  /-- Raised by every meaning when the payload length exceeds the buffer or `LEN_MAX` (R253, R282; U13). Safe. -/
  | illFormed
  /-- Raised by every meaning but `INIT`'s before the first `INIT` (R268; U12, decision D23). Safe. -/
  | noChipSelect
  /-- Raised by `step` when the host presents nothing: the engine originates nothing (R253). Safe. -/
  | noRequest
  /-- Raised by `step` for a frame that is none of this engine's (R99, R100). Safe. -/
  | notAFrame (why : DecodeRefusal)
  /-- Raised by `step` in the middle of an operation whose next byte exchange the transport never completes: no step is
  enabled (R14), the state is stuck, not final and not a fault (R258, R261). Safe: the hardware waits there for ever. -/
  | busStalled
deriving DecidableEq, Repr

/-- Why the sequencer makes no event: no operation is in progress, the transport never completes the exchange (R14), or
the state is one no run reaches. -/
inductive Halt where
  | quiescent
  | stalled
  | broken (f : Fault)
deriving DecidableEq, Repr

/-- The state after construction and before `INIT` (R53, R265), for one configuration. -/
def State.constructed (c : Config) (b : BusCfg) : State where
  cfg := c
  csId := none
  busCfg := b
  lastStatus := none
  phase := .idle
  latch := Latches.empty
  csLevel := .high
  busOpen := false
  busClk := none
  buf := { len := 0, cells := [] }
  answers := []
  drawn := 0
  port := []
  trace := []
  responses := []

/-- Reset is construction (R265), here of the default instance (R8). -/
def State.reset : State := State.constructed standardConfig standardBusCfg

end Sys2Proof.Machine
end

