-- ==== Sys2Proof/Machine/Flags.lean ====
section
/-! DEFINITION. The two tests the engine makes of received bytes (41_command_dispatcher.md R139, R140). It has no
condition flags of its own (10_state.md R39). -/

namespace Sys2Proof.Machine

/-- The busy flag: bit 0 of status register 1 (R38, R146). Bits 7:1 have no effect. -/
def busyFlag (s : Byte) : Bool := s.getLsbD 0

/-- `IdentityStatus(mfr, dev)` (R160): the manufacturer is tested first. -/
def identityStatus (mfr dev : Byte) : StatusCode :=
  if mfr ≠ expectedMfr then .unknownManufacturerId
  else if dev ≠ expectedDev then .unknownDeviceId
  else .ok

end Sys2Proof.Machine
end

