-- ==== Sys2Proof/Machine/Operands.lean ====
section
/-! DEFINITION. Operand forms: the 24-bit address encoder (41_command_dispatcher.md R131, R141), the transfer buffer
read and written by index (R49, R135, R136), and the frame descriptor of the transaction that is running. -/

namespace Sys2Proof.Machine

/-! ## The address encoder (R131) -/

/-- Address byte `k` of a frame: `addr[23:16]`, `addr[15:8]`, `addr[7:0]` for `k = 0, 1, 2`. -/
def addrByte (a : Address) (k : Nat) : Byte := (a >>> (8 * (2 - k))).setWidth 8

/-- `AddrBytes(addr)` (R131). -/
def addrBytes (a : Address) : List Byte := [addrByte a 0, addrByte a 1, addrByte a 2]

/-! ## Memory in canonical form -/

/-- What an index that is not listed reads as. DESIGN CHOICE: notes/assumptions/5.md. -/
def unwrittenByte : Byte := 0x00

/-- The canonical form: addresses strictly rising, no entry equal to what an unlisted address reads as. -/
abbrev Memory.wf (m : Memory) : Prop :=
  m.Pairwise (fun p q => p.1 < q.1) ∧ ∀ p ∈ m, p.2 ≠ unwrittenByte

/-- One byte of memory. -/
def Memory.read : Memory → Nat → Byte
  | [], _ => unwrittenByte
  | (a, x) :: m, i => if i = a then x else Memory.read m i

/-- Writes one byte; writing what an unlisted address reads as removes the entry. -/
def Memory.write : Memory → Nat → Byte → Memory
  | [], i, b => if b = unwrittenByte then [] else [(i, b)]
  | (a, x) :: m, i, b =>
    if i < a then (if b = unwrittenByte then (a, x) :: m else (i, b) :: (a, x) :: m)
    else if i = a then (if b = unwrittenByte then m else (i, b) :: m)
    else (a, x) :: Memory.write m i b

/-- The memory that holds a list of bytes from address `k` on. -/
def Memory.ofBytes : Nat → List Byte → Memory
  | _, [] => []
  | k, b :: bs => if b = unwrittenByte then Memory.ofBytes (k + 1) bs else (k, b) :: Memory.ofBytes (k + 1) bs

/-! ## The transfer buffer (R49) -/

/-- The buffer the host hands over. -/
def TransferBuffer.ofBytes (bs : List Byte) : TransferBuffer where
  len := bs.length
  cells := Memory.ofBytes 0 bs

/-- `buf[i]`; no byte outside the buffer. -/
def TransferBuffer.read (t : TransferBuffer) (i : Nat) : Option Byte :=
  if i < t.len then some (Memory.read t.cells i) else none

/-- `buf[i] <- b`; nothing outside the buffer. -/
def TransferBuffer.write (t : TransferBuffer) (i : Nat) (b : Byte) : Option TransferBuffer :=
  if i < t.len then some { t with cells := Memory.write t.cells i b } else none

/-- The buffer's bytes, index 0 first. -/
def TransferBuffer.bytes (t : TransferBuffer) : List Byte :=
  (List.range t.len).map (Memory.read t.cells)

/-! ## The operation and its frames (R96, R104) -/

/-- R148: the ten gated wire operations and `RESET`. -/
def OpName.gated : OpName → Bool
  | .wire o => isGated o
  | .isBusy => false
  | .reset => true
  | .init => false

/-- The wire operation whose frame command transaction `j` of an operation sends (R104; `RESET` has two, R214). -/
def OpName.frameOf (o : OpName) (j : Fin 2) : WireOp :=
  match o with
  | .wire w => w
  | .isBusy => .readSr1
  | .reset => if j = 0 then .enableReset else .resetDevice
  | .init => .readManufacturerId

/-- The gate's descriptor: byte for byte the frame of `READ_SR1` (R147, decision D38). -/
def gateDesc (c : Config) : FrameDesc := descriptor c .readSr1 1

/-- The descriptor of command transaction `j` of the running operation, from its latches. -/
def State.commandDesc (s : State) (j : Fin 2) : Option FrameDesc :=
  match s.latch.op with
  | none => none
  | some o => (payloadLength (o.frameOf j) s.latch.n).map (descriptor s.cfg (o.frameOf j))

/-- The write payload byte at index `k` (R136): of the buffer, or the operand `val` where there is no buffer. -/
def State.payloadByte (s : State) (k : Nat) : Except Halt Byte :=
  match s.latch.buf, s.latch.val with
  | some _, _ =>
    match s.buf.read k with
    | some b => .ok b
    | none => .error (.broken .bufferOverrun)
  | none, some v => .ok v
  | none, none => .error (.broken .latchEmpty)

/-- The operation's named outputs become `o` (R135). -/
def State.setOutputs (s : State) (o : List Byte) : State := { s with latch := { s.latch with outputs := o } }

/-- The transfer buffer becomes `t`. -/
def State.setBuf (s : State) (t : TransferBuffer) : State := { s with buf := t }

/-- Where received payload bytes are stored: the operation's buffer, if it was given one, in its command transaction;
nowhere in the gate, whose sample is no payload of the operation (R147). -/
def State.sink (s : State) : Option BufRef :=
  match s.phase with
  | .gate _ => none
  | .idle => s.latch.buf
  | .setup => s.latch.buf
  | .cmd _ _ => s.latch.buf

/-- A read payload byte captured at index `k` (R135): appended to the operation's outputs, and stored at `buf[k]`
where the operation was given a buffer. -/
def State.capture (s : State) (k : Nat) (b : Byte) : Except Halt State :=
  match s.sink with
  | none => .ok (s.setOutputs (s.latch.outputs ++ [b]))
  | some _ =>
    match s.buf.write k b with
    | some t => .ok ((s.setBuf t).setOutputs (s.latch.outputs ++ [b]))
    | none => .error (.broken .bufferOverrun)

/-- A request fits the latches (R253): its length within its buffer and within `LEN_MAX`. DESIGN CHOICE
(notes/assumptions/22.md): `LEN_MAX` bounds the operand `n` only, not the fixed payload lengths 1, 2, 3 and 8. -/
def Call.fits (c : Config) (r : Call) : Bool :=
  match r.n, r.buf with
  | some n, some b => fitsBuffer n b && fitsLenMax c n
  | some n, none => fitsLenMax c n
  | none, _ => true

end Sys2Proof.Machine
end

