-- ==== Sys2Proof/Machine/Ops.lean ====
section
/-! DEFINITION. The shared operations: the five bus events (00_scope.md R12, R13), the transaction bracket
(40_transaction_scope.md), the sequencer that advances one event at a time (10_state.md R36, R37), the return of a
response (R33; 60_exceptions.md R248), and the acceptance of a request (R253, R255, R268). -/

namespace Sys2Proof.Machine

/-! ## Construction -/

/-- Construction of an engine (R265) for a configuration; one that breaks R98 or R8's clock constraint is refused
(decision D4). -/
def construct (c : Config) (b : BusCfg) : Option State :=
  if c.Distinct ∧ b.Ok then some (State.constructed c b) else none

/-! ## Events (R12, R13) -/

/-- Appends an event to the trace. -/
def State.emit (s : State) (e : Event) : State := { s with trace := s.trace ++ [e] }

/-- `phase <- ph` (R13). -/
def State.goto (s : State) (ph : Phase) : State := { s with phase := ph }

/-- The level of the chip-select line becomes `l` (R44). -/
def State.setCs (s : State) (l : CsLevel) : State := { s with csLevel := l }

/-- `cs_id <- cs` (R35, R161). -/
def State.setCsId (s : State) (cs : CsId) : State := { s with csId := some cs }

/-- `CsLow()`: drives the pin `cs_id` names low (R44, R120). -/
def State.lowerCs (s : State) : Except Halt State :=
  match s.csId with
  | none => .error (.broken .noPin)
  | some p => .ok ((s.setCs .low).emit (.csLow p))

/-- `CsHigh()` (R44, R125). -/
def State.raiseCs (s : State) : Except Halt State :=
  match s.csId with
  | none => .error (.broken .noPin)
  | some p => .ok ((s.setCs .high).emit (.csHigh p))

/-- What `BusBegin(clk)` configures (R34, R121): the rate `clk` selects, and always the same mode and bit order. -/
def busParams (b : BusCfg) (clk : Clk) : BusParams where
  rateHz := match clk with
    | .default => b.clkDefaultHz
    | .read => b.clkReadHz
  mode := b.mode
  bitOrder := b.bitOrder

/-- `BusBegin(clk)` (R45, R46, R120). -/
def State.openBus (s : State) (clk : Clk) : State :=
  { s with busOpen := true, busClk := some clk }.emit (.busBegin clk (busParams s.busCfg clk))

/-- `BusEnd()` (R45, R125); `bus_clk` then has no meaning (R46; notes/assumptions/9.md). -/
def State.closeBus (s : State) : State :=
  { s with busOpen := false, busClk := none }.emit .busEnd

/-- `rx <- Xfer(tx)` (R13, R14): the next byte of the oracle, or no step where the transport never completes it. -/
def State.xfer (s : State) (tx : Byte) : Except Halt (Byte × State) :=
  match s.answers with
  | .never :: _ => .error .stalled
  | .byte b :: rest => .ok (b, ({ s with answers := rest } : State).emit (.xfer tx b))
  | [] =>
    .ok (Config.deviceByte s.drawn, ({ s with drawn := s.drawn + 1 } : State).emit (.xfer tx (Config.deviceByte s.drawn)))

/-- `Xfer(tx)` with the returned byte discarded (R13, R101). -/
def State.send (s : State) (tx : Byte) : Except Halt State :=
  match s.xfer tx with
  | .error h => .error h
  | .ok (_, s') => .ok s'

/-- `buf[k] <- Xfer(0x00)` (R135). -/
def State.receive (s : State) (k : Nat) : Except Halt State :=
  match s.xfer readFill with
  | .error h => .error h
  | .ok (b, s') => s'.capture k b

/-! ## Inside a transaction (R37) -/

/-- The event at a position of a transaction with descriptor `fd` (R120, R125, R132 to R136). -/
def State.eventAt (s : State) (fd : FrameDesc) (tp : TxPos) : Except Halt State :=
  match tp with
  | .csLow => s.lowerCs
  | .busBegin => .ok (s.openBus fd.clk)
  | .opcode => s.send fd.opc
  | .addr k =>
    match s.latch.addr with
    | some a => s.send (addrByte a k)
    | none => .error (.broken .latchEmpty)
  | .dummy _ => s.send dummyValue
  | .payload k =>
    match fd.dir with
    | .read => s.receive k
    | .write =>
      match s.payloadByte k with
      | .ok b => s.send b
      | .error h => .error h
    | .none => .error (.broken .latchEmpty)
  | .busEnd => .ok s.closeBus
  | .csHigh => s.raiseCs

/-- Where the payload begins, or the end of the transaction where there is none. -/
def payloadStart (fd : FrameDesc) : TxPos := if 0 < fd.n then .payload 0 else .busEnd

/-- Where the dummies begin, or what follows them where there is none. -/
def dummyStart (fd : FrameDesc) : TxPos := if 0 < fd.d then .dummy 0 else payloadStart fd

/-- Where the address begins, or what follows it where there is none. -/
def addressStart (fd : FrameDesc) : TxPos := if fd.addressed then .addr 0 else dummyStart fd

/-- The position after an event (R37); nothing after `T_CSHIGH`. -/
def nextPos (fd : FrameDesc) : TxPos → Option TxPos
  | .csLow => some .busBegin
  | .busBegin => some .opcode
  | .opcode => some (addressStart fd)
  | .addr k => some (if k + 1 < 3 then .addr (k + 1) else dummyStart fd)
  | .dummy k => some (if k + 1 < fd.d then .dummy (k + 1) else payloadStart fd)
  | .payload k => some (if k + 1 < fd.n then .payload (k + 1) else .busEnd)
  | .busEnd => some .csHigh
  | .csHigh => none

/-! ## The end of an operation (R33, R248) -/

/-- `return`: the response goes to the host port, every latch is emptied, the engine is idle (R13, R31). -/
def State.respond (s : State) (r : Response) : State :=
  { s with responses := s.responses ++ [r], latch := Latches.empty, phase := .idle }

/-- `last_status <- code; return (code, data)` (R33). A code other than `OK` is this hardware's only "exception": it
saves nothing and goes nowhere (R248). -/
def State.returnStatus (s : State) (code : StatusCode) (data : List Byte) : State :=
  { s with lastStatus := some code }.respond (.status code data)

/-- After the gate's transaction (R147): `BUSY`, or on to the command; the sample is dropped (R39). -/
def State.gateDone (s : State) : Except Halt State :=
  match s.latch.outputs with
  | b :: _ =>
    if busyFlag b then .ok (s.returnStatus .busy [])
    else .ok ((s.setOutputs []).goto (.cmd 0 .csLow))
  | [] => .error (.broken .latchEmpty)

/-- After command transaction `j`: the operation's return (R137, R146, R161), or the second transaction of `RESET`
(R214). -/
def State.commandDone (s : State) (j : Fin 2) : Except Halt State :=
  match s.latch.op with
  | none => .error (.broken .latchEmpty)
  | some (.wire _) => .ok (s.returnStatus .ok s.latch.outputs)
  | some .isBusy =>
    match s.latch.outputs with
    | b :: _ => .ok (s.respond (.boolean (busyFlag b)))
    | [] => .error (.broken .latchEmpty)
  | some .reset =>
    if j = 0 then .ok (s.goto (.cmd 1 .csLow)) else .ok (s.returnStatus .ok [])
  | some .init =>
    match s.latch.outputs with
    | [mfr, dev] => .ok (s.returnStatus (identityStatus mfr dev) [])
    | _ => .error (.broken .latchEmpty)

/-! ## The sequencer (R36, R37) -/

/-- One event of the running operation and the phase after it (R37). -/
def State.tick (s : State) : Except Halt State :=
  match s.phase with
  | .idle => .error .quiescent
  | .setup =>
    match s.latch.cs with
    | none => .error (.broken .latchEmpty)
    | some cs =>
      match (s.setCsId cs).raiseCs with
      | .error h => .error h
      | .ok s' => .ok (s'.goto (.cmd 0 .csLow))
  | .gate tp =>
    match s.eventAt (gateDesc s.cfg) tp with
    | .error h => .error h
    | .ok s' =>
      match nextPos (gateDesc s.cfg) tp with
      | some tp' => .ok (s'.goto (.gate tp'))
      | none =>
        match s'.gateDone with
        | .error h => .error h
        | .ok s'' => .ok s''
  | .cmd j tp =>
    match s.commandDesc j with
    | none => .error (.broken .latchEmpty)
    | some fd =>
      match s.eventAt fd tp with
      | .error h => .error h
      | .ok s' =>
        match nextPos fd tp with
        | some tp' => .ok (s'.goto (.cmd j tp'))
        | none =>
          match s'.commandDone j with
          | .error h => .error h
          | .ok s'' => .ok s''

/-- At most `k` events, stopping where the sequencer makes none. -/
def runTicks : Nat → State → State
  | 0, s => s
  | k + 1, s =>
    match s.tick with
    | .error _ => s
    | .ok s' => runTicks k s'

/-- The number of events of a transaction: its byte exchanges and the four of the bracket (R122). -/
def frameEvents (fd : FrameDesc) : Nat :=
  1 + (if fd.addressed then 3 else 0) + fd.d + fd.n + 4

/-- The most events an operation makes (R126): its gate, its set-up event and its command transactions. -/
def Call.events (c : Config) (r : Call) : Nat :=
  let command := fun j =>
    frameEvents (descriptor c (r.op.frameOf j) ((payloadLength (r.op.frameOf j) r.n).getD 0))
  (if r.op.gated then frameEvents (gateDesc c) else 0) +
    match r.op with
    | .wire _ => command 0
    | .isBusy => command 0
    | .reset => command 0 + command 1
    | .init => 1 + command 0

/-! ## Acceptance (R31, R253, R255, R268) -/

/-- The quiescent state (R52). -/
def State.quiescent (s : State) : Bool :=
  s.phase = .idle ∧ s.csLevel = .high ∧ s.busOpen = false ∧ s.latch = Latches.empty

/-- Where an accepted operation starts (R37): `INIT` in `SETUP`, a gated one at its gate, any other at its command. -/
def OpName.firstPhase : OpName → Phase
  | .init => .setup
  | o => if o.gated then .gate .csLow else .cmd 0 .csLow

/-- The operands are latched and the host's buffer, where there is one, is handed over (R31, R49, R77). -/
def State.accept (s : State) (r : Call) : State :=
  { s with
    latch := { op := some r.op, addr := r.addr, n := r.n, buf := r.buf.map (fun b => { len := b.length }),
               val := r.val, cs := r.cs, outputs := [] }
    buf := match r.buf with
      | some b => TransferBuffer.ofBytes b
      | none => s.buf
    phase := r.op.firstPhase }

/-- Why a request is not accepted, if it is not (R261): the engine mid-operation, an ill-formed request, or a request
other than `INIT` before `cs_id` has a value. -/
def State.rejects (s : State) (r : Call) : Option Refusal :=
  if s.quiescent = false then some .notQuiescent
  else if r.fits s.cfg = false then some .illFormed
  else if r.op ≠ .init ∧ s.csId = none then some .noChipSelect
  else none

/-- One operation, from acceptance to its return, or to the exchange at which the bus stalls (R14, R246). -/
def issue (r : Call) (s : State) : Host.Outcome State Fault Refusal :=
  match s.rejects r with
  | some why => .refused why
  | none => .next (runTicks (r.events s.cfg) (s.accept r))

end Sys2Proof.Machine
end

