-- ==== Sys2Proof/Machine/Compound.lean ====
section
/-! DEFINITION. The compound operations (30_encoding.md R104), which have no opcode of their own. -/

namespace Sys2Proof.Machine

/-- `IS_BUSY` (R146): the frame of `READ_SR1`; answers bit 0 as a Boolean and leaves `last_status` as it was. -/
def execIsBusy (s : State) : Host.Outcome State Fault Refusal :=
  issue { op := .isBusy } s

/-- `RESET` (R214): one gate check, then the two reset frames, each in a transaction of its own. -/
def execReset (s : State) : Host.Outcome State Fault Refusal :=
  issue { op := .reset } s

/-- `INIT` (R161): stores `cs_id`, drives chip-select high, reads the identity and tests it after the transaction. -/
def execInit (cs : CsId) (s : State) : Host.Outcome State Fault Refusal :=
  issue { op := .init, cs := some cs } s

end Sys2Proof.Machine
end

