-- ==== Sys2Proof/Machine/Bare.lean ====
section
/-! DEFINITION. The opcode-only commands (48_bare_commands.md): the frame is the opcode byte, not gated, `OK` always (R225). -/

namespace Sys2Proof.Machine

/-- `WRITE_ENABLE` (R226). The engine never sends it on its own. -/
def execWriteEnable (s : State) : Host.Outcome State Fault Refusal :=
  issue { op := .wire .writeEnable } s

/-- `VOLATILE_WRITE_ENABLE` (R227). -/
def execVolatileWriteEnable (s : State) : Host.Outcome State Fault Refusal :=
  issue { op := .wire .volatileWriteEnable } s

/-- `WRITE_DISABLE` (R228). -/
def execWriteDisable (s : State) : Host.Outcome State Fault Refusal :=
  issue { op := .wire .writeDisable } s

/-- `RELEASE_POWER_DOWN` (R229): the opcode alone, nothing read back. -/
def execReleasePowerDown (s : State) : Host.Outcome State Fault Refusal :=
  issue { op := .wire .releasePowerDown } s

/-- `SUSPEND` (R230). -/
def execSuspend (s : State) : Host.Outcome State Fault Refusal :=
  issue { op := .wire .suspend } s

/-- `RESUME` (R231). -/
def execResume (s : State) : Host.Outcome State Fault Refusal :=
  issue { op := .wire .resume } s

/-- `POWER_DOWN` (R232): the engine itself has no power state (R260). -/
def execPowerDown (s : State) : Host.Outcome State Fault Refusal :=
  issue { op := .wire .powerDown } s


end Sys2Proof.Machine
end

