-- ==== Sys2Proof/Machine/DataRead.lean ====
section
/-! DEFINITION. The reads of the main array (44_data_read.md): not gated, `OK` always (R170). -/

namespace Sys2Proof.Machine

/-- `READ_DATA` (R171): no dummies; this transaction alone runs at the read clock. -/
def execReadData (addr : Address) (n : Nat) (buf : List Byte) (s : State) : Host.Outcome State Fault Refusal :=
  issue { op := .wire .readData, addr := some addr, n := some n, buf := some buf } s

/-- `FAST_READ` (R172): `DUMMY_FAST_READ` dummies, default clock. -/
def execFastRead (addr : Address) (n : Nat) (buf : List Byte) (s : State) : Host.Outcome State Fault Refusal :=
  issue { op := .wire .fastRead, addr := some addr, n := some n, buf := some buf } s


end Sys2Proof.Machine
end

