-- ==== Sys2Proof/Machine/Identification.lean ====
section
/-! DEFINITION. The identification queries (43_identification.md R155 to R159): not gated, nothing compared, `OK` always (R162). -/

namespace Sys2Proof.Machine

/-- `READ_MANUFACTURER_ID` (R156): five exchanges; outputs `mfr`, `dev` are receive positions 3 and 4. -/
def execReadManufacturerId (s : State) : Host.Outcome State Fault Refusal :=
  issue { op := .wire .readManufacturerId } s

/-- `READ_JEDEC_ID` (R157): four exchanges; outputs `mfr`, `type`, `cap` are receive positions 1 to 3. -/
def execReadJedecId (s : State) : Host.Outcome State Fault Refusal :=
  issue { op := .wire .readJedecId } s

/-- `READ_UNIQUE_ID` (R158): thirteen exchanges; outputs `uid[0..7]` are receive positions 5 to 12. -/
def execReadUniqueId (s : State) : Host.Outcome State Fault Refusal :=
  issue { op := .wire .readUniqueId } s

/-- `READ_SFDP` (R159): addressed, `DUMMY_SFDP` dummies, `n` bytes into `buf[0..n-1]`. -/
def execReadSfdp (addr : Address) (n : Nat) (buf : List Byte) (s : State) : Host.Outcome State Fault Refusal :=
  issue { op := .wire .readSfdp, addr := some addr, n := some n, buf := some buf } s


end Sys2Proof.Machine
end

