-- ==== Sys2Proof/Machine/ProgramErase.lean ====
section
/-! DEFINITION. Program and erase of the main array (45_program_erase.md): gated, `BUSY` or `OK` (R180). Nothing of R187 is checked. -/

namespace Sys2Proof.Machine

/-- `PAGE_PROGRAM` (R181): `buf[0..n-1]` after the address; no length cap; the buffer is read, not written. -/
def execPageProgram (addr : Address) (n : Nat) (buf : List Byte) (s : State) : Host.Outcome State Fault Refusal :=
  issue { op := .wire .pageProgram, addr := some addr, n := some n, buf := some buf } s

/-- `SECTOR_ERASE` (R182): the address as given, aligned or not (R64). -/
def execSectorErase (addr : Address) (s : State) : Host.Outcome State Fault Refusal :=
  issue { op := .wire .sectorErase, addr := some addr } s

/-- `BLOCK_ERASE_32K` (R183). -/
def execBlockErase32K (addr : Address) (s : State) : Host.Outcome State Fault Refusal :=
  issue { op := .wire .blockErase32K, addr := some addr } s

/-- `BLOCK_ERASE_64K` (R184). -/
def execBlockErase64K (addr : Address) (s : State) : Host.Outcome State Fault Refusal :=
  issue { op := .wire .blockErase64K, addr := some addr } s

/-- `CHIP_ERASE` (R185): the opcode alone. -/
def execChipErase (s : State) : Host.Outcome State Fault Refusal :=
  issue { op := .wire .chipErase } s


end Sys2Proof.Machine
end

