-- ==== Sys2Proof/Machine/SecurityRegister.lean ====
section
/-! DEFINITION. The security registers (46_security_register.md): the shapes of the array operations with other opcodes (R195, R199). -/

namespace Sys2Proof.Machine

/-- `ERASE_SECURITY_REGISTER` (R196): gated. -/
def execEraseSecurityRegister (addr : Address) (s : State) : Host.Outcome State Fault Refusal :=
  issue { op := .wire .eraseSecurityRegister, addr := some addr } s

/-- `PROGRAM_SECURITY_REGISTER` (R197): gated; no length cap. -/
def execProgramSecurityRegister (addr : Address) (n : Nat) (buf : List Byte) (s : State) : Host.Outcome State Fault Refusal :=
  issue { op := .wire .programSecurityRegister, addr := some addr, n := some n, buf := some buf } s

/-- `READ_SECURITY_REGISTER` (R198): not gated; `DUMMY_SECREG_READ` dummies. -/
def execReadSecurityRegister (addr : Address) (n : Nat) (buf : List Byte) (s : State) : Host.Outcome State Fault Refusal :=
  issue { op := .wire .readSecurityRegister, addr := some addr, n := some n, buf := some buf } s


end Sys2Proof.Machine
end

