-- ==== Sys2Proof/Machine/StatusReset.lean ====
section
/-! DEFINITION. The status-register accessors and the two reset steps (47_status_registers_reset.md): writes gated, reads not (R205). -/

namespace Sys2Proof.Machine

/-- `READ_SR1` (R206): one byte, every bit opaque (R40). -/
def execReadSr1 (s : State) : Host.Outcome State Fault Refusal :=
  issue { op := .wire .readSr1 } s

/-- `WRITE_SR1` (R209): the byte as given; gated. -/
def execWriteSr1 (val : Byte) (s : State) : Host.Outcome State Fault Refusal :=
  issue { op := .wire .writeSr1, val := some val } s

/-- `READ_SR2` (R207): one byte, every bit opaque (R40). -/
def execReadSr2 (s : State) : Host.Outcome State Fault Refusal :=
  issue { op := .wire .readSr2 } s

/-- `WRITE_SR2` (R210): the byte as given; gated. -/
def execWriteSr2 (val : Byte) (s : State) : Host.Outcome State Fault Refusal :=
  issue { op := .wire .writeSr2, val := some val } s

/-- `READ_SR3` (R208): one byte, every bit opaque (R40). -/
def execReadSr3 (s : State) : Host.Outcome State Fault Refusal :=
  issue { op := .wire .readSr3 } s

/-- `WRITE_SR3` (R211): the byte as given; gated. -/
def execWriteSr3 (val : Byte) (s : State) : Host.Outcome State Fault Refusal :=
  issue { op := .wire .writeSr3, val := some val } s

/-- `ENABLE_RESET` (R212): the opcode alone, not gated. -/
def execEnableReset (s : State) : Host.Outcome State Fault Refusal :=
  issue { op := .wire .enableReset } s

/-- `RESET_DEVICE` (R213): the opcode alone, not gated; no engine state is reset (R266). -/
def execResetDevice (s : State) : Host.Outcome State Fault Refusal :=
  issue { op := .wire .resetDevice } s


end Sys2Proof.Machine
end

