-- ==== Sys2Proof/Machine/Dispatch.lean ====
section
/-! DEFINITION. One arm per wire operation (30_encoding.md R96): each calls that operation's own meaning. -/

namespace Sys2Proof.Machine

/-- The meaning of an instruction. -/
def exec (i : Instr) (s : State) : Host.Outcome State Fault Refusal :=
  match i with
  | .writeEnable => Sys2Proof.Machine.execWriteEnable s
  | .volatileWriteEnable => Sys2Proof.Machine.execVolatileWriteEnable s
  | .writeDisable => Sys2Proof.Machine.execWriteDisable s
  | .releasePowerDown => Sys2Proof.Machine.execReleasePowerDown s
  | .readManufacturerId => Sys2Proof.Machine.execReadManufacturerId s
  | .readJedecId => Sys2Proof.Machine.execReadJedecId s
  | .readUniqueId => Sys2Proof.Machine.execReadUniqueId s
  | .readData addr n buf => Sys2Proof.Machine.execReadData addr n buf s
  | .fastRead addr n buf => Sys2Proof.Machine.execFastRead addr n buf s
  | .pageProgram addr n buf => Sys2Proof.Machine.execPageProgram addr n buf s
  | .sectorErase addr => Sys2Proof.Machine.execSectorErase addr s
  | .blockErase32K addr => Sys2Proof.Machine.execBlockErase32K addr s
  | .blockErase64K addr => Sys2Proof.Machine.execBlockErase64K addr s
  | .chipErase => Sys2Proof.Machine.execChipErase s
  | .readSr1 => Sys2Proof.Machine.execReadSr1 s
  | .writeSr1 val => Sys2Proof.Machine.execWriteSr1 val s
  | .readSr2 => Sys2Proof.Machine.execReadSr2 s
  | .writeSr2 val => Sys2Proof.Machine.execWriteSr2 val s
  | .readSr3 => Sys2Proof.Machine.execReadSr3 s
  | .writeSr3 val => Sys2Proof.Machine.execWriteSr3 val s
  | .readSfdp addr n buf => Sys2Proof.Machine.execReadSfdp addr n buf s
  | .eraseSecurityRegister addr => Sys2Proof.Machine.execEraseSecurityRegister addr s
  | .programSecurityRegister addr n buf => Sys2Proof.Machine.execProgramSecurityRegister addr n buf s
  | .readSecurityRegister addr n buf => Sys2Proof.Machine.execReadSecurityRegister addr n buf s
  | .suspend => Sys2Proof.Machine.execSuspend s
  | .resume => Sys2Proof.Machine.execResume s
  | .powerDown => Sys2Proof.Machine.execPowerDown s
  | .enableReset => Sys2Proof.Machine.execEnableReset s
  | .resetDevice => Sys2Proof.Machine.execResetDevice s

end Sys2Proof.Machine
end

