-- ==== Sys2Proof/Machine/Requests.lean ====
section
/-! DEFINITION. The host port (60_exceptions.md R253): which request comes next, and what it does. -/

namespace Sys2Proof.Machine

/-- The meaning of a request (R103, R104). -/
def execRequest (r : Request) (s : State) : Host.Outcome State Fault Refusal :=
  match r with
  | .wire i => exec i s
  | .isBusy => execIsBusy s
  | .reset => execReset s
  | .init cs => execInit cs s

/-- The request a port item presents: a record as it is, a frame as the decoder reads it (R99, R102). -/
def readItem (c : Config) : PortItem → Except DecodeRefusal Request
  | .request r => .ok r
  | .frame t =>
    match decode c t with
    | .ok i => .ok (.wire i)
    | .error e => .error e

/-- An idle engine takes the next request from the host port and runs it (R246, R253). A request that is not accepted is the
absence of a step (R261), so it stays at the head of the port until the host takes it back (`State.withdraw`); what the host
does then the spec does not say. DESIGN CHOICE: notes/assumptions/7.md. -/
def serve (s : State) : Host.Outcome State Fault Refusal :=
  match s.port with
  | [] => .refused .noRequest
  | item :: rest =>
    match readItem s.cfg item with
    | .error e => .refused (.notAFrame e)
    | .ok r => execRequest r { s with port := rest }

/-- An engine in the middle of an operation goes on with it, one event at a time; the host port accepts nothing
(R14, R255). -/
def proceed (s : State) : Host.Outcome State Fault Refusal :=
  match s.tick with
  | .ok s' => .next s'
  | .error .quiescent => .refused .noRequest
  | .error .stalled => .refused .busStalled
  | .error (.broken f) => .fault f

/-- The host takes back the request it presents, and goes on with the one after it (95_test_vectors.md P7). It is the host's
act and no step of the engine. -/
def State.withdraw (s : State) : State := { s with port := s.port.tail }

/-- The host presents a frame next, on an engine whose chip-select line has an identifier: the one `INIT` stored, or,
before any `INIT`, one the platform gives (R268; notes/assumptions/7.md). -/
def State.present (s : State) (t : List Byte) : State :=
  { s with port := .frame t :: s.port, csId := some (s.csId.getD Config.someCsId) }

end Sys2Proof.Machine
end

