-- ==== Sys2Proof/Machine/Step.lean ====
section
/-! DEFINITION. One step: an idle engine runs the next request of the host port (10_state.md R36, R37; 60_exceptions.md
R246, R253); an engine left in the middle of an operation by a stalled bus makes that operation's next event, or is
stuck (00_scope.md R14). -/

namespace Sys2Proof.Machine

/-- One step of the engine. -/
def step (s : State) : Host.Outcome State Fault Refusal :=
  match s.phase with
  | .idle => serve s
  | .setup => proceed s
  | .gate _ => proceed s
  | .cmd _ _ => proceed s

/-- The state in which the host presents, next, the frame a word of spec/opcode_table.json stands for. -/
def State.withFetchWord (s : State) (nbits w : Nat) : State :=
  s.present (wordFrame s.cfg nbits w)

end Sys2Proof.Machine
end

