-- ==== Sys2Proof/Safety.lean ====
section
/-! DEFINITION. The terms claims use. First what a request does, written the way the spec's procedures are written
(41_command_dispatcher.md R137, R138), with no sequencer in it; then the invariant of 10_state.md R54; then what the
spec leaves to the host (70_reset_and_hazards.md R275 to R285) and what it says of a correct device
(20_memory.md R80 to R84): premises a claim may take, none of them checked by the engine. -/

namespace Sys2Proof.Machine

/-! ## The oracle's answers (R79) and the premise that every exchange completes (R14) -/

/-- R14's fairness premise: the transport completes every exchange it was asked for. -/
abbrev State.BusCompletes (s : State) : Prop := BusAnswer.never ∉ s.answers

/-- The byte the oracle returns at exchange `k` from here, counted from 0. -/
def State.answer (s : State) (k : Nat) : Byte :=
  match s.answers[k]? with
  | some (.byte b) => b
  | some .never => Config.deviceByte (s.drawn + k)
  | none => Config.deviceByte (s.drawn + (k - s.answers.length))

/-- The receive sequence of the next `k` exchanges (R12). -/
def State.received (s : State) (k : Nat) : List Byte := (List.range k).map s.answer

/-- The oracle after `k` exchanges. -/
def State.consume (s : State) (k : Nat) : State :=
  { s with answers := s.answers.drop k, drawn := s.drawn + (k - s.answers.length) }

/-! ## Procedures (R137, R138) -/

/-- The trace of one transaction (R122): the bracket around the exchanges of `t` and `r`. -/
def transaction (p : CsId) (b : BusCfg) (clk : Clk) (t r : List Byte) : List Event :=
  [Event.csLow p, Event.busBegin clk (busParams b clk)] ++ List.zipWith Event.xfer t r ++ [Event.busEnd, Event.csHigh p]

/-- One whole transaction that transmits `t`: between `begin` and `end`, the exchanges of `t` (R120, R122, R125). -/
def State.transact (s : State) (p : CsId) (clk : Clk) (t : List Byte) : State :=
  { s.consume t.length with
    trace := s.trace ++ transaction p s.busCfg clk t (s.received t.length)
    busClk := none }

/-- `last_status <- code; return (code, data)`. -/
def State.done (s : State) (code : StatusCode) (data : List Byte) : State :=
  { s with lastStatus := some code, responses := s.responses ++ [.status code data] }

/-- `return b` (R146): no status code, `last_status` left as it was. -/
def State.answerBool (s : State) (b : Bool) : State := { s with responses := s.responses ++ [.boolean b] }

/-- The frame of the gate and of `IS_BUSY` (R146). -/
def gateFrame (c : Config) : List Byte := [opcodeOf c .readSr1, readFill]

/-- `if GateBusy() then last_status <- BUSY; return BUSY else k` (R147): the sampled byte is receive position 1. -/
def State.gateThen (s : State) (p : CsId) (k : State → State) : State :=
  if busyFlag (s.answer 1) then (s.transact p .default (gateFrame s.cfg)).done .busy []
  else k (s.transact p .default (gateFrame s.cfg))

/-- The host hands the transfer buffer over with the request (R49). -/
def State.handOver (s : State) (i : Instr) : State :=
  match i.span? with
  | some (_, b) => s.setBuf (TransferBuffer.ofBytes b)
  | none => s

/-- The bytes captured by the command transaction of `i`: the last `n` of its receive sequence (R101, R138). -/
def State.captured (s : State) (i : Instr) : List Byte :=
  match dirOf i.op with
  | .read => (s.received (encode s.cfg i).length).drop ((encode s.cfg i).length - i.length)
  | .write => []
  | .none => []

/-- The buffer after the command transaction of `i`: a read fills `buf[0..n-1]` and touches no other index (R49). -/
def State.filled (s : State) (i : Instr) : TransferBuffer :=
  match dirOf i.op, i.span? with
  | .read, some (n, b) => TransferBuffer.ofBytes (s.captured i ++ b.drop n)
  | .read, none => s.buf
  | .write, _ => s.buf
  | .none, _ => s.buf

/-- The command transaction of `i` and its return with `OK` (R137). -/
def State.command (s : State) (p : CsId) (i : Instr) : State :=
  ((s.transact p (clkOf i.op) (encode s.cfg i)).setBuf (s.filled i)).done .ok (s.captured i)

/-- `Exec(FD, addr, buf)` of R137: the whole of a wire operation. -/
def State.execFrame (s : State) (p : CsId) (i : Instr) : State :=
  if isGated i.op then (s.handOver i).gateThen p (fun g => g.command p i)
  else (s.handOver i).command p i

/-- `IS_BUSY` (R146). -/
def State.execPoll (s : State) (p : CsId) : State :=
  (s.transact p .default (gateFrame s.cfg)).answerBool (busyFlag (s.answer 1))

/-- `RESET` (R214). -/
def State.execResetPair (s : State) (p : CsId) : State :=
  s.gateThen p (fun g =>
    ((g.transact p .default [opcodeOf g.cfg .enableReset]).transact p .default
      [opcodeOf g.cfg .resetDevice]).done .ok [])

/-- The frame of `READ_MANUFACTURER_ID` (R156). -/
def identityFrame (c : Config) : List Byte :=
  [opcodeOf c .readManufacturerId, dummyValue, dummyValue, readFill, readFill]

/-- `INIT cs` (R161): receive positions 3 and 4 decide. -/
def State.execIdentify (s : State) (cs : CsId) : State :=
  (((s.setCsId cs).emit (.csHigh cs)).transact cs .default (identityFrame s.cfg)).done
    (identityStatus (s.answer 3) (s.answer 4)) []

/-! ## What claims are about -/

/-- A state in which a request other than `INIT` runs whole: quiescent (R52, R255), the chip-select line `p` stored
(R268), and a transport that completes every exchange (R14). -/
structure State.Ready (s : State) (p : CsId) : Prop where
  quiescent : s.quiescent = true
  pin : s.csId = some p
  completes : s.BusCompletes

/-- What an operation leaves in every piece of state the spec gives the engine (R32, R33, R49, R52): the trace grew by
`events`, the code is returned with `data` and recorded, the transfer buffer is `buf`, nothing else changed. It says
nothing of the oracle's bookkeeping, which is the model's own. -/
structure State.Leaves (s t : State) (events : List Event) (code : StatusCode) (data : List Byte)
    (buf : TransferBuffer) : Prop where
  trace : t.trace = s.trace ++ events
  lastStatus : t.lastStatus = some code
  response : t.responses = s.responses ++ [.status code data]
  buffer : t.buf = buf
  pin : t.csId = s.csId
  busCfg : t.busCfg = s.busCfg
  configuration : t.cfg = s.cfg
  port : t.port = s.port
  quiescent : t.quiescent = true

/-- An ungated operation: one transaction that transmits `tx`, then `OK` (R137). -/
def State.Sends (s t : State) (p : CsId) (clk : Clk) (tx data : List Byte) (buf : TransferBuffer) : Prop :=
  s.Leaves t (transaction p s.busCfg clk tx (s.received tx.length)) .ok data buf

/-- The six events of the gate (R147). -/
def State.gateEvents (s : State) (p : CsId) : List Event :=
  transaction p s.busCfg .default [opcodeOf s.cfg .readSr1, 0x00] (s.received 2)

/-- A gated operation (R147, R137): the gate alone and `BUSY`, where bit 0 of the status byte is 1; else the gate, then
one transaction that transmits `tx`, then `OK`. -/
def State.SendsGated (s t : State) (p : CsId) (tx : List Byte) (buf : TransferBuffer) : Prop :=
  if (s.answer 1).getLsbD 0 then s.Leaves t (s.gateEvents p) .busy [] buf
  else s.Leaves t (s.gateEvents p ++ transaction p s.busCfg .default tx ((s.consume 2).received tx.length)) .ok [] buf

/-- The 24-bit address field of R131, by division. -/
def addressBytes (a : Address) : List Byte :=
  [BitVec.ofNat 8 (a.toNat / 65536), BitVec.ofNat 8 (a.toNat / 256), BitVec.ofNat 8 a.toNat]

/-- An event without the byte the device chose. -/
def Event.sent : Event → Event
  | .xfer tx _ => .xfer tx 0
  | .csLow pin => .csLow pin
  | .busBegin clk params => .busBegin clk params
  | .busEnd => .busEnd
  | .csHigh pin => .csHigh pin

/-- `CsLow`, the first event of a transaction. -/
def Event.opens : Event → Bool
  | .csLow _ => true
  | .busBegin _ _ => false
  | .xfer _ _ => false
  | .busEnd => false
  | .csHigh _ => false

/-- How many transactions a trace has begun. -/
def transactionsIn (es : List Event) : Nat := es.countP Event.opens

/-- An exchange of one byte. -/
def Event.exchange : Event → Bool
  | .xfer _ _ => true
  | .csLow _ => false
  | .busBegin _ _ => false
  | .busEnd => false
  | .csHigh _ => false

/-- How many bytes a trace has exchanged. -/
def exchangesIn (es : List Event) : Nat := es.countP Event.exchange

/-- A trace cut short where its exchange number `k`, counted from 0, would come next. -/
def beforeExchange : Nat → List Event → List Event
  | _, [] => []
  | 0, e :: es => if e.exchange then [] else e :: beforeExchange 0 es
  | k + 1, e :: es => e :: beforeExchange (if e.exchange then k else k + 1) es

/-- The clock setting of the bus transaction that a trace leaves open (R45, R46). -/
def clockIn (es : List Event) : Option Clk :=
  es.foldl (fun clk e => match e with
    | .busBegin c _ => some c
    | .busEnd => none
    | .csLow _ | .xfer _ _ | .csHigh _ => clk) none

/-- The positions of a transaction in the order of R37's diagram, a bracketed group with nothing in it skipped. -/
def positions (fd : FrameDesc) : List TxPos :=
  [.csLow, .busBegin, .opcode] ++ (if fd.addressed then [.addr 0, .addr 1, .addr 2] else []) ++
    (List.range fd.d).map .dummy ++ (List.range fd.n).map .payload ++ [.busEnd, .csHigh]

/-- The event on the arrow out of a position (R37), the byte the device answers apart. -/
def State.emitsAt (s : State) (fd : FrameDesc) (e : Event) : TxPos → Prop
  | .csLow => ∃ pin, s.csId = some pin ∧ e = .csLow pin
  | .busBegin => e = .busBegin fd.clk (busParams s.busCfg fd.clk)
  | .opcode => ∃ rx, e = .xfer fd.opc rx
  | .addr k => ∃ a tx rx, s.latch.addr = some a ∧ (addressBytes a)[k]? = some tx ∧ e = .xfer tx rx
  | .dummy _ => ∃ rx, e = .xfer 0x00 rx
  | .payload _ => ∃ tx rx, (fd.dir = .read → tx = 0x00) ∧ e = .xfer tx rx
  | .busEnd => e = .busEnd
  | .csHigh => ∃ pin, s.csId = some pin ∧ e = .csHigh pin

/-- The responses a request can be given (R240, R243, R245). -/
def mayAnswer : Request → Response → Bool
  | .wire _, .status .ok _ => true
  | .wire i, .status .busy data => isGated i.op && decide (data = [])
  | .wire _, .status .unknownManufacturerId _ => false
  | .wire _, .status .unknownDeviceId _ => false
  | .wire _, .boolean _ => false
  | .isBusy, .boolean _ => true
  | .isBusy, .status _ _ => false
  | .reset, .status .ok data => decide (data = [])
  | .reset, .status .busy data => decide (data = [])
  | .reset, .status .unknownManufacturerId _ => false
  | .reset, .status .unknownDeviceId _ => false
  | .reset, .boolean _ => false
  | .init _, .status .busy _ => false
  | .init _, .status .ok data => decide (data = [])
  | .init _, .status .unknownManufacturerId data => decide (data = [])
  | .init _, .status .unknownDeviceId data => decide (data = [])
  | .init _, .boolean _ => false

/-- What `last_status` is after a response (R33): its code, or, after a Boolean or no response, what it was. -/
def statusAfter (before : Option StatusCode) : Option Response → Option StatusCode
  | some (.status code _) => some code
  | some (.boolean _) => before
  | none => before

/-! ## The invariant of R54 -/

/-- The levels at a position of a transaction: chip-select, whether the bus is open, its clock. -/
def linesAt (fd : FrameDesc) : TxPos → CsLevel × Bool × Option Clk
  | .csLow => (.high, false, none)
  | .busBegin => (.low, false, none)
  | .opcode => (.low, true, some fd.clk)
  | .addr _ => (.low, true, some fd.clk)
  | .dummy _ => (.low, true, some fd.clk)
  | .payload _ => (.low, true, some fd.clk)
  | .busEnd => (.low, true, some fd.clk)
  | .csHigh => (.low, false, none)

/-- A position exists in the frame (R36, R37). -/
def TxPos.inFrame (fd : FrameDesc) : TxPos → Bool
  | .addr k => fd.addressed && decide (k < 3)
  | .dummy k => decide (k < fd.d)
  | .payload k => decide (k < fd.n)
  | .csLow => true
  | .busBegin => true
  | .opcode => true
  | .busEnd => true
  | .csHigh => true

/-- How many bytes have been captured before a position. -/
def capturedBefore (fd : FrameDesc) : TxPos → Nat
  | .payload k => if fd.dir = .read then k else 0
  | .busEnd => if fd.dir = .read then fd.n else 0
  | .csHigh => if fd.dir = .read then fd.n else 0
  | .csLow => 0
  | .busBegin => 0
  | .opcode => 0
  | .addr _ => 0
  | .dummy _ => 0

/-- The latches hold the operands the operation has (R31, R96), and a payload fits its buffer (R49). -/
def State.latchesFit (s : State) (o : OpName) : Bool :=
  match o with
  | .wire w =>
    (!isAddressed w || s.latch.addr.isSome) &&
    match fixedLength w with
    | some _ => decide (s.latch.buf = none) && (decide (dirOf w ≠ .write) || s.latch.val.isSome)
    | none =>
      match s.latch.n, s.latch.buf with
      | some n, some b => decide (b.len = s.buf.len) && decide (n ≤ s.buf.len)
      | some _, none => false
      | none, _ => false
  | .isBusy => decide (s.latch.buf = none)
  | .reset => decide (s.latch.buf = none)
  | .init => decide (s.latch.buf = none)

/-- Where a trace stands with respect to the bracket (R122). -/
inductive Bracket where
  | outside
  | selected
  | opened (clk : Clk)
  | talking
  | closed
deriving DecidableEq, Repr

/-- The one shape of a transaction (R122): `CsLow`, `BusBegin`, at least one exchange, `BusEnd`, `CsHigh`. The first
exchange carries a value of `OPC` (R100), after `BusBegin(READ)` that of `READ_DATA` (R121). A lone `CsHigh` outside a
transaction is `INIT`'s (R54 (d)). -/
def Bracket.next (c : Config) (b : Bracket) (e : Event) : Option Bracket :=
  match b, e with
  | .outside, .csLow _ => some .selected
  | .outside, .csHigh _ => some .outside
  | .selected, .busBegin clk _ => some (.opened clk)
  | .opened clk, .xfer tx _ =>
    if tx ∈ c.opc.toList ∧ (clk = .read → tx = opcodeOf c .readData) then some .talking else none
  | .talking, .xfer _ _ => some .talking
  | .talking, .busEnd => some .closed
  | .closed, .csHigh _ => some .outside
  | _, _ => none

/-- Reads a trace from a place; `none` if it has not the shape of R54 (d). -/
def scan (c : Config) : Bracket → List Event → Option Bracket
  | b, [] => some b
  | b, e :: es =>
    match Bracket.next c b e with
    | none => none
    | some b' => scan c b' es

/-- Where the trace must stand at a position of a transaction. -/
def bracketAt (fd : FrameDesc) : TxPos → Bracket
  | .csLow => .outside
  | .busBegin => .selected
  | .opcode => .opened fd.clk
  | .addr _ => .talking
  | .dummy _ => .talking
  | .payload _ => .talking
  | .busEnd => .talking
  | .csHigh => .closed

/-- The descriptor of the transaction that is running, if one is. -/
def State.runningDesc (s : State) : Option (FrameDesc × TxPos) :=
  match s.phase with
  | .idle => none
  | .setup => none
  | .gate tp => some (gateDesc s.cfg, tp)
  | .cmd j tp => (s.commandDesc j).map (fun fd => (fd, tp))

/-- The next event of the running operation is a byte exchange (R37, R123): none of the bracket's four. -/
def State.awaitsByte (s : State) : Prop :=
  ∃ fd tp, s.runningDesc = some (fd, tp) ∧ tp ∉ [TxPos.csLow, .busBegin, .busEnd, .csHigh]

/-- A phase belongs to the operation in the `op` latch (R36). -/
def State.phaseFits (s : State) : Bool :=
  match s.phase, s.latch.op with
  | .idle, none => decide (s.latch = Latches.empty)
  | .idle, some _ => false
  | .setup, some o => decide (o = .init) && s.latch.cs.isSome && decide (s.latch.outputs = []) && s.latchesFit o
  | .gate _, some o => o.gated && s.csId.isSome && s.latchesFit o
  | .cmd j _, some o => (decide (j = 0) || decide (o = .reset)) && s.csId.isSome && s.latchesFit o
  | _, none => false

/-- The lines, the captured bytes and the trace agree with the position (R54 (a) to (d)). -/
def State.linesFit (s : State) : Prop :=
  match s.runningDesc with
  | none =>
    s.csLevel = .high ∧ s.busOpen = false ∧ s.busClk = none ∧ scan s.cfg .outside s.trace = some .outside
  | some (fd, tp) =>
    tp.inFrame fd = true ∧ (s.csLevel, s.busOpen, s.busClk) = linesAt fd tp ∧
      s.latch.outputs.length = capturedBefore fd tp ∧ scan s.cfg .outside s.trace = some (bracketAt fd tp)

/-- The transfer buffer's memory is in canonical form and lies inside the buffer. -/
abbrev TransferBuffer.wf (t : TransferBuffer) : Prop :=
  Memory.wf t.cells ∧ ∀ p ∈ t.cells, p.1 < t.len

/-- The invariant: R54, with what makes it inductive. -/
structure State.Inv (s : State) : Prop where
  phaseFits : s.phaseFits = true
  linesFit : s.linesFit
  bufWf : s.buf.wf

/-! ## Host duties (R275 to R285): what makes a run safe. The engine checks none of them. -/

/-- R277: an erase address is a multiple of its granularity. -/
def alignedErase : Instr → Bool
  | .sectorErase a => decide ((low24 a).toNat % sectorSize = 0)
  | .blockErase32K a => decide ((low24 a).toNat % block32Size = 0)
  | .blockErase64K a => decide ((low24 a).toNat % block64Size = 0)
  | _ => true

/-- R278: a page program has at most `PAGE_SIZE` bytes, and does not run past the end of its page (U2; in R278 a duty from
general knowledge, notes/assumptions/20.md). -/
def insidePage : Instr → Bool
  | .pageProgram a n _ => decide (a.toNat % pageSize + n ≤ pageSize)
  | _ => true

/-- The bytes read or programmed from an address on lie in a region whose bounds are OPEN (R8), the address itself even
where there are none. U17 names only the address; that the bytes after it are asked for too is a DESIGN CHOICE
(notes/assumptions/20.md). -/
def insideRegion (bounds : BitVec 24 → Bool) (a : Address) (n : Nat) : Bool :=
  bounds (a.setWidth 24) && (List.range n).all (fun k => bounds (a.setWidth 24 + BitVec.ofNat 24 k))

/-- R283: a main-array address, and the bytes read or programmed from it on, lie in `[0, MAX_ADDRESS]`; U17: those of the
security registers or of the SFDP metadata lie in that region. -/
def inRange : Instr → Bool
  | .readData a n _ => decide (a.toNat + n ≤ maxAddress + 1) && decide (a.toNat ≤ maxAddress)
  | .fastRead a n _ => decide (a.toNat + n ≤ maxAddress + 1) && decide (a.toNat ≤ maxAddress)
  | .pageProgram a n _ => decide (a.toNat + n ≤ maxAddress + 1) && decide (a.toNat ≤ maxAddress)
  | .sectorErase a => decide (a.toNat ≤ maxAddress)
  | .blockErase32K a => decide (a.toNat ≤ maxAddress)
  | .blockErase64K a => decide (a.toNat ≤ maxAddress)
  | .eraseSecurityRegister a => Config.inSecregBounds (a.setWidth 24)
  | .programSecurityRegister a n _ => insideRegion Config.inSecregBounds a n
  | .readSecurityRegister a n _ => insideRegion Config.inSecregBounds a n
  | .readSfdp a n _ => insideRegion Config.inSfdpBounds a n
  | _ => true

/-- R275: the operations that want a preceding write-enable. -/
def wantsWriteEnable (i : Instr) : Bool := isGated i.op

/-- R275: a status-register write, which a volatile write-enable also serves. -/
def writesStatus (i : Instr) : Bool := i.val?.isSome

/-- R275 and R280 for a list of requests: since the last mutating operation a write-enable was sent (`we`; for a status
write a volatile one, `ve`, also serves), and `RESET_DEVICE` comes directly after `ENABLE_RESET` (`re`). What may stand
between a write-enable and the mutating operation the source does not say; DESIGN CHOICE (notes/assumptions/20.md): a
`WRITE_DISABLE`, a reset or a mutating operation there takes the enable back, one that returned `BUSY` too; any other
operation leaves it. -/
def orderedDuties (we ve re : Bool) : List Request → Bool
  | [] => true
  | .wire i :: rest =>
    if i = .writeEnable then orderedDuties true ve false rest
    else if i = .volatileWriteEnable then orderedDuties we true false rest
    else if i = .writeDisable then orderedDuties false false false rest
    else if i = .enableReset then orderedDuties we ve true rest
    else if i = .resetDevice then re && orderedDuties false false false rest
    else if wantsWriteEnable i then (we || (ve && writesStatus i)) && orderedDuties false false false rest
    else orderedDuties we ve false rest
  | .reset :: rest => orderedDuties false false false rest
  | .isBusy :: rest => orderedDuties we ve false rest
  | .init _ :: rest => orderedDuties we ve false rest

/-- The duties of R275, R277, R278, R280 and R283 (with U17) over a list of requests. -/
def hostDuties (rs : List Request) : Bool :=
  orderedDuties false false false rs &&
    rs.all (fun r => match r with
      | .wire i => alignedErase i && insidePage i && inRange i
      | .isBusy | .reset | .init _ => true)

/-! ## Device premises (R80 to R84): what a claim about engine and device may suppose. No step of the engine reads them. -/

/-- One transaction as the device sees it: the transmit and the receive sequence (R12). -/
structure Exchange where
  tx : List Byte
  rx : List Byte
deriving DecidableEq, Repr

/-- The transactions of a trace, in order: the bytes between one `CsLow` and the next `CsHigh`. -/
def exchangesOf : List Event → Exchange → List Exchange
  | [], _ => []
  | .csLow _ :: es, _ => exchangesOf es { tx := [], rx := [] }
  | .xfer t r :: es, acc => exchangesOf es { tx := acc.tx ++ [t], rx := acc.rx ++ [r] }
  | .csHigh _ :: es, acc =>
    (if acc.tx = [] then [] else [acc]) ++ exchangesOf es { tx := [], rx := [] }
  | .busBegin _ _ :: es, acc => exchangesOf es acc
  | .busEnd :: es, acc => exchangesOf es acc

/-- The complete transactions since construction. -/
def State.exchanges (s : State) : List Exchange := exchangesOf s.trace { tx := [], rx := [] }

/-- The instruction whose frame a transaction transmitted, if it is a frame (R99). -/
def Exchange.instr (c : Config) (x : Exchange) : Option Instr :=
  match decode c x.tx with
  | .ok i => some i
  | .error _ => none

/-- The internal work of a device over the transactions of a trace (R38, R73, R81), as a claim supposes it. It is the
device's own and no state of the engine (R50). -/
structure Device where
  /-- An internal erase or program is in progress during transaction `k`. -/
  working : Nat → Bool
  /-- The device acts on the frame of transaction `k`: it starts an internal erase or program. -/
  acts : Nat → Bool
  /-- The work in progress after transaction `k` is complete before the next one begins. Nothing bounds when (R81). -/
  completes : Nat → Bool

/-- A status-register-1 read that showed the device busy, or not busy (R81). -/
def Exchange.shows (c : Config) (x : Exchange) (busy : Bool) : Bool :=
  x.tx = gateFrame c && x.rx[1]?.map busyFlag == some busy

/-- R82, R275: the transactions before a mutating frame of `i`, the latest first, hold a write-enable (for a status write a
volatile one serves) that nothing has taken back. What takes it back is a DESIGN CHOICE (notes/assumptions/23.md); a status
read that showed busy does, since it may have been the gate of an operation that returned `BUSY` (N28). -/
def writeEnabled (c : Config) (i : Instr) : List Exchange → Bool
  | [] => false
  | x :: older =>
    match x.instr c with
    | none => false
    | some j =>
      if j = .writeEnable ∨ (j = .volatileWriteEnable ∧ writesStatus i = true) then true
      else if isGated j.op = true ∨ j = .writeDisable ∨ x.shows c true = true then false
      else writeEnabled c i older

/-- The frames after which the source does not say what state the device is in (R230, R231, R232, R215; N29): after
`POWER_DOWN` a status read may see any byte (R232). Which these are is a DESIGN CHOICE: notes/assumptions/23.md. -/
def leavesOpen : WireOp → Bool
  | .powerDown | .suspend | .resume | .resetDevice => true
  | _ => false

/-- Transaction `k` is none of the cases (a), (b), (c), (e), (f) of R84 (U1, U2, U3, U5, U6, U17) and no frame that leaves
the device's state open: after one of those no answer of the device is any fixed value. -/
def soundAt (c : Config) (xs : List Exchange) (k : Nat) : Bool :=
  match xs[k]? with
  | none => true
  | some x =>
    match x.instr c with
    | none => false
    | some i =>
      alignedErase i && insidePage i && inRange i &&
        (!isGated i.op || writeEnabled c i (xs.take k).reverse) && !leavesOpen i.op

/-- No transaction before number `k` is one of those cases. -/
def settled (c : Config) (xs : List Exchange) (k : Nat) : Bool := (List.range k).all (soundAt c xs)

/-- R84 (d), U4: no frame before transaction `k` was sent to a working device, status reads apart. -/
def undisturbed (c : Config) (d : Device) (xs : List Exchange) (k : Nat) : Prop :=
  ∀ m x, m < k → xs[m]? = some x → x.tx = gateFrame c ∨ d.working m = false

/-- R74 (3): among the transactions before, the latest first, a status read has shown not busy since the last mutating
frame, if there was one. -/
def polled (c : Config) : List Exchange → Bool
  | [] => true
  | x :: older =>
    x.shows c false || match x.instr c with
      | none => false
      | some j => !isGated j.op && polled c older

/-- The frame of `READ_JEDEC_ID` (R157). -/
def jedecFrame (c : Config) : List Byte := [opcodeOf c .readJedecId, readFill, readFill, readFill]

/-- R80: an accepted device that is not working, and was seen so (R74), answers the manufacturer/device ID frame with `0xEF` at position 3 and
`0x16` at position 4, and the JEDEC ID frame with `0xEF`, `0x40` and `0x17` at positions 1, 2 and 3. -/
def identityContract (c : Config) (d : Device) (xs : List Exchange) : Prop :=
  ∀ k x, xs[k]? = some x → settled c xs k = true → undisturbed c d xs k → d.working k = false →
    polled c (xs.take k).reverse = true →
    (x.tx = identityFrame c → x.rx[3]? = some expectedMfr ∧ x.rx[4]? = some expectedDev) ∧
    (x.tx = jedecFrame c → x.rx[1]? = some expectedMfr ∧ x.rx[2]? = some 0x40 ∧ x.rx[3]? = some 0x17)

/-- The opcode-only commands, of which the source does not say what they make the device do (R215, R225). -/
def effectUnsaid : WireOp → Bool
  | .writeEnable | .volatileWriteEnable | .writeDisable | .releasePowerDown | .suspend | .resume | .powerDown
  | .enableReset | .resetDevice => true
  | _ => false

/-- R81, R186: the busy flag is the device's internal work, which the frame of a mutating operation starts and which goes
on until it completes. -/
structure BusyContract (c : Config) (d : Device) (xs : List Exchange) : Prop where
  /-- Bit 0 at position 1 of a status-register-1 read is 1 exactly while work is in progress. -/
  flag : ∀ k x, xs[k]? = some x → settled c xs k = true → x.tx = gateFrame c →
    x.rx[1]?.map busyFlag = some (d.working k)
  /-- Work that is in progress or was just started goes on until it completes. -/
  lasts : ∀ k, k < xs.length → settled c xs (k + 1) = true →
    d.working (k + 1) = ((d.working k || d.acts k) && !d.completes k)
  /-- After the frame of a mutating operation the device enters a busy state: where neither it nor a frame before it, its
  write-enable among them, was sent to a working device (R84 (d)). -/
  starts : ∀ k x i, xs[k]? = some x → settled c xs (k + 1) = true → undisturbed c d xs (k + 1) →
    x.instr c = some i → isGated i.op = true → d.acts k = true
  /-- Only a frame starts work (R38, R279). Which frames may is a DESIGN CHOICE (notes/assumptions/23.md): those of the
  mutating operations, and those of which the source does not say what they do. -/
  onlyFrames : ∀ k x, xs[k]? = some x → settled c xs k = true → d.acts k = true →
    ∃ i, x.instr c = some i ∧ (isGated i.op = true ∨ effectUnsaid i.op = true)

/-- R82: the device acts on a mutating frame only if a write-enable was issued before, nothing before it being a case of R84
(U1: after a misaligned erase "no premise"). What it does with the frame otherwise is not in the source, and from there on
nothing is supposed of it (`soundAt`). -/
def writeEnableContract (c : Config) (d : Device) (xs : List Exchange) : Prop :=
  ∀ k x i, xs[k]? = some x → settled c xs k = true → undisturbed c d xs k → x.instr c = some i →
    isGated i.op = true → d.acts k = true → ∃ m y, m < k ∧ xs[m]? = some y ∧
      (y.instr c = some .writeEnable ∨ (writesStatus i = true ∧ y.instr c = some .volatileWriteEnable))

/-- R83 (with R82 in its first frame): write-enable, a page program of `b` at `a`, its gate reading not busy, status reads
the last of which shows not busy, then a read of as many bytes at `a`, returns `b`. Nothing is supposed where R84 leaves
the device's answer open: the program keeps inside its page and the array (U2, U6), the write-enable met a device that
was not working (U4), and nothing before was one of R84's cases. -/
def roundTripContract (c : Config) (d : Device) (xs : List Exchange) : Prop :=
  ∀ (before after polls : List Exchange) (we gate pp poll rd : Exchange) (a : Address) (b : List Byte),
    xs = before ++ [we, gate, pp] ++ polls ++ [poll, rd] ++ after →
    settled c xs before.length = true → undisturbed c d xs before.length → d.working before.length = false →
    insidePage (.pageProgram a b.length b) = true → inRange (.pageProgram a b.length b) = true →
    we.tx = [opcodeOf c .writeEnable] →
    gate.tx = gateFrame c → gate.rx[1]?.map busyFlag = some false →
    pp.tx = encode c (.pageProgram a b.length b) →
    (∀ x ∈ polls, x.tx = gateFrame c) →
    poll.tx = gateFrame c → poll.rx[1]?.map busyFlag = some false →
    rd.tx = encode c (.readData a b.length (List.replicate b.length readFill)) →
    rd.rx.drop 4 = b

end Sys2Proof.Machine
end

