-- ==== Sys2Proof/Certificates/Slice0/Obligations.lean ====
section
/-! DEFINITION. The statements for the provers. A statement about an operation reads `State.Ready` (quiescent, `cs_id`
stored, every exchange completes) as the conditions under which the spec says it runs whole, and says what it leaves in
every piece of state the spec gives the engine (`State.Leaves`). The bytes the device answers with are free: `s.answer k`
is answer number `k` from state `s` on, whatever it is (20_memory.md R79; notes/assumptions/4.md). -/

open Sys2Proof Sys2Proof.Machine

/-! ## Construction and configuration -/

/-- R53: the table of the values after construction, for every configuration, of which that the stage is idle is the spec's
decision D27 and that `last_status` has no value D19 (notes/assumptions/15.md); that `State.reset` is the constructed state
of the default instance is the model's choice (11.md), its values those of logs 1 to 3. Nothing is assumed of the device: its answers are the free values of notes/assumptions/4.md. -/
def Obligations.ResetState : Prop :=
  (∀ (c : Config) (b : BusCfg), c.Distinct → b.Ok →
    ∃ s, construct c b = some s ∧ s.phase = .idle ∧ s.csLevel = .high ∧ s.busOpen = false ∧ s.busClk = none ∧
      s.lastStatus = none ∧ s.csId = none ∧ s.busCfg = b ∧ s.cfg = c ∧ s.latch = Latches.empty ∧ s.trace = []) ∧
  construct standardConfig standardBusCfg = some State.reset ∧
  ∀ k, State.reset.answer k = Config.deviceByte k

/-- R98, the spec's own inference (decision D4): the 29 opcodes of a constructed engine are pairwise distinct, which
construction checks (the model's choice, notes/assumptions/11.md); and the default table's are (PRESUMED, 1.md). -/
def Obligations.DistinctOpcodes : Prop :=
  (∀ (c : Config) (b : BusCfg) (s : State), construct c b = some s →
    ∀ op op' : WireOp, opcodeOf s.cfg op = opcodeOf s.cfg op' → op = op') ∧
  ∀ op op' : WireOp, opcodeOf standardConfig op = opcodeOf standardConfig op' → op = op'

/-! ## Encoding -/

/-- R131: the three address bytes, for every 32-bit value; the top 8 bits do not matter. -/
def Obligations.AddressEncoding : Prop :=
  (∀ a : Address, addrBytes a =
    [BitVec.ofNat 8 (a.toNat / 65536 % 256), BitVec.ofNat 8 (a.toNat / 256 % 256), BitVec.ofNat 8 (a.toNat % 256)]) ∧
  (∀ (a : Address) (k : Nat), addrBytes (a + BitVec.ofNat 32 (k * 16777216)) = addrBytes a) ∧
  addrBytes 0 = [0x00, 0x00, 0x00] ∧ addrBytes 0x7FFFFF = [0x7F, 0xFF, 0xFF] ∧
  addrBytes 0x800000 = [0x80, 0x00, 0x00] ∧ addrBytes 0xAB123456 = [0x12, 0x34, 0x56]

/-- R94, S3: for every addressed operation, bits 31:24 of the address operand never reach the frame, and bytes 1 to 3 of
the frame are the low 24 bits, most significant first. -/
def Obligations.AddressedFrames : Prop :=
  ∀ (c : Config) (i : Instr) (a : Address), i.addr? = some a →
    ((encode c i).drop 1).take 3 = addressBytes a ∧
      ∀ i' : Instr, i'.op = i.op → i'.addr? = some (low24 a) → i'.span? = i.span? → encode c i' = encode c i

/-- R90 to R99: with distinct opcodes, the decoder gives back every well-formed instruction of every family from its
frame, with all a frame carries of its operands. -/
def Obligations.DecodeOfEncode : Prop :=
  ∀ (c : Config) (i : Instr), c.Distinct → i.wellFormed c = true → decode c (encode c i) = .ok i.canonical

/-- R99: what the decoder accepts is exactly the frame of the instruction it answers. -/
def Obligations.EncodeOfDecode : Prop :=
  ∀ (c : Config) (t : List Byte) (i : Instr), decode c t = .ok i → encode c i = t ∧ i.canonical = i

/-- R100: a transmit sequence whose first byte is none of the 29 values of `OPC` is refused by name; under the default
table there are 227 such bytes. -/
def Obligations.UnknownOpcodesRefused : Prop :=
  (∀ (c : Config) (b : Byte) (t : List Byte), b ∉ c.opc.toList → decode c (b :: t) = .error .unknownOpcode) ∧
  ((List.range 256).filter (fun k => opOfByte standardConfig (BitVec.ofNat 8 k) = none)).length = 227

/-- R96, R97 and the table of 95_test_vectors.md 2.2: words written out from the encodings, one of each family, decode to
the instruction they stand for. The opcode bytes are the default table's (PRESUMED, notes/assumptions/1.md), and the one dummy
byte of the `READ_SECURITY_REGISTER` frame is the default `DUMMY_SECREG_READ` (PRESUMED, 2.md). -/
def Obligations.SampleFrames : Prop :=
  decode standardConfig [0x06] = .ok .writeEnable ∧
  decode standardConfig [0x90, 0x00, 0x00, 0x00, 0x00] = .ok .readManufacturerId ∧
  decode standardConfig [0x03, 0x00, 0x12, 0x34, 0x00, 0x00] = .ok (.readData 0x001234 2 [0x00, 0x00]) ∧
  decode standardConfig [0x02, 0x00, 0x12, 0x34, 0xDE, 0xAD, 0xBE, 0xEF] =
    .ok (.pageProgram 0x001234 4 [0xDE, 0xAD, 0xBE, 0xEF]) ∧
  decode standardConfig [0x20, 0x00, 0x30, 0x00] = .ok (.sectorErase 0x003000) ∧
  decode standardConfig [0x48, 0x00, 0x30, 0x00, 0x00, 0x00] = .ok (.readSecurityRegister 0x003000 1 [0x00]) ∧
  decode standardConfig [0x11, 0x60] = .ok (.writeSr3 0x60)

/-! ## Operations of one transaction, not gated -/

/-- R225 to R232: the seven opcode-only commands. One exchange, the opcode; `OK` whatever the device answers. That they are
offered, bare and ungated is the spec's decision D11 (notes/assumptions/15.md). -/
def Obligations.BareCommands : Prop :=
  ∀ (s : State) (p : CsId), s.Ready p →
    ∀ i ∈ [Instr.writeEnable, .volatileWriteEnable, .writeDisable, .releasePowerDown, .suspend, .resume, .powerDown],
      ∃ t, exec i s = .next t ∧ s.Sends t p .default [opcodeOf s.cfg i.op] [] s.buf

/-- R212, R213: the two reset steps by themselves. `OK` always, no other engine state changed. That they are not gated is
the spec's decision D12 (notes/assumptions/15.md). -/
def Obligations.ResetSteps : Prop :=
  ∀ (s : State) (p : CsId), s.Ready p →
    (∃ t, exec .enableReset s = .next t ∧ s.Sends t p .default [s.cfg.opc.enableReset] [] s.buf) ∧
      ∃ t, exec .resetDevice s = .next t ∧ s.Sends t p .default [s.cfg.opc.resetDevice] [] s.buf

/-- R156: five exchanges; the outputs are receive positions 3 and 4, whatever they are. The count and the positions are the
spec's decision D7 (conflict C2; notes/assumptions/15.md). -/
def Obligations.ReadManufacturerId : Prop :=
  ∀ (s : State) (p : CsId), s.Ready p →
    ∃ t, exec .readManufacturerId s = .next t ∧
      s.Sends t p .default [s.cfg.opc.readManufacturerId, 0x00, 0x00, 0x00, 0x00] [s.answer 3, s.answer 4] s.buf

/-- R157: four exchanges; the outputs are receive positions 1, 2 and 3. -/
def Obligations.ReadJedecId : Prop :=
  ∀ (s : State) (p : CsId), s.Ready p →
    ∃ t, exec .readJedecId s = .next t ∧
      s.Sends t p .default [s.cfg.opc.readJedecId, 0x00, 0x00, 0x00] [s.answer 1, s.answer 2, s.answer 3] s.buf

/-- R158: thirteen exchanges; the outputs are receive positions 5 to 12, in arrival order. -/
def Obligations.ReadUniqueId : Prop :=
  ∀ (s : State) (p : CsId), s.Ready p →
    ∃ t, exec .readUniqueId s = .next t ∧
      s.Sends t p .default (s.cfg.opc.readUniqueId :: List.replicate 12 0x00)
        [s.answer 5, s.answer 6, s.answer 7, s.answer 8, s.answer 9, s.answer 10, s.answer 11, s.answer 12] s.buf

/-- R159: opcode, address, `DUMMY_SFDP` dummies, `n` fills; `buf[0..n-1]` is filled, the rest of the buffer kept. That an
address is sent is the spec's decision D6 (notes/assumptions/15.md), and the dummy count its parameter (2.md). -/
def Obligations.ReadSfdp : Prop :=
  ∀ (s : State) (p : CsId) (a : Address) (n : Nat) (b : List Byte), s.Ready p → n ≤ b.length → fitsLenMax s.cfg n →
    let tx := [s.cfg.opc.readSfdp] ++ addressBytes a ++ List.replicate (s.cfg.dummySfdp + n) 0x00
    let data := (s.received tx.length).drop (4 + s.cfg.dummySfdp)
    ∃ t, exec (.readSfdp a n b) s = .next t ∧
      s.Sends t p .default tx data (TransferBuffer.ofBytes (data ++ b.drop n)) ∧ data.length = n

/-- R171: opcode, address, `n` fills, in a transaction at the read clock; `buf[0..n-1]` is filled. That this is the
operation at the read clock is the spec's decision D9 (R121; notes/assumptions/15.md). -/
def Obligations.ReadData : Prop :=
  ∀ (s : State) (p : CsId) (a : Address) (n : Nat) (b : List Byte), s.Ready p → n ≤ b.length → fitsLenMax s.cfg n →
    let tx := [s.cfg.opc.readData] ++ addressBytes a ++ List.replicate n 0x00
    let data := (s.received tx.length).drop 4
    ∃ t, exec (.readData a n b) s = .next t ∧
      s.Sends t p .read tx data (TransferBuffer.ofBytes (data ++ b.drop n)) ∧ data.length = n

/-- R172: as R171 with `DUMMY_FAST_READ` dummies, at the default clock; the bytes under the dummies are discarded. -/
def Obligations.FastRead : Prop :=
  ∀ (s : State) (p : CsId) (a : Address) (n : Nat) (b : List Byte), s.Ready p → n ≤ b.length → fitsLenMax s.cfg n →
    let tx := [s.cfg.opc.fastRead] ++ addressBytes a ++ List.replicate (s.cfg.dummyFastRead + n) 0x00
    let data := (s.received tx.length).drop (4 + s.cfg.dummyFastRead)
    ∃ t, exec (.fastRead a n b) s = .next t ∧
      s.Sends t p .default tx data (TransferBuffer.ofBytes (data ++ b.drop n)) ∧ data.length = n

/-- R198: the read of a security register, not gated. -/
def Obligations.ReadSecurityRegister : Prop :=
  ∀ (s : State) (p : CsId) (a : Address) (n : Nat) (b : List Byte), s.Ready p → n ≤ b.length → fitsLenMax s.cfg n →
    let tx := [s.cfg.opc.readSecurityRegister] ++ addressBytes a ++ List.replicate (s.cfg.dummySecregRead + n) 0x00
    let data := (s.received tx.length).drop (4 + s.cfg.dummySecregRead)
    ∃ t, exec (.readSecurityRegister a n b) s = .next t ∧
      s.Sends t p .default tx data (TransferBuffer.ofBytes (data ++ b.drop n)) ∧ data.length = n

/-- R206 to R208: two exchanges; the output is the whole byte at receive position 1. -/
def Obligations.ReadStatusRegisters : Prop :=
  ∀ (s : State) (p : CsId), s.Ready p →
    (∃ t, exec .readSr1 s = .next t ∧ s.Sends t p .default [s.cfg.opc.readSr1, 0x00] [s.answer 1] s.buf) ∧
    (∃ t, exec .readSr2 s = .next t ∧ s.Sends t p .default [s.cfg.opc.readSr2, 0x00] [s.answer 1] s.buf) ∧
    ∃ t, exec .readSr3 s = .next t ∧ s.Sends t p .default [s.cfg.opc.readSr3, 0x00] [s.answer 1] s.buf

/-! ## Gated operations -/

/-- R181: the gate, then opcode, address and `buf[0..n-1]`; no length cap; the buffer is read, not written. -/
def Obligations.PageProgram : Prop :=
  ∀ (s : State) (p : CsId) (a : Address) (n : Nat) (b : List Byte), s.Ready p → n ≤ b.length → fitsLenMax s.cfg n →
    ∃ t, exec (.pageProgram a n b) s = .next t ∧
      s.SendsGated t p ([s.cfg.opc.pageProgram] ++ addressBytes a ++ b.take n) (TransferBuffer.ofBytes b)

/-- R182 to R184: the three erases with an address, at every address, aligned or not. -/
def Obligations.ArrayErases : Prop :=
  ∀ (s : State) (p : CsId) (a : Address), s.Ready p →
    (∃ t, exec (.sectorErase a) s = .next t ∧
      s.SendsGated t p ([s.cfg.opc.sectorErase] ++ addressBytes a) s.buf) ∧
    (∃ t, exec (.blockErase32K a) s = .next t ∧
      s.SendsGated t p ([s.cfg.opc.blockErase32K] ++ addressBytes a) s.buf) ∧
    ∃ t, exec (.blockErase64K a) s = .next t ∧
      s.SendsGated t p ([s.cfg.opc.blockErase64K] ++ addressBytes a) s.buf

/-- R185: the gate, then the opcode alone. -/
def Obligations.ChipErase : Prop :=
  ∀ (s : State) (p : CsId), s.Ready p →
    ∃ t, exec .chipErase s = .next t ∧ s.SendsGated t p [s.cfg.opc.chipErase] s.buf

/-- R209 to R211: the gate, then opcode and `val`, for all 256 values. -/
def Obligations.WriteStatusRegisters : Prop :=
  ∀ (s : State) (p : CsId) (v : Byte), s.Ready p →
    (∃ t, exec (.writeSr1 v) s = .next t ∧ s.SendsGated t p [s.cfg.opc.writeSr1, v] s.buf) ∧
    (∃ t, exec (.writeSr2 v) s = .next t ∧ s.SendsGated t p [s.cfg.opc.writeSr2, v] s.buf) ∧
    ∃ t, exec (.writeSr3 v) s = .next t ∧ s.SendsGated t p [s.cfg.opc.writeSr3, v] s.buf

/-- R196, R197: erase and program of a security register, shaped as their main-array counterparts. -/
def Obligations.MutateSecurityRegisters : Prop :=
  ∀ (s : State) (p : CsId) (a : Address) (n : Nat) (b : List Byte), s.Ready p → n ≤ b.length → fitsLenMax s.cfg n →
    (∃ t, exec (.eraseSecurityRegister a) s = .next t ∧
      s.SendsGated t p ([s.cfg.opc.eraseSecurityRegister] ++ addressBytes a) s.buf) ∧
    ∃ t, exec (.programSecurityRegister a n b) s = .next t ∧
      s.SendsGated t p ([s.cfg.opc.programSecurityRegister] ++ addressBytes a ++ b.take n) (TransferBuffer.ofBytes b)

/-! ## Compound operations -/

/-- R146: the frame of `READ_SR1`; the answer is bit 0 of the byte at receive position 1. That `last_status` is left as it
was is the spec's decision D20 (and D19; notes/assumptions/15.md). -/
def Obligations.IsBusy : Prop :=
  ∀ (s : State) (p : CsId), s.Ready p →
    ∃ t, execIsBusy s = .next t ∧
      t.trace = s.trace ++ [Event.csLow p, Event.busBegin .default (busParams s.busCfg .default),
        Event.xfer s.cfg.opc.readSr1 (s.answer 0), Event.xfer 0x00 (s.answer 1), Event.busEnd, Event.csHigh p] ∧
      t.responses = s.responses ++ [.boolean (decide ((s.answer 1).toNat % 2 = 1))] ∧
      t.lastStatus = s.lastStatus ∧ t.buf = s.buf ∧ t.csId = s.csId ∧ t.busCfg = s.busCfg ∧
      t.cfg = s.cfg ∧ t.port = s.port ∧ t.quiescent = true

/-- R214: one gate check; if the device is busy neither opcode is sent; else each in a transaction of its own, with no
event between them. That the two go in two transactions is the spec's decision D13 (notes/assumptions/15.md). -/
def Obligations.ResetPair : Prop :=
  ∀ (s : State) (p : CsId), s.Ready p →
    ∃ t, execReset s = .next t ∧
      if (s.answer 1).getLsbD 0 then s.Leaves t (s.gateEvents p) .busy [] s.buf
      else s.Leaves t (s.gateEvents p ++ transaction p s.busCfg .default [s.cfg.opc.enableReset] [s.answer 2] ++
        transaction p s.busCfg .default [s.cfg.opc.resetDevice] [s.answer 3]) .ok [] s.buf

/-- R161, R163: `INIT` at any time in a quiescent state, before the first one or after: `cs_id` is stored, the lone
`CsHigh` precedes the transaction of R156, and the identity test of R160 decides the status after it. The lone `CsHigh` and
the storing of `cs_id` are the spec's decision D22, the manufacturer first D21, the frame of R156 D40, its positions D7
(notes/assumptions/15.md). -/
def Obligations.Initialize : Prop :=
  ∀ (s : State) (cs : CsId), s.quiescent = true → s.BusCompletes →
    ∃ t, execInit cs s = .next t ∧
      t.trace = s.trace ++ [Event.csHigh cs, Event.csLow cs, Event.busBegin .default (busParams s.busCfg .default),
        Event.xfer s.cfg.opc.readManufacturerId (s.answer 0), Event.xfer 0x00 (s.answer 1), Event.xfer 0x00 (s.answer 2),
        Event.xfer 0x00 (s.answer 3), Event.xfer 0x00 (s.answer 4), Event.busEnd, Event.csHigh cs] ∧
      t.csId = some cs ∧ t.quiescent = true ∧ t.buf = s.buf ∧ t.busCfg = s.busCfg ∧ t.cfg = s.cfg ∧
      t.port = s.port ∧
      (∃ code, t.lastStatus = some code ∧ t.responses = s.responses ++ [.status code []] ∧
        (s.answer 3 ≠ 0xEF → code = .unknownManufacturerId) ∧
        (s.answer 3 = 0xEF → s.answer 4 ≠ 0x16 → code = .unknownDeviceId) ∧
        (s.answer 3 = 0xEF → s.answer 4 = 0x16 → code = .ok))

/-- R160: `OK` for exactly one pair. That the manufacturer is tested first is the spec's decision D21
(notes/assumptions/15.md). -/
def Obligations.IdentityTest : Prop :=
  ∀ mfr dev : Byte,
    (mfr ≠ 0xEF → identityStatus mfr dev = .unknownManufacturerId) ∧
    (mfr = 0xEF → dev ≠ 0x16 → identityStatus mfr dev = .unknownDeviceId) ∧
    (identityStatus mfr dev = .ok ↔ mfr = 0xEF ∧ dev = 0x16)

/-! ## The busy gate -/

/-- R148: the gated operations are exactly these eleven of the 32. -/
def Obligations.GatedOperations : Prop :=
  ∀ o : OpName, o.gated = true ↔
    o ∈ [OpName.wire .pageProgram, .wire .sectorErase, .wire .blockErase32K, .wire .blockErase64K, .wire .chipErase,
      .wire .writeSr1, .wire .writeSr2, .wire .writeSr3, .wire .eraseSecurityRegister,
      .wire .programSecurityRegister, .reset]

/-- S4: for every gated wire operation, where bit 0 of the status byte is 1, the trace is the six events of the gate and
nothing else, the response is `BUSY`, and the buffer is as the host handed it over. -/
def Obligations.BusyStopsGatedOperations : Prop :=
  ∀ (s : State) (p : CsId) (i : Instr), s.Ready p → i.wellFormed s.cfg = true → isGated i.op = true →
    (s.answer 1).toNat % 2 = 1 →
    ∃ t, exec i s = .next t ∧
      s.Leaves t [.csLow p, .busBegin .default (busParams s.busCfg .default), .xfer s.cfg.opc.readSr1 (s.answer 0),
        .xfer 0x00 (s.answer 1), .busEnd, .csHigh p] .busy [] (s.handOver i).buf

/-! ## The procedures as a whole -/

/-- R137: the sequencer of R36 and R37 does what the procedure `Exec` says, for every wire operation with every operand,
down to the whole next state. The next state's `answers`, `drawn` (notes/assumptions/4.md) and `busClk`
(notes/assumptions/9.md) are the model's own. -/
def Obligations.SequencerFollowsProcedure : Prop :=
  ∀ (i : Instr) (s : State) (p : CsId), s.Ready p → i.wellFormed s.cfg = true →
    exec i s = .next (s.execFrame p i)

/-- R146, R214, R161: the same for the three compound operations. The same fields are the model's own. The spec's own
decisions here (notes/assumptions/15.md): the two transactions of `RESET` D13; of `INIT` the lone `CsHigh` and the stored
`cs_id` D22, the manufacturer first D21, the frame D40; that `IS_BUSY` leaves `last_status` D19 and D20. `INIT` before a
first `INIT` is `Obligations.Initialize`. -/
def Obligations.CompoundsFollowProcedure : Prop :=
  ∀ (s : State) (p cs : CsId), s.Ready p →
    execIsBusy s = .next (s.execPoll p) ∧ execReset s = .next (s.execResetPair p) ∧
      execInit cs s = .next (s.execIdentify cs)

/-- R52, R246: every well-formed request to an engine that is ready ends quiescent, with one response. -/
def Obligations.RequestsEndQuiescent : Prop :=
  ∀ (r : Request) (s : State) (p : CsId), s.Ready p → r.wellFormed s.cfg = true →
    ∃ t x, execRequest r s = .next t ∧ t.quiescent = true ∧ t.responses = s.responses ++ [x] ∧
      mayAnswer r x = true ∧ t.csId.isSome = true

/-- R242, R64, R65, R275 to R283: no duty of the host is checked. Unless the gate reads busy, every well-formed wire
operation sends its whole frame, the one `encode` gives, and returns `OK`, at every address and every length. -/
def Obligations.HostDutiesUnchecked : Prop :=
  ∀ (i : Instr) (s : State) (p : CsId), s.Ready p → i.wellFormed s.cfg = true →
    (isGated i.op = true → (s.answer 1).getLsbD 0 = false) →
    ∃ t before, exec i s = .next t ∧ t.lastStatus = some .ok ∧
      t.trace = before ++ transaction p s.busCfg (clkOf i.op) (encode s.cfg i)
        ((if isGated i.op then s.consume 2 else s).received (encode s.cfg i).length)

/-- R126: how many transactions a wire operation makes: one, or two where it is gated and the gate reads not busy. -/
def Obligations.TransactionCounts : Prop :=
  ∀ (i : Instr) (s : State) (p : CsId), s.Ready p → i.wellFormed s.cfg = true →
    ∃ t, exec i s = .next t ∧
      transactionsIn t.trace = transactionsIn s.trace +
        (if isGated i.op ∧ (s.answer 1).getLsbD 0 = false then 2 else 1)

/-- R121: the read clock is used by `READ_DATA` and by no other operation, which is the spec's decision D9
(notes/assumptions/15.md). -/
def Obligations.ReadClockOnlyForReadData : Prop :=
  ∀ (i : Instr) (s : State) (p : CsId), s.Ready p → i.wellFormed s.cfg = true →
    ∃ t es, exec i s = .next t ∧ t.trace = s.trace ++ es ∧
      ((∃ params, Event.busBegin .read params ∈ es) ↔ i.op = .readData)

/-- T7 (R140): what a wire operation transmits depends on the device only through bit 0 of the gate's status byte. Two
runs that differ in nothing but the oracle, and agree on that bit, send the same events. -/
def Obligations.TransmitIndependentOfDevice : Prop :=
  ∀ (i : Instr) (s : State) (p : CsId) (answers : List BusAnswer) (drawn : Nat),
    s.Ready p → i.wellFormed s.cfg = true → BusAnswer.never ∉ answers →
    let s' : State := { s with answers := answers, drawn := drawn }
    (isGated i.op = true → (s.answer 1).getLsbD 0 = (s'.answer 1).getLsbD 0) →
    ∃ t t', exec i s = .next t ∧ exec i s' = .next t' ∧ t.trace.map Event.sent = t'.trace.map Event.sent

/-! ## The transfer buffer -/

/-- R49, R135, R136, byte by byte: a read fills index `k` for `k < n` with the byte captured there and leaves every other
index as it was handed over; a write leaves every index; any other operation leaves the engine's buffer alone. -/
def Obligations.BufferFrame : Prop :=
  ∀ (i : Instr) (s : State) (p : CsId), s.Ready p → i.wellFormed s.cfg = true →
    ∃ t, exec i s = .next t ∧
      (i.span? = none → ∀ k, t.buf.read k = s.buf.read k) ∧
      ∀ n b, i.span? = some (n, b) → t.buf.len = b.length ∧
        (dirOf i.op = .write → ∀ k, t.buf.read k = b[k]?) ∧
        (dirOf i.op = .read → ∀ k, t.buf.read k =
          if k < n then some (s.answer (1 + 3 + dummyCount s.cfg i.op + k)) else b[k]?)

/-- R49: a write to the buffer lands at its index and nowhere else, only inside the buffer, and keeps the canonical form
(the form is the model's: notes/assumptions/5.md). -/
def Obligations.BufferWrites : Prop :=
  ∀ (t : TransferBuffer) (i : Nat) (b : Byte), t.wf →
    (i < t.len → ∃ t', t.write i b = some t' ∧ t'.wf ∧ t'.len = t.len ∧
      ∀ j, t'.read j = if j = i then some b else t.read j) ∧
    (t.len ≤ i → t.write i b = none ∧ t.read i = none)

/-! ## Acceptance, stops and the host port -/

/-- R253, R255, R268, R261: which requests are accepted. That an ill-formed one is not is the spec's decision D2, one while
the engine is in the middle of an operation D28, one before `cs_id` has a value D23 (notes/assumptions/15.md). The order in which the three reasons are looked at is the model's
(notes/assumptions/12.md); where one applies there is no next state, so no event and no change. -/
def Obligations.Acceptance : Prop :=
  ∀ (r : Request) (s : State),
    (s.quiescent = false → execRequest r s = .refused .notQuiescent) ∧
    (s.quiescent = true → r.wellFormed s.cfg = false → execRequest r s = .refused .illFormed) ∧
    (s.quiescent = true → r.wellFormed s.cfg = true → (∀ cs, r ≠ .init cs) → s.csId = none →
      execRequest r s = .refused .noChipSelect) ∧
    (s.quiescent = true → r.wellFormed s.cfg = true → (s.csId = none → ∃ cs, r = .init cs) →
      ∃ t, execRequest r s = .next t)

/-- R261: no request ever faults, in any state. -/
def Obligations.NoRequestFaults : Prop :=
  ∀ (r : Request) (s : State) (f : Fault), execRequest r s ≠ .fault f

/-- R14, R124, R258: a byte exchange that the transport never completes, wherever in whichever operation it stands. The
transport completes as many exchanges as `bytes` has bytes, then none. An operation that needs no more runs as it does with
those bytes and nothing after them. One that needs more (a wire operation, `IS_BUSY`, `RESET` or `INIT`; in its gate, its
first or its second transaction) has made the events before that exchange and no other, holds chip-select low and the bus
open, has given no response and recorded no status, is stuck, and accepts nothing. For the first exchange of a wire
operation the events are written out. That the engine's position is the next state of `exec`, and the stuck engine a step
that answers `Refusal.busStalled`, is the model's choice (notes/assumptions/8.md). -/
def Obligations.StalledBus : Prop :=
  (∀ (i : Instr) (s : State) (p : CsId) (rest : List BusAnswer), s.quiescent = true → s.csId = some p →
    i.wellFormed s.cfg = true → s.answers = .never :: rest →
    let clk := if isGated i.op then Clk.default else clkOf i.op
    ∃ t, exec i s = .next t ∧ t.trace = s.trace ++ [.csLow p, .busBegin clk (busParams s.busCfg clk)] ∧
      t.csLevel = .low ∧ t.busOpen = true ∧ t.busClk = some clk ∧ t.responses = s.responses ∧
      t.lastStatus = s.lastStatus ∧ t.csId = s.csId ∧
      step t = .refused .busStalled ∧ ∀ r, execRequest r t = .refused .notQuiescent) ∧
  ∀ (r : Request) (s : State) (bytes : List Byte) (rest : List BusAnswer), s.quiescent = true →
    r.wellFormed s.cfg = true → (s.csId = none → ∃ cs, r = .init cs) →
    s.answers = bytes.map .byte ++ .never :: rest →
    ∃ (t u : State) (es : List Event),
      execRequest r { s with answers := bytes.map .byte } = .next u ∧ u.trace = s.trace ++ es ∧
      execRequest r s = .next t ∧
      if bytes.length < exchangesIn es then
        t.trace = s.trace ++ beforeExchange bytes.length es ∧
          t.csLevel = .low ∧ t.busOpen = true ∧ t.busClk = clockIn (beforeExchange bytes.length es) ∧
          t.responses = s.responses ∧ t.lastStatus = s.lastStatus ∧ t.csId = u.csId ∧ t.busCfg = s.busCfg ∧
          t.cfg = s.cfg ∧ t.port = s.port ∧
          step t = .refused .busStalled ∧ ∀ r', execRequest r' t = .refused .notQuiescent
      else
        t.quiescent = true ∧ t.trace = u.trace ∧ t.responses = u.responses ∧ t.lastStatus = u.lastStatus ∧
          t.csId = u.csId ∧ t.buf = u.buf

/-- R261, R258, R14: from a state with the invariant no step faults. In the middle of an operation there is a next state,
or the engine is stuck: just where it is about to exchange a byte and the transport never completes the exchange. That the
stuck engine's step answers `Refusal.busStalled` is the model's choice (notes/assumptions/8.md). -/
def Obligations.OnlyStalledBusStops : Prop :=
  ∀ s : State, s.Inv →
    (∀ f, step s ≠ .fault f) ∧
    (s.phase ≠ .idle → (∃ t, step s = .next t) ∨ step s = .refused .busStalled) ∧
    (step s = .refused .busStalled ↔ s.awaitsByte ∧ ∃ rest, s.answers = .never :: rest)

/-- R253, R99, R100, R77: an idle engine's step runs the request the host presents, as a record or as the frame the
decoder reads; a sequence that is no frame is refused by name; with nothing presented there is no step. The port, and
that a frame may stand for a request, are the model's (notes/assumptions/6.md). -/
def Obligations.StepRunsRequest : Prop :=
  ∀ (s : State) (rest : List PortItem), s.phase = .idle →
    (∀ r, s.port = .request r :: rest → step s = execRequest r { s with port := rest }) ∧
    (∀ t i, s.port = .frame t :: rest → decode s.cfg t = .ok i → step s = exec i { s with port := rest }) ∧
    (∀ t e, s.port = .frame t :: rest → decode s.cfg t = .error e → step s = .refused (.notAFrame e)) ∧
    (s.port = [] → step s = .refused .noRequest)

/-- The very next step after `withFetchWord` runs the instruction the word stands for (notes/assumptions/7.md: the model's
own). -/
def Obligations.StepRunsWord : Prop :=
  ∀ (s : State) (nbits w : Nat) (i : Instr), s.phase = .idle → decode s.cfg (wordFrame s.cfg nbits w) = .ok i →
    step (s.withFetchWord nbits w) = exec i { s with csId := some (s.csId.getD Config.someCsId) }

/-! ## Events and the sequencer -/

/-- R120: `begin(clk)`, the events and the state they write. Their order is the spec's decision D8
(notes/assumptions/15.md); that they hold the pin and the parameters is the model's (19.md). -/
def Obligations.BeginBracket : Prop :=
  ∀ (s : State) (p : CsId) (clk : Clk), s.csId = some p →
    ∃ u, s.lowerCs = .ok u ∧
      u.openBus clk = { s with csLevel := .low, busOpen := true, busClk := some clk,
                               trace := s.trace ++ [.csLow p, .busBegin clk (busParams s.busCfg clk)] }

/-- R125: `end()`, the events and the state they write, which is all that changes. Their order is the spec's decision D8
(notes/assumptions/15.md); that they hold the pin (19.md), and that `bus_clk` holds no value then (9.md), is the model's. -/
def Obligations.EndBracket : Prop :=
  ∀ (s : State) (p : CsId), s.csId = some p →
    s.closeBus.raiseCs = .ok { s with csLevel := .high, busOpen := false, busClk := none,
                                      trace := s.trace ++ [.busEnd, .csHigh p] }

/-- R37. Acceptance puts the engine at the gate, at the command or, for `INIT`, at `SETUP`. Then each advance is one event.
Inside a transaction it is the event R37 names on the arrow out of the position, and the phase goes to the position that
follows in R37's diagram; a byte the gate reads is its sample. At the end of the gate bit 0 of the sample decides between
`IDLE`, with `BUSY` returned, and `CMD(0)`. At the end of a command the phase goes to `CMD(1)` in `RESET` from `CMD(0)`,
and to `IDLE` otherwise. From `SETUP` it goes to `CMD(0)`. -/
def Obligations.PhaseAdvances : Prop :=
  (∀ (s : State) (r : Call), (s.accept r).phase =
    if r.op = .init then .setup else if r.op.gated then .gate .csLow else .cmd 0 .csLow) ∧
  ∀ s s' : State, s.tick = .ok s' → ∃ e, s'.trace = s.trace ++ [e] ∧
    match s.phase with
    | .idle => False
    | .setup => ∃ cs, s.latch.cs = some cs ∧ e = .csHigh cs ∧ s'.csId = some cs ∧ s'.phase = .cmd 0 .csLow
    | .gate tp =>
      ∀ k, (positions (gateDesc s.cfg))[k]? = some tp →
        s.emitsAt (gateDesc s.cfg) e tp ∧
        (∀ m tx rx, tp = .payload m → e = .xfer tx rx → s'.latch.outputs = s.latch.outputs ++ [rx]) ∧
        match (positions (gateDesc s.cfg))[k + 1]? with
        | some tp' => s'.phase = .gate tp'
        | none => ∃ sample, s.latch.outputs.head? = some sample ∧
          if sample.toNat % 2 = 1 then
            s'.phase = .idle ∧ s'.lastStatus = some .busy ∧ s'.responses = s.responses ++ [.status .busy []]
          else s'.phase = .cmd 0 .csLow ∧ s'.lastStatus = s.lastStatus ∧ s'.responses = s.responses
    | .cmd j tp =>
      ∃ fd, s.commandDesc j = some fd ∧
        ∀ k, (positions fd)[k]? = some tp →
          s.emitsAt fd e tp ∧
          match (positions fd)[k + 1]? with
          | some tp' => s'.phase = .cmd j tp'
          | none => if s.latch.op = some .reset ∧ j = 0 then s'.phase = .cmd 1 .csLow else s'.phase = .idle

/-- R123: a byte is exchanged only with chip-select low and a bus transaction open. -/
def Obligations.NoByteOutsideBracket : Prop :=
  ∀ (s s' : State) (tx rx : Byte), s.Inv → s.tick = .ok s' → s'.trace = s.trace ++ [.xfer tx rx] →
    s.csLevel = .low ∧ s.busOpen = true

/-- R54: the invariant at the constructed state of every configuration. -/
def Obligations.InvariantAtReset : Prop :=
  (∀ (c : Config) (b : BusCfg), (State.constructed c b).Inv) ∧ State.reset.Inv

/-- R54: every step keeps the invariant, from every state that has it, whatever the device answers. -/
def Obligations.StepKeepsInvariant : Prop :=
  ∀ s s' : State, s.Inv → step s = .next s' → s'.Inv

/-- R54 (a) to (d): what the invariant says. For (d): read from the start, the trace has the shape of R122, transaction
after transaction, with a lone `CsHigh` only between two of them, and it stands outside a transaction when idle. -/
def Obligations.InvariantSaysR54 : Prop :=
  ∀ s : State, s.Inv →
    (s.busOpen = true → s.csLevel = .low) ∧
    (s.phase = .idle → s.csLevel = .high ∧ s.busOpen = false) ∧
    (s.csLevel = .low → (∃ tp, s.phase = .gate tp) ∨ ∃ j tp, s.phase = .cmd j tp) ∧
    (∃ b, scan s.cfg .outside s.trace = some b) ∧
    (s.phase = .idle → scan s.cfg .outside s.trace = some .outside ∧ s.quiescent = true)

/-! ## Rules over every step -/

/-- R34, R121: no step changes `bus_cfg` or the configuration, and every `BusBegin` hands over the mode and the bit order
unchanged, with the rate its clock setting selects. -/
def Obligations.BusConfigurationFixed : Prop :=
  ∀ s s' : State, step s = .next s' →
    s'.busCfg = s.busCfg ∧ s'.cfg = s.cfg ∧
    ∃ es, s'.trace = s.trace ++ es ∧ ∀ clk params, Event.busBegin clk params ∈ es →
      params.mode = s.busCfg.mode ∧ params.bitOrder = s.busCfg.bitOrder ∧
        params.rateHz = if clk = .read then s.busCfg.clkReadHz else s.busCfg.clkDefaultHz

/-- R35: only `INIT` changes `cs_id`, and every `CsLow` and `CsHigh` names the pin `cs_id` names. -/
def Obligations.ChipSelectOnlyByInit : Prop :=
  ∀ s s' : State, step s = .next s' →
    (s'.csId ≠ s.csId → s.phase = .setup ∨ (s.phase = .idle ∧ ∃ cs rest, s.port = .request (.init cs) :: rest)) ∧
    ∃ es, s'.trace = s.trace ++ es ∧
      ∀ pin, Event.csLow pin ∈ es ∨ Event.csHigh pin ∈ es → s'.csId = some pin

/-- R33: after a request `last_status` is the code of its response, and what it was where there is none or a Boolean. That it
is written at each return of a status, and not by `IS_BUSY`, is the spec's decision D19 (notes/assumptions/15.md). -/
def Obligations.LastStatusRecordsResponse : Prop :=
  ∀ (r : Request) (s t : State), execRequest r s = .next t →
    ∃ xs, t.responses = s.responses ++ xs ∧ xs.length ≤ 1 ∧ t.lastStatus = statusAfter s.lastStatus xs.head?

/-- R33: no operation reads `last_status`. With another value in it a request runs the same, event for event. -/
def Obligations.LastStatusReadByNothing : Prop :=
  ∀ (r : Request) (s : State) (x : Option StatusCode),
    (∀ why, execRequest r s = .refused why → execRequest r { s with lastStatus := x } = .refused why) ∧
    ∀ t, execRequest r s = .next t → ∃ y, execRequest r { s with lastStatus := x } = .next { t with lastStatus := y }

/-- R240, R243, R245 (T4): `BUSY` comes only from a gated operation, the identity errors only from `INIT`, a Boolean only
from `IS_BUSY`. -/
def Obligations.ResponsesByOperation : Prop :=
  ∀ (r : Request) (s t : State), execRequest r s = .next t →
    ∃ xs, t.responses = s.responses ++ xs ∧ ∀ x ∈ xs, mayAnswer r x = true

/-- R72, R289: nothing is taken back. The trace and the responses only grow, and the port is served in order. -/
def Obligations.TraceOnlyGrows : Prop :=
  ∀ s s' : State, step s = .next s' →
    s.trace <+: s'.trace ∧ s.responses <+: s'.responses ∧ (s'.port = s.port ∨ ∃ item, s.port = item :: s'.port)

/-! ## Engine and device -/

/-- R80: with a device that meets the identity contract, is not working and was seen so, `INIT` answers `OK`, and `READ_JEDEC_ID` returns
`0xEF`, `0x40`, `0x17`. The contract is a premise, over the transactions before and this one. -/
def Obligations.IdentityContractGivesOk : Prop :=
  ∀ (s : State) (d : Device) (before : List Exchange), s.quiescent = true → s.BusCompletes →
    undisturbed s.cfg d before before.length → d.working before.length = false →
    polled s.cfg before.reverse = true →
    (∀ cs : CsId, let xs := before ++ [{ tx := identityFrame s.cfg, rx := s.received 5 }]
      settled s.cfg xs before.length = true → identityContract s.cfg d xs →
      ∃ t, execInit cs s = .next t ∧ t.lastStatus = some .ok ∧ t.responses = s.responses ++ [.status .ok []]) ∧
    ∀ p : CsId, s.csId = some p → let xs := before ++ [{ tx := jedecFrame s.cfg, rx := s.received 4 }]
      settled s.cfg xs before.length = true → identityContract s.cfg d xs →
      ∃ t, exec .readJedecId s = .next t ∧ t.responses = s.responses ++ [.status .ok [0xEF, 0x40, 0x17]]

/-- R83, with S6: after `WRITE_ENABLE`, sent to a device that was not working, `PAGE_PROGRAM` returning `OK`, and `IS_BUSY`
answering false, `READ_DATA` of as many bytes at the same address fills the buffer with the bytes programmed. The
round-trip contract is a premise on the device, and with it that no frame before left its answers open (R84). -/
def Obligations.RoundTrip : Prop :=
  ∀ (s t1 t2 t3 t4 : State) (p : CsId) (a : Address) (b out : List Byte) (d : Device),
    s.Ready p → b.length ≤ out.length →
    insidePage (.pageProgram a b.length b) = true → inRange (.pageProgram a b.length b) = true →
    settled s.cfg s.exchanges s.exchanges.length = true →
    undisturbed s.cfg d s.exchanges s.exchanges.length → d.working s.exchanges.length = false →
    exec .writeEnable s = .next t1 →
    exec (.pageProgram a b.length b) t1 = .next t2 → t2.lastStatus = some .ok →
    execIsBusy t2 = .next t3 → t3.responses.getLast? = some (.boolean false) →
    exec (.readData a b.length out) t3 = .next t4 →
    roundTripContract s.cfg d t4.exchanges →
    ∀ k, k < b.length → t4.buf.read k = b[k]?

/-- R186, with R81: a second mutating operation straight after an `OK` from the first, its work not yet complete, returns
`BUSY` and sends no frame of its own. The busy contract is a premise on the device, and with it that the first frame and
those before were none of R84's cases, nor sent to a working device (its write-enable among them); what such a case is, and which frames start work, are the model's reading
(notes/assumptions/23.md). -/
def Obligations.SecondMutationBusy : Prop :=
  ∀ (s t1 : State) (p : CsId) (i j : Instr) (d : Device),
    s.Ready p → s.cfg.Distinct → i.wellFormed s.cfg = true → j.wellFormed s.cfg = true →
    isGated i.op = true → isGated j.op = true →
    exec i s = .next t1 → t1.lastStatus = some .ok →
    settled s.cfg t1.exchanges t1.exchanges.length = true →
    undisturbed s.cfg d t1.exchanges t1.exchanges.length → d.completes (t1.exchanges.length - 1) = false →
    ∃ t2, exec j t1 = .next t2 ∧
      (BusyContract s.cfg d t2.exchanges → t1.Leaves t2 (t1.gateEvents p) .busy [] (t1.handOver j).buf)
end

