-- ==== Sys2Proof/Laws/Device.lean ====
section
/-! SUPPORT. The trace as the device sees it: a whole transaction adds one exchange of frames (`exchanges_transact`), and what
is supposed of the device before a transaction depends only on the transactions before it (`settled_append`). -/

namespace Sys2Proof.Machine

theorem exchangesOf_append_csLow (p : CsId) (fs : List Event) (es : List Event) : ∀ acc,
    exchangesOf (es ++ .csLow p :: fs) acc = exchangesOf es acc ++ exchangesOf (.csLow p :: fs) acc := by
  induction es with
  | nil => intro acc; rfl
  | cons e es ih => intro acc; cases e <;> simp [exchangesOf, ih]

theorem exchangesOf_xfers (tail : List Event) (t : List Byte) : ∀ (r : List Byte) (acc : Exchange), t.length = r.length →
    exchangesOf (List.zipWith Event.xfer t r ++ tail) acc =
      exchangesOf tail { tx := acc.tx ++ t, rx := acc.rx ++ r } := by
  induction t with
  | nil => intro r acc h; cases r <;> simp_all
  | cons a t ih =>
    intro r acc h
    cases r with
    | nil => simp at h
    | cons b r =>
      simp only [List.zipWith_cons_cons, List.cons_append, exchangesOf]
      rw [ih r _ (by simpa using h)]
      simp

/-- A whole transaction adds one exchange, whatever the trace before it. -/
theorem exchangesOf_transaction (es : List Event) (p : CsId) (b : BusCfg) (clk : Clk) {t r : List Byte}
    (h : t.length = r.length) (ht : t ≠ []) (acc : Exchange) :
    exchangesOf (es ++ transaction p b clk t r) acc = exchangesOf es acc ++ [{ tx := t, rx := r }] := by
  have : transaction p b clk t r = .csLow p :: (.busBegin clk (busParams b clk) ::
      (List.zipWith Event.xfer t r ++ [Event.busEnd, Event.csHigh p])) := by simp [transaction]
  rw [this, exchangesOf_append_csLow]
  simp only [exchangesOf]
  rw [exchangesOf_xfers _ t r _ h]
  simp [exchangesOf, ht]

theorem exchanges_transact (s : State) (p : CsId) (clk : Clk) {t : List Byte} (ht : t ≠ []) :
    (s.transact p clk t).exchanges = s.exchanges ++ [{ tx := t, rx := s.received t.length }] :=
  exchangesOf_transaction _ _ _ _ (by simp [State.received]) ht _

theorem exchanges_handOver (s : State) (i : Instr) : (s.handOver i).exchanges = s.exchanges := by
  unfold State.handOver; split <;> rfl

theorem soundAt_append {c : Config} {xs : List Exchange} (ys : List Exchange) {k : Nat} (h : k < xs.length) :
    soundAt c (xs ++ ys) k = soundAt c xs k := by
  unfold soundAt
  rw [List.getElem?_append_left h, List.take_append_of_le_length (by omega)]

theorem settled_append {c : Config} {xs : List Exchange} (ys : List Exchange) {k : Nat} (h : k ≤ xs.length) :
    settled c (xs ++ ys) k = settled c xs k := by
  unfold settled
  rw [Bool.eq_iff_iff]
  simp only [List.all_eq_true, List.mem_range]
  exact forall₂_congr fun j hj => by rw [soundAt_append ys (by omega)]

theorem settled_of_le {c : Config} {xs : List Exchange} {j k : Nat} (h : settled c xs k = true) (hj : j ≤ k) :
    settled c xs j = true := by
  unfold settled at *
  simp only [List.all_eq_true, List.mem_range] at *
  exact fun m hm => h m (by omega)

theorem undisturbed_append {c : Config} {d : Device} {xs : List Exchange} (ys : List Exchange) {k : Nat}
    (h : k ≤ xs.length) : undisturbed c d (xs ++ ys) k ↔ undisturbed c d xs k :=
  forall₃_congr fun m x hm => by rw [List.getElem?_append_left (by omega)]

end Sys2Proof.Machine
end

