-- ==== Sys2Proof/Laws/Memory.lean ====
section
/-! SUPPORT. The transfer buffer's memory: every operation keeps the canonical form, a read after a write, and equal
contents are equal data. -/

namespace Sys2Proof.Machine

theorem Memory.wf_nil : Memory.wf [] := ⟨.nil, by simp⟩

theorem Memory.wf_tail {e : Host.Cell} {m : Memory} (h : Memory.wf (e :: m)) : Memory.wf m :=
  ⟨h.1.of_cons, fun p hp => h.2 p (List.mem_cons_of_mem _ hp)⟩

/-- Below every listed address, memory reads as unwritten. -/
theorem Memory.read_below {m : Memory} {i : Nat} (h : ∀ p ∈ m, i < p.1) : Memory.read m i = unwrittenByte := by
  induction m with
  | nil => rfl
  | cons e m ih =>
    obtain ⟨a, x⟩ := e
    have ha : i < a := h (a, x) (List.mem_cons_self ..)
    have hne : i ≠ a := by omega
    rw [Memory.read, if_neg hne]
    exact ih (fun p hp => h p (List.mem_cons_of_mem _ hp))

/-- In canonical form every address above the first one's is above it. -/
theorem Memory.head_lt {e : Host.Cell} {m : Memory} (h : Memory.wf (e :: m)) : ∀ p ∈ m, e.1 < p.1 :=
  (List.pairwise_cons.mp h.1).1

theorem Memory.mem_write {m : Memory} {i : Nat} {b : Byte} {p : Host.Cell} (h : p ∈ Memory.write m i b) :
    p ∈ m ∨ (p = (i, b) ∧ b ≠ unwrittenByte) := by
  induction m with
  | nil => by_cases hb : b = unwrittenByte <;> simp_all [Memory.write]
  | cons e m ih =>
    obtain ⟨a, x⟩ := e
    rw [Memory.write] at h
    split at h
    · split at h
      · exact .inl h
      · rcases List.mem_cons.mp h with h | h
        · exact .inr ⟨h, ‹_›⟩
        · exact .inl h
    · split at h
      · split at h
        · exact .inl (List.mem_cons_of_mem _ h)
        · rcases List.mem_cons.mp h with h | h
          · exact .inr ⟨h, ‹_›⟩
          · exact .inl (List.mem_cons_of_mem _ h)
      · rcases List.mem_cons.mp h with h | h
        · exact .inl (h ▸ List.mem_cons_self ..)
        · rcases ih h with h | h
          · exact .inl (List.mem_cons_of_mem _ h)
          · exact .inr h

/-- A write keeps the canonical form. -/
theorem Memory.wf_write {m : Memory} (h : Memory.wf m) (i : Nat) (b : Byte) : Memory.wf (Memory.write m i b) := by
  induction m with
  | nil => by_cases hb : b = unwrittenByte <;> simp [Memory.write, hb, Memory.wf]
  | cons e m ih =>
    obtain ⟨a, x⟩ := e
    have hlt := Memory.head_lt h
    have hx : x ≠ unwrittenByte := h.2 (a, x) (List.mem_cons_self ..)
    rw [Memory.write]
    split
    · split
      · exact h
      · refine ⟨List.pairwise_cons.mpr ⟨?_, h.1⟩, ?_⟩
        · intro p hp
          rcases List.mem_cons.mp hp with rfl | hp
          · assumption
          · exact Nat.lt_trans ‹_› (hlt p hp)
        · intro p hp
          rcases List.mem_cons.mp hp with rfl | hp
          · assumption
          · exact h.2 p hp
    · split
      · rename_i hia
        split
        · exact Memory.wf_tail h
        · refine ⟨List.pairwise_cons.mpr ⟨?_, h.1.of_cons⟩, ?_⟩
          · intro p hp
            exact hia ▸ hlt p hp
          · intro p hp
            rcases List.mem_cons.mp hp with rfl | hp
            · assumption
            · exact (Memory.wf_tail h).2 p hp
      · have ih' := ih (Memory.wf_tail h)
        refine ⟨List.pairwise_cons.mpr ⟨?_, ih'.1⟩, ?_⟩
        · intro p hp
          rcases Memory.mem_write hp with hp | ⟨rfl, -⟩
          · exact hlt p hp
          · show a < i
            omega
        · intro p hp
          rcases List.mem_cons.mp hp with rfl | hp
          · exact hx
          · exact ih'.2 p hp

/-- A read after a write. -/
theorem Memory.read_write {m : Memory} (h : Memory.wf m) (i j : Nat) (b : Byte) :
    Memory.read (Memory.write m i b) j = if j = i then b else Memory.read m j := by
  induction m with
  | nil =>
    by_cases hb : b = unwrittenByte
    · simp [Memory.write, hb, Memory.read]
    · by_cases hj : j = i <;> simp [Memory.write, hb, Memory.read, hj]
  | cons e m ih =>
    obtain ⟨a, x⟩ := e
    have hlt := Memory.head_lt h
    have below : ∀ k, k < a → Memory.read ((a, x) :: m) k = unwrittenByte := fun k hk =>
      Memory.read_below (fun p hp => by
        rcases List.mem_cons.mp hp with rfl | hp
        · exact hk
        · exact Nat.lt_trans hk (hlt p hp))
    rw [Memory.write]
    split
    · rename_i hia
      split
      · rename_i hb
        by_cases hj : j = i
        · rw [if_pos hj, hj, below i hia, hb]
        · rw [if_neg hj]
      · rw [Memory.read]
    · split
      · rename_i hia
        subst hia
        split
        · rename_i hb
          by_cases hj : j = i
          · rw [if_pos hj, hj, Memory.read_below hlt, hb]
          · rw [if_neg hj, Memory.read, if_neg hj]
        · by_cases hj : j = i <;> simp [Memory.read, hj]
      · rename_i hia
        rw [Memory.read, ih (Memory.wf_tail h), Memory.read]
        by_cases hja : j = a
        · rw [if_pos hja, if_neg (by omega), if_pos hja]
        · rw [if_neg hja, if_neg hja]

/-- Equal contents are equal data. -/
theorem Memory.ext {m m' : Memory} (h : Memory.wf m) (h' : Memory.wf m')
    (heq : ∀ i, Memory.read m i = Memory.read m' i) : m = m' := by
  induction m generalizing m' with
  | nil =>
    cases m' with
    | nil => rfl
    | cons e m' =>
      have := heq e.1
      simp [Memory.read] at this
      exact absurd this.symm (h'.2 e (List.mem_cons_self ..))
  | cons e m ih =>
    cases m' with
    | nil =>
      have := heq e.1
      simp [Memory.read] at this
      exact absurd this (h.2 e (List.mem_cons_self ..))
    | cons e' m' =>
      obtain ⟨a, x⟩ := e
      obtain ⟨a', x'⟩ := e'
      have hx : x ≠ unwrittenByte := h.2 (a, x) (List.mem_cons_self ..)
      have hx' : x' ≠ unwrittenByte := h'.2 (a', x') (List.mem_cons_self ..)
      have hlt := Memory.head_lt h
      have hlt' := Memory.head_lt h'
      have haa : a = a' := by
        rcases Nat.lt_trichotomy a a' with hl | hl | hl
        · have h1 := heq a
          have h2 : Memory.read ((a', x') :: m') a = unwrittenByte := Memory.read_below (fun p hp => by
            rcases List.mem_cons.mp hp with rfl | hp
            · exact hl
            · exact Nat.lt_trans hl (hlt' p hp))
          rw [h2, Memory.read, if_pos rfl] at h1
          exact absurd h1 hx
        · exact hl
        · have h1 := heq a'
          have h2 : Memory.read ((a, x) :: m) a' = unwrittenByte := Memory.read_below (fun p hp => by
            rcases List.mem_cons.mp hp with rfl | hp
            · exact hl
            · exact Nat.lt_trans hl (hlt p hp))
          rw [h2, Memory.read, if_pos rfl] at h1
          exact absurd h1.symm hx'
      subst haa
      have hxx : x = x' := by simpa [Memory.read] using heq a
      subst hxx
      have : m = m' := by
        refine ih (Memory.wf_tail h) (Memory.wf_tail h') (fun i => ?_)
        by_cases hi : i = a
        · subst hi
          rw [Memory.read_below hlt, Memory.read_below hlt']
        · have := heq i
          simpa [Memory.read, hi] using this
      rw [this]

theorem Memory.ofBytes_ge {k : Nat} {bs : List Byte} : ∀ p ∈ Memory.ofBytes k bs, k ≤ p.1 := by
  induction bs generalizing k with
  | nil => simp [Memory.ofBytes]
  | cons b bs ih =>
    intro p hp
    rw [Memory.ofBytes] at hp
    split at hp
    · exact Nat.le_of_succ_le (ih p hp)
    · rcases List.mem_cons.mp hp with rfl | hp
      · exact Nat.le_refl _
      · exact Nat.le_of_succ_le (ih p hp)

theorem Memory.ofBytes_lt {k : Nat} {bs : List Byte} : ∀ p ∈ Memory.ofBytes k bs, p.1 < k + bs.length := by
  induction bs generalizing k with
  | nil => simp [Memory.ofBytes]
  | cons b bs ih =>
    intro p hp
    rw [Memory.ofBytes] at hp
    have step : ∀ p ∈ Memory.ofBytes (k + 1) bs, p.1 < k + (b :: bs).length := fun p hp => by
      have := ih p hp
      simp only [List.length_cons]
      omega
    split at hp
    · exact step p hp
    · rcases List.mem_cons.mp hp with rfl | hp
      · simp
      · exact step p hp

theorem Memory.wf_ofBytes (k : Nat) (bs : List Byte) : Memory.wf (Memory.ofBytes k bs) := by
  induction bs generalizing k with
  | nil => exact Memory.wf_nil
  | cons b bs ih =>
    rw [Memory.ofBytes]
    split
    · exact ih _
    · refine ⟨List.pairwise_cons.mpr ⟨?_, (ih _).1⟩, ?_⟩
      · intro p hp
        exact Nat.lt_of_succ_le (Memory.ofBytes_ge p hp)
      · intro p hp
        rcases List.mem_cons.mp hp with rfl | hp
        · assumption
        · exact (ih _).2 p hp

theorem Memory.read_ofBytes (k i : Nat) (bs : List Byte) :
    Memory.read (Memory.ofBytes k bs) (k + i) = bs[i]?.getD unwrittenByte := by
  induction bs generalizing k i with
  | nil => simp [Memory.ofBytes, Memory.read]
  | cons b bs ih =>
    have tail : ∀ i, Memory.read (Memory.ofBytes (k + 1) bs) (k + (i + 1)) = bs[i]?.getD unwrittenByte := fun i => by
      rw [show k + (i + 1) = k + 1 + i by omega]
      exact ih (k + 1) i
    rw [Memory.ofBytes]
    cases i with
    | zero =>
      split
      · rename_i hb
        simp only [Nat.add_zero, List.getElem?_cons_zero, Option.getD_some, hb]
        exact Memory.read_below (fun p hp => Nat.lt_of_succ_le (Memory.ofBytes_ge p hp))
      · simp [Memory.read]
    | succ i =>
      split
      · simpa using tail i
      · rw [Memory.read, if_neg (by omega)]
        simpa using tail i

/-- Writing inside a loaded buffer is loading the changed buffer. -/
theorem Memory.write_ofBytes (bs : List Byte) {i : Nat} (h : i < bs.length) (b : Byte) :
    Memory.write (Memory.ofBytes 0 bs) i b = Memory.ofBytes 0 (bs.set i b) := by
  refine Memory.ext (Memory.wf_write (Memory.wf_ofBytes ..) ..) (Memory.wf_ofBytes ..) (fun j => ?_)
  have r := Memory.read_ofBytes 0 j bs
  have r' := Memory.read_ofBytes 0 j (bs.set i b)
  rw [Nat.zero_add] at r r'
  rw [Memory.read_write (Memory.wf_ofBytes ..), r, r']
  by_cases hj : j = i
  · subst hj
    simp [h]
  · simp [hj, List.getElem?_set_ne (Ne.symm hj)]

/-! ## The transfer buffer -/

theorem TransferBuffer.read_ofBytes (bs : List Byte) {i : Nat} (h : i < bs.length) :
    (TransferBuffer.ofBytes bs).read i = some (bs[i]) := by
  have r := Memory.read_ofBytes 0 i bs
  rw [Nat.zero_add] at r
  simp [TransferBuffer.read, TransferBuffer.ofBytes, h, r]

theorem TransferBuffer.write_ofBytes (bs : List Byte) {i : Nat} (h : i < bs.length) (b : Byte) :
    (TransferBuffer.ofBytes bs).write i b = some (TransferBuffer.ofBytes (bs.set i b)) := by
  simp [TransferBuffer.write, TransferBuffer.ofBytes, h, Memory.write_ofBytes]

/-- Reading back a loaded buffer. -/
theorem TransferBuffer.bytes_ofBytes (bs : List Byte) : (TransferBuffer.ofBytes bs).bytes = bs := by
  refine List.ext_getElem (by simp [TransferBuffer.bytes, TransferBuffer.ofBytes]) (fun i h₁ h₂ => ?_)
  have r := Memory.read_ofBytes 0 i bs
  rw [Nat.zero_add] at r
  simp [TransferBuffer.bytes, TransferBuffer.ofBytes, r, h₂]

end Sys2Proof.Machine
end

