-- ==== Sys2Proof/Laws/State.lean ====
section
/-! SUPPORT. One lemma for each field of the state and each update of it, true by definition, and how the updates
commute: an update that leaves the oracle and the trace alone moves out of the exchanges. -/

namespace Sys2Proof.Machine

/-- The exchanges of the bytes `t`, nothing else changed. -/
def State.exchange (s : State) (t : List Byte) : State :=
  { s.consume t.length with trace := s.trace ++ List.zipWith Event.xfer t (s.received t.length) }

@[simp] theorem State.emit_cfg (s : State) (e : Event) : (s.emit e).cfg = s.cfg := rfl
@[simp] theorem State.emit_csId (s : State) (e : Event) : (s.emit e).csId = s.csId := rfl
@[simp] theorem State.emit_busCfg (s : State) (e : Event) : (s.emit e).busCfg = s.busCfg := rfl
@[simp] theorem State.emit_lastStatus (s : State) (e : Event) : (s.emit e).lastStatus = s.lastStatus := rfl
@[simp] theorem State.emit_phase (s : State) (e : Event) : (s.emit e).phase = s.phase := rfl
@[simp] theorem State.emit_latch (s : State) (e : Event) : (s.emit e).latch = s.latch := rfl
@[simp] theorem State.emit_csLevel (s : State) (e : Event) : (s.emit e).csLevel = s.csLevel := rfl
@[simp] theorem State.emit_busOpen (s : State) (e : Event) : (s.emit e).busOpen = s.busOpen := rfl
@[simp] theorem State.emit_busClk (s : State) (e : Event) : (s.emit e).busClk = s.busClk := rfl
@[simp] theorem State.emit_buf (s : State) (e : Event) : (s.emit e).buf = s.buf := rfl
@[simp] theorem State.emit_answers (s : State) (e : Event) : (s.emit e).answers = s.answers := rfl
@[simp] theorem State.emit_drawn (s : State) (e : Event) : (s.emit e).drawn = s.drawn := rfl
@[simp] theorem State.emit_port (s : State) (e : Event) : (s.emit e).port = s.port := rfl
@[simp] theorem State.emit_trace (s : State) (e : Event) : (s.emit e).trace = s.trace ++ [e] := rfl
@[simp] theorem State.emit_responses (s : State) (e : Event) : (s.emit e).responses = s.responses := rfl

@[simp] theorem State.goto_cfg (s : State) (ph : Phase) : (s.goto ph).cfg = s.cfg := rfl
@[simp] theorem State.goto_csId (s : State) (ph : Phase) : (s.goto ph).csId = s.csId := rfl
@[simp] theorem State.goto_busCfg (s : State) (ph : Phase) : (s.goto ph).busCfg = s.busCfg := rfl
@[simp] theorem State.goto_lastStatus (s : State) (ph : Phase) : (s.goto ph).lastStatus = s.lastStatus := rfl
@[simp] theorem State.goto_phase (s : State) (ph : Phase) : (s.goto ph).phase = ph := rfl
@[simp] theorem State.goto_latch (s : State) (ph : Phase) : (s.goto ph).latch = s.latch := rfl
@[simp] theorem State.goto_csLevel (s : State) (ph : Phase) : (s.goto ph).csLevel = s.csLevel := rfl
@[simp] theorem State.goto_busOpen (s : State) (ph : Phase) : (s.goto ph).busOpen = s.busOpen := rfl
@[simp] theorem State.goto_busClk (s : State) (ph : Phase) : (s.goto ph).busClk = s.busClk := rfl
@[simp] theorem State.goto_buf (s : State) (ph : Phase) : (s.goto ph).buf = s.buf := rfl
@[simp] theorem State.goto_answers (s : State) (ph : Phase) : (s.goto ph).answers = s.answers := rfl
@[simp] theorem State.goto_drawn (s : State) (ph : Phase) : (s.goto ph).drawn = s.drawn := rfl
@[simp] theorem State.goto_port (s : State) (ph : Phase) : (s.goto ph).port = s.port := rfl
@[simp] theorem State.goto_trace (s : State) (ph : Phase) : (s.goto ph).trace = s.trace := rfl
@[simp] theorem State.goto_responses (s : State) (ph : Phase) : (s.goto ph).responses = s.responses := rfl

@[simp] theorem State.setCs_cfg (s : State) (l : CsLevel) : (s.setCs l).cfg = s.cfg := rfl
@[simp] theorem State.setCs_csId (s : State) (l : CsLevel) : (s.setCs l).csId = s.csId := rfl
@[simp] theorem State.setCs_busCfg (s : State) (l : CsLevel) : (s.setCs l).busCfg = s.busCfg := rfl
@[simp] theorem State.setCs_lastStatus (s : State) (l : CsLevel) : (s.setCs l).lastStatus = s.lastStatus := rfl
@[simp] theorem State.setCs_phase (s : State) (l : CsLevel) : (s.setCs l).phase = s.phase := rfl
@[simp] theorem State.setCs_latch (s : State) (l : CsLevel) : (s.setCs l).latch = s.latch := rfl
@[simp] theorem State.setCs_csLevel (s : State) (l : CsLevel) : (s.setCs l).csLevel = l := rfl
@[simp] theorem State.setCs_busOpen (s : State) (l : CsLevel) : (s.setCs l).busOpen = s.busOpen := rfl
@[simp] theorem State.setCs_busClk (s : State) (l : CsLevel) : (s.setCs l).busClk = s.busClk := rfl
@[simp] theorem State.setCs_buf (s : State) (l : CsLevel) : (s.setCs l).buf = s.buf := rfl
@[simp] theorem State.setCs_answers (s : State) (l : CsLevel) : (s.setCs l).answers = s.answers := rfl
@[simp] theorem State.setCs_drawn (s : State) (l : CsLevel) : (s.setCs l).drawn = s.drawn := rfl
@[simp] theorem State.setCs_port (s : State) (l : CsLevel) : (s.setCs l).port = s.port := rfl
@[simp] theorem State.setCs_trace (s : State) (l : CsLevel) : (s.setCs l).trace = s.trace := rfl
@[simp] theorem State.setCs_responses (s : State) (l : CsLevel) : (s.setCs l).responses = s.responses := rfl

@[simp] theorem State.setCsId_cfg (s : State) (cs : CsId) : (s.setCsId cs).cfg = s.cfg := rfl
@[simp] theorem State.setCsId_csId (s : State) (cs : CsId) : (s.setCsId cs).csId = some cs := rfl
@[simp] theorem State.setCsId_busCfg (s : State) (cs : CsId) : (s.setCsId cs).busCfg = s.busCfg := rfl
@[simp] theorem State.setCsId_lastStatus (s : State) (cs : CsId) : (s.setCsId cs).lastStatus = s.lastStatus := rfl
@[simp] theorem State.setCsId_phase (s : State) (cs : CsId) : (s.setCsId cs).phase = s.phase := rfl
@[simp] theorem State.setCsId_latch (s : State) (cs : CsId) : (s.setCsId cs).latch = s.latch := rfl
@[simp] theorem State.setCsId_csLevel (s : State) (cs : CsId) : (s.setCsId cs).csLevel = s.csLevel := rfl
@[simp] theorem State.setCsId_busOpen (s : State) (cs : CsId) : (s.setCsId cs).busOpen = s.busOpen := rfl
@[simp] theorem State.setCsId_busClk (s : State) (cs : CsId) : (s.setCsId cs).busClk = s.busClk := rfl
@[simp] theorem State.setCsId_buf (s : State) (cs : CsId) : (s.setCsId cs).buf = s.buf := rfl
@[simp] theorem State.setCsId_answers (s : State) (cs : CsId) : (s.setCsId cs).answers = s.answers := rfl
@[simp] theorem State.setCsId_drawn (s : State) (cs : CsId) : (s.setCsId cs).drawn = s.drawn := rfl
@[simp] theorem State.setCsId_port (s : State) (cs : CsId) : (s.setCsId cs).port = s.port := rfl
@[simp] theorem State.setCsId_trace (s : State) (cs : CsId) : (s.setCsId cs).trace = s.trace := rfl
@[simp] theorem State.setCsId_responses (s : State) (cs : CsId) : (s.setCsId cs).responses = s.responses := rfl

@[simp] theorem State.setOutputs_cfg (s : State) (o : List Byte) : (s.setOutputs o).cfg = s.cfg := rfl
@[simp] theorem State.setOutputs_csId (s : State) (o : List Byte) : (s.setOutputs o).csId = s.csId := rfl
@[simp] theorem State.setOutputs_busCfg (s : State) (o : List Byte) : (s.setOutputs o).busCfg = s.busCfg := rfl
@[simp] theorem State.setOutputs_lastStatus (s : State) (o : List Byte) : (s.setOutputs o).lastStatus = s.lastStatus := rfl
@[simp] theorem State.setOutputs_phase (s : State) (o : List Byte) : (s.setOutputs o).phase = s.phase := rfl
@[simp] theorem State.setOutputs_latch (s : State) (o : List Byte) : (s.setOutputs o).latch = { s.latch with outputs := o } := rfl
@[simp] theorem State.setOutputs_csLevel (s : State) (o : List Byte) : (s.setOutputs o).csLevel = s.csLevel := rfl
@[simp] theorem State.setOutputs_busOpen (s : State) (o : List Byte) : (s.setOutputs o).busOpen = s.busOpen := rfl
@[simp] theorem State.setOutputs_busClk (s : State) (o : List Byte) : (s.setOutputs o).busClk = s.busClk := rfl
@[simp] theorem State.setOutputs_buf (s : State) (o : List Byte) : (s.setOutputs o).buf = s.buf := rfl
@[simp] theorem State.setOutputs_answers (s : State) (o : List Byte) : (s.setOutputs o).answers = s.answers := rfl
@[simp] theorem State.setOutputs_drawn (s : State) (o : List Byte) : (s.setOutputs o).drawn = s.drawn := rfl
@[simp] theorem State.setOutputs_port (s : State) (o : List Byte) : (s.setOutputs o).port = s.port := rfl
@[simp] theorem State.setOutputs_trace (s : State) (o : List Byte) : (s.setOutputs o).trace = s.trace := rfl
@[simp] theorem State.setOutputs_responses (s : State) (o : List Byte) : (s.setOutputs o).responses = s.responses := rfl

@[simp] theorem State.setBuf_cfg (s : State) (t : TransferBuffer) : (s.setBuf t).cfg = s.cfg := rfl
@[simp] theorem State.setBuf_csId (s : State) (t : TransferBuffer) : (s.setBuf t).csId = s.csId := rfl
@[simp] theorem State.setBuf_busCfg (s : State) (t : TransferBuffer) : (s.setBuf t).busCfg = s.busCfg := rfl
@[simp] theorem State.setBuf_lastStatus (s : State) (t : TransferBuffer) : (s.setBuf t).lastStatus = s.lastStatus := rfl
@[simp] theorem State.setBuf_phase (s : State) (t : TransferBuffer) : (s.setBuf t).phase = s.phase := rfl
@[simp] theorem State.setBuf_latch (s : State) (t : TransferBuffer) : (s.setBuf t).latch = s.latch := rfl
@[simp] theorem State.setBuf_csLevel (s : State) (t : TransferBuffer) : (s.setBuf t).csLevel = s.csLevel := rfl
@[simp] theorem State.setBuf_busOpen (s : State) (t : TransferBuffer) : (s.setBuf t).busOpen = s.busOpen := rfl
@[simp] theorem State.setBuf_busClk (s : State) (t : TransferBuffer) : (s.setBuf t).busClk = s.busClk := rfl
@[simp] theorem State.setBuf_buf (s : State) (t : TransferBuffer) : (s.setBuf t).buf = t := rfl
@[simp] theorem State.setBuf_answers (s : State) (t : TransferBuffer) : (s.setBuf t).answers = s.answers := rfl
@[simp] theorem State.setBuf_drawn (s : State) (t : TransferBuffer) : (s.setBuf t).drawn = s.drawn := rfl
@[simp] theorem State.setBuf_port (s : State) (t : TransferBuffer) : (s.setBuf t).port = s.port := rfl
@[simp] theorem State.setBuf_trace (s : State) (t : TransferBuffer) : (s.setBuf t).trace = s.trace := rfl
@[simp] theorem State.setBuf_responses (s : State) (t : TransferBuffer) : (s.setBuf t).responses = s.responses := rfl

@[simp] theorem State.openBus_cfg (s : State) (clk : Clk) : (s.openBus clk).cfg = s.cfg := rfl
@[simp] theorem State.openBus_csId (s : State) (clk : Clk) : (s.openBus clk).csId = s.csId := rfl
@[simp] theorem State.openBus_busCfg (s : State) (clk : Clk) : (s.openBus clk).busCfg = s.busCfg := rfl
@[simp] theorem State.openBus_lastStatus (s : State) (clk : Clk) : (s.openBus clk).lastStatus = s.lastStatus := rfl
@[simp] theorem State.openBus_phase (s : State) (clk : Clk) : (s.openBus clk).phase = s.phase := rfl
@[simp] theorem State.openBus_latch (s : State) (clk : Clk) : (s.openBus clk).latch = s.latch := rfl
@[simp] theorem State.openBus_csLevel (s : State) (clk : Clk) : (s.openBus clk).csLevel = s.csLevel := rfl
@[simp] theorem State.openBus_busOpen (s : State) (clk : Clk) : (s.openBus clk).busOpen = true := rfl
@[simp] theorem State.openBus_busClk (s : State) (clk : Clk) : (s.openBus clk).busClk = some clk := rfl
@[simp] theorem State.openBus_buf (s : State) (clk : Clk) : (s.openBus clk).buf = s.buf := rfl
@[simp] theorem State.openBus_answers (s : State) (clk : Clk) : (s.openBus clk).answers = s.answers := rfl
@[simp] theorem State.openBus_drawn (s : State) (clk : Clk) : (s.openBus clk).drawn = s.drawn := rfl
@[simp] theorem State.openBus_port (s : State) (clk : Clk) : (s.openBus clk).port = s.port := rfl
@[simp] theorem State.openBus_trace (s : State) (clk : Clk) : (s.openBus clk).trace = s.trace ++ [.busBegin clk (busParams s.busCfg clk)] := rfl
@[simp] theorem State.openBus_responses (s : State) (clk : Clk) : (s.openBus clk).responses = s.responses := rfl

@[simp] theorem State.closeBus_cfg (s : State) : (s.closeBus).cfg = s.cfg := rfl
@[simp] theorem State.closeBus_csId (s : State) : (s.closeBus).csId = s.csId := rfl
@[simp] theorem State.closeBus_busCfg (s : State) : (s.closeBus).busCfg = s.busCfg := rfl
@[simp] theorem State.closeBus_lastStatus (s : State) : (s.closeBus).lastStatus = s.lastStatus := rfl
@[simp] theorem State.closeBus_phase (s : State) : (s.closeBus).phase = s.phase := rfl
@[simp] theorem State.closeBus_latch (s : State) : (s.closeBus).latch = s.latch := rfl
@[simp] theorem State.closeBus_csLevel (s : State) : (s.closeBus).csLevel = s.csLevel := rfl
@[simp] theorem State.closeBus_busOpen (s : State) : (s.closeBus).busOpen = false := rfl
@[simp] theorem State.closeBus_busClk (s : State) : (s.closeBus).busClk = none := rfl
@[simp] theorem State.closeBus_buf (s : State) : (s.closeBus).buf = s.buf := rfl
@[simp] theorem State.closeBus_answers (s : State) : (s.closeBus).answers = s.answers := rfl
@[simp] theorem State.closeBus_drawn (s : State) : (s.closeBus).drawn = s.drawn := rfl
@[simp] theorem State.closeBus_port (s : State) : (s.closeBus).port = s.port := rfl
@[simp] theorem State.closeBus_trace (s : State) : (s.closeBus).trace = s.trace ++ [.busEnd] := rfl
@[simp] theorem State.closeBus_responses (s : State) : (s.closeBus).responses = s.responses := rfl

@[simp] theorem State.respond_cfg (s : State) (r : Response) : (s.respond r).cfg = s.cfg := rfl
@[simp] theorem State.respond_csId (s : State) (r : Response) : (s.respond r).csId = s.csId := rfl
@[simp] theorem State.respond_busCfg (s : State) (r : Response) : (s.respond r).busCfg = s.busCfg := rfl
@[simp] theorem State.respond_lastStatus (s : State) (r : Response) : (s.respond r).lastStatus = s.lastStatus := rfl
@[simp] theorem State.respond_phase (s : State) (r : Response) : (s.respond r).phase = .idle := rfl
@[simp] theorem State.respond_latch (s : State) (r : Response) : (s.respond r).latch = Latches.empty := rfl
@[simp] theorem State.respond_csLevel (s : State) (r : Response) : (s.respond r).csLevel = s.csLevel := rfl
@[simp] theorem State.respond_busOpen (s : State) (r : Response) : (s.respond r).busOpen = s.busOpen := rfl
@[simp] theorem State.respond_busClk (s : State) (r : Response) : (s.respond r).busClk = s.busClk := rfl
@[simp] theorem State.respond_buf (s : State) (r : Response) : (s.respond r).buf = s.buf := rfl
@[simp] theorem State.respond_answers (s : State) (r : Response) : (s.respond r).answers = s.answers := rfl
@[simp] theorem State.respond_drawn (s : State) (r : Response) : (s.respond r).drawn = s.drawn := rfl
@[simp] theorem State.respond_port (s : State) (r : Response) : (s.respond r).port = s.port := rfl
@[simp] theorem State.respond_trace (s : State) (r : Response) : (s.respond r).trace = s.trace := rfl
@[simp] theorem State.respond_responses (s : State) (r : Response) : (s.respond r).responses = s.responses ++ [r] := rfl

@[simp] theorem State.returnStatus_cfg (s : State) (code : StatusCode) (data : List Byte) : (s.returnStatus code data).cfg = s.cfg := rfl
@[simp] theorem State.returnStatus_csId (s : State) (code : StatusCode) (data : List Byte) : (s.returnStatus code data).csId = s.csId := rfl
@[simp] theorem State.returnStatus_busCfg (s : State) (code : StatusCode) (data : List Byte) : (s.returnStatus code data).busCfg = s.busCfg := rfl
@[simp] theorem State.returnStatus_lastStatus (s : State) (code : StatusCode) (data : List Byte) : (s.returnStatus code data).lastStatus = some code := rfl
@[simp] theorem State.returnStatus_phase (s : State) (code : StatusCode) (data : List Byte) : (s.returnStatus code data).phase = .idle := rfl
@[simp] theorem State.returnStatus_latch (s : State) (code : StatusCode) (data : List Byte) : (s.returnStatus code data).latch = Latches.empty := rfl
@[simp] theorem State.returnStatus_csLevel (s : State) (code : StatusCode) (data : List Byte) : (s.returnStatus code data).csLevel = s.csLevel := rfl
@[simp] theorem State.returnStatus_busOpen (s : State) (code : StatusCode) (data : List Byte) : (s.returnStatus code data).busOpen = s.busOpen := rfl
@[simp] theorem State.returnStatus_busClk (s : State) (code : StatusCode) (data : List Byte) : (s.returnStatus code data).busClk = s.busClk := rfl
@[simp] theorem State.returnStatus_buf (s : State) (code : StatusCode) (data : List Byte) : (s.returnStatus code data).buf = s.buf := rfl
@[simp] theorem State.returnStatus_answers (s : State) (code : StatusCode) (data : List Byte) : (s.returnStatus code data).answers = s.answers := rfl
@[simp] theorem State.returnStatus_drawn (s : State) (code : StatusCode) (data : List Byte) : (s.returnStatus code data).drawn = s.drawn := rfl
@[simp] theorem State.returnStatus_port (s : State) (code : StatusCode) (data : List Byte) : (s.returnStatus code data).port = s.port := rfl
@[simp] theorem State.returnStatus_trace (s : State) (code : StatusCode) (data : List Byte) : (s.returnStatus code data).trace = s.trace := rfl
@[simp] theorem State.returnStatus_responses (s : State) (code : StatusCode) (data : List Byte) : (s.returnStatus code data).responses = s.responses ++ [.status code data] := rfl

@[simp] theorem State.consume_cfg (s : State) (k : Nat) : (s.consume k).cfg = s.cfg := rfl
@[simp] theorem State.consume_csId (s : State) (k : Nat) : (s.consume k).csId = s.csId := rfl
@[simp] theorem State.consume_busCfg (s : State) (k : Nat) : (s.consume k).busCfg = s.busCfg := rfl
@[simp] theorem State.consume_lastStatus (s : State) (k : Nat) : (s.consume k).lastStatus = s.lastStatus := rfl
@[simp] theorem State.consume_phase (s : State) (k : Nat) : (s.consume k).phase = s.phase := rfl
@[simp] theorem State.consume_latch (s : State) (k : Nat) : (s.consume k).latch = s.latch := rfl
@[simp] theorem State.consume_csLevel (s : State) (k : Nat) : (s.consume k).csLevel = s.csLevel := rfl
@[simp] theorem State.consume_busOpen (s : State) (k : Nat) : (s.consume k).busOpen = s.busOpen := rfl
@[simp] theorem State.consume_busClk (s : State) (k : Nat) : (s.consume k).busClk = s.busClk := rfl
@[simp] theorem State.consume_buf (s : State) (k : Nat) : (s.consume k).buf = s.buf := rfl
@[simp] theorem State.consume_answers (s : State) (k : Nat) : (s.consume k).answers = s.answers.drop k := rfl
@[simp] theorem State.consume_drawn (s : State) (k : Nat) : (s.consume k).drawn = s.drawn + (k - s.answers.length) := rfl
@[simp] theorem State.consume_port (s : State) (k : Nat) : (s.consume k).port = s.port := rfl
@[simp] theorem State.consume_trace (s : State) (k : Nat) : (s.consume k).trace = s.trace := rfl
@[simp] theorem State.consume_responses (s : State) (k : Nat) : (s.consume k).responses = s.responses := rfl

@[simp] theorem State.exchange_cfg (s : State) (t : List Byte) : (s.exchange t).cfg = s.cfg := rfl
@[simp] theorem State.exchange_csId (s : State) (t : List Byte) : (s.exchange t).csId = s.csId := rfl
@[simp] theorem State.exchange_busCfg (s : State) (t : List Byte) : (s.exchange t).busCfg = s.busCfg := rfl
@[simp] theorem State.exchange_lastStatus (s : State) (t : List Byte) : (s.exchange t).lastStatus = s.lastStatus := rfl
@[simp] theorem State.exchange_phase (s : State) (t : List Byte) : (s.exchange t).phase = s.phase := rfl
@[simp] theorem State.exchange_latch (s : State) (t : List Byte) : (s.exchange t).latch = s.latch := rfl
@[simp] theorem State.exchange_csLevel (s : State) (t : List Byte) : (s.exchange t).csLevel = s.csLevel := rfl
@[simp] theorem State.exchange_busOpen (s : State) (t : List Byte) : (s.exchange t).busOpen = s.busOpen := rfl
@[simp] theorem State.exchange_busClk (s : State) (t : List Byte) : (s.exchange t).busClk = s.busClk := rfl
@[simp] theorem State.exchange_buf (s : State) (t : List Byte) : (s.exchange t).buf = s.buf := rfl
@[simp] theorem State.exchange_answers (s : State) (t : List Byte) : (s.exchange t).answers = s.answers.drop t.length := rfl
@[simp] theorem State.exchange_drawn (s : State) (t : List Byte) : (s.exchange t).drawn = s.drawn + (t.length - s.answers.length) := rfl
@[simp] theorem State.exchange_port (s : State) (t : List Byte) : (s.exchange t).port = s.port := rfl
@[simp] theorem State.exchange_trace (s : State) (t : List Byte) : (s.exchange t).trace = s.trace ++ List.zipWith Event.xfer t (s.received t.length) := rfl
@[simp] theorem State.exchange_responses (s : State) (t : List Byte) : (s.exchange t).responses = s.responses := rfl

@[simp] theorem State.transact_cfg (s : State) (p : CsId) (clk : Clk) (t : List Byte) : (s.transact p clk t).cfg = s.cfg := rfl
@[simp] theorem State.transact_csId (s : State) (p : CsId) (clk : Clk) (t : List Byte) : (s.transact p clk t).csId = s.csId := rfl
@[simp] theorem State.transact_busCfg (s : State) (p : CsId) (clk : Clk) (t : List Byte) : (s.transact p clk t).busCfg = s.busCfg := rfl
@[simp] theorem State.transact_lastStatus (s : State) (p : CsId) (clk : Clk) (t : List Byte) : (s.transact p clk t).lastStatus = s.lastStatus := rfl
@[simp] theorem State.transact_phase (s : State) (p : CsId) (clk : Clk) (t : List Byte) : (s.transact p clk t).phase = s.phase := rfl
@[simp] theorem State.transact_latch (s : State) (p : CsId) (clk : Clk) (t : List Byte) : (s.transact p clk t).latch = s.latch := rfl
@[simp] theorem State.transact_csLevel (s : State) (p : CsId) (clk : Clk) (t : List Byte) : (s.transact p clk t).csLevel = s.csLevel := rfl
@[simp] theorem State.transact_busOpen (s : State) (p : CsId) (clk : Clk) (t : List Byte) : (s.transact p clk t).busOpen = s.busOpen := rfl
@[simp] theorem State.transact_busClk (s : State) (p : CsId) (clk : Clk) (t : List Byte) : (s.transact p clk t).busClk = none := rfl
@[simp] theorem State.transact_buf (s : State) (p : CsId) (clk : Clk) (t : List Byte) : (s.transact p clk t).buf = s.buf := rfl
@[simp] theorem State.transact_answers (s : State) (p : CsId) (clk : Clk) (t : List Byte) : (s.transact p clk t).answers = s.answers.drop t.length := rfl
@[simp] theorem State.transact_drawn (s : State) (p : CsId) (clk : Clk) (t : List Byte) : (s.transact p clk t).drawn = s.drawn + (t.length - s.answers.length) := rfl
@[simp] theorem State.transact_port (s : State) (p : CsId) (clk : Clk) (t : List Byte) : (s.transact p clk t).port = s.port := rfl
@[simp] theorem State.transact_trace (s : State) (p : CsId) (clk : Clk) (t : List Byte) : (s.transact p clk t).trace = s.trace ++ transaction p s.busCfg clk t (s.received t.length) := rfl
@[simp] theorem State.transact_responses (s : State) (p : CsId) (clk : Clk) (t : List Byte) : (s.transact p clk t).responses = s.responses := rfl

@[simp] theorem State.done_cfg (s : State) (code : StatusCode) (data : List Byte) : (s.done code data).cfg = s.cfg := rfl
@[simp] theorem State.done_csId (s : State) (code : StatusCode) (data : List Byte) : (s.done code data).csId = s.csId := rfl
@[simp] theorem State.done_busCfg (s : State) (code : StatusCode) (data : List Byte) : (s.done code data).busCfg = s.busCfg := rfl
@[simp] theorem State.done_lastStatus (s : State) (code : StatusCode) (data : List Byte) : (s.done code data).lastStatus = some code := rfl
@[simp] theorem State.done_phase (s : State) (code : StatusCode) (data : List Byte) : (s.done code data).phase = s.phase := rfl
@[simp] theorem State.done_latch (s : State) (code : StatusCode) (data : List Byte) : (s.done code data).latch = s.latch := rfl
@[simp] theorem State.done_csLevel (s : State) (code : StatusCode) (data : List Byte) : (s.done code data).csLevel = s.csLevel := rfl
@[simp] theorem State.done_busOpen (s : State) (code : StatusCode) (data : List Byte) : (s.done code data).busOpen = s.busOpen := rfl
@[simp] theorem State.done_busClk (s : State) (code : StatusCode) (data : List Byte) : (s.done code data).busClk = s.busClk := rfl
@[simp] theorem State.done_buf (s : State) (code : StatusCode) (data : List Byte) : (s.done code data).buf = s.buf := rfl
@[simp] theorem State.done_answers (s : State) (code : StatusCode) (data : List Byte) : (s.done code data).answers = s.answers := rfl
@[simp] theorem State.done_drawn (s : State) (code : StatusCode) (data : List Byte) : (s.done code data).drawn = s.drawn := rfl
@[simp] theorem State.done_port (s : State) (code : StatusCode) (data : List Byte) : (s.done code data).port = s.port := rfl
@[simp] theorem State.done_trace (s : State) (code : StatusCode) (data : List Byte) : (s.done code data).trace = s.trace := rfl
@[simp] theorem State.done_responses (s : State) (code : StatusCode) (data : List Byte) : (s.done code data).responses = s.responses ++ [.status code data] := rfl

@[simp] theorem State.answerBool_cfg (s : State) (b : Bool) : (s.answerBool b).cfg = s.cfg := rfl
@[simp] theorem State.answerBool_csId (s : State) (b : Bool) : (s.answerBool b).csId = s.csId := rfl
@[simp] theorem State.answerBool_busCfg (s : State) (b : Bool) : (s.answerBool b).busCfg = s.busCfg := rfl
@[simp] theorem State.answerBool_lastStatus (s : State) (b : Bool) : (s.answerBool b).lastStatus = s.lastStatus := rfl
@[simp] theorem State.answerBool_phase (s : State) (b : Bool) : (s.answerBool b).phase = s.phase := rfl
@[simp] theorem State.answerBool_latch (s : State) (b : Bool) : (s.answerBool b).latch = s.latch := rfl
@[simp] theorem State.answerBool_csLevel (s : State) (b : Bool) : (s.answerBool b).csLevel = s.csLevel := rfl
@[simp] theorem State.answerBool_busOpen (s : State) (b : Bool) : (s.answerBool b).busOpen = s.busOpen := rfl
@[simp] theorem State.answerBool_busClk (s : State) (b : Bool) : (s.answerBool b).busClk = s.busClk := rfl
@[simp] theorem State.answerBool_buf (s : State) (b : Bool) : (s.answerBool b).buf = s.buf := rfl
@[simp] theorem State.answerBool_answers (s : State) (b : Bool) : (s.answerBool b).answers = s.answers := rfl
@[simp] theorem State.answerBool_drawn (s : State) (b : Bool) : (s.answerBool b).drawn = s.drawn := rfl
@[simp] theorem State.answerBool_port (s : State) (b : Bool) : (s.answerBool b).port = s.port := rfl
@[simp] theorem State.answerBool_trace (s : State) (b : Bool) : (s.answerBool b).trace = s.trace := rfl
@[simp] theorem State.answerBool_responses (s : State) (b : Bool) : (s.answerBool b).responses = s.responses ++ [.boolean b] := rfl

@[simp] theorem State.accept_cfg (s : State) (r : Call) : (s.accept r).cfg = s.cfg := rfl
@[simp] theorem State.accept_csId (s : State) (r : Call) : (s.accept r).csId = s.csId := rfl
@[simp] theorem State.accept_busCfg (s : State) (r : Call) : (s.accept r).busCfg = s.busCfg := rfl
@[simp] theorem State.accept_lastStatus (s : State) (r : Call) : (s.accept r).lastStatus = s.lastStatus := rfl
@[simp] theorem State.accept_phase (s : State) (r : Call) : (s.accept r).phase = r.op.firstPhase := rfl
@[simp] theorem State.accept_latch (s : State) (r : Call) : (s.accept r).latch = { op := some r.op, addr := r.addr, n := r.n, buf := r.buf.map (fun b => { len := b.length }), val := r.val, cs := r.cs, outputs := [] } := rfl
@[simp] theorem State.accept_csLevel (s : State) (r : Call) : (s.accept r).csLevel = s.csLevel := rfl
@[simp] theorem State.accept_busOpen (s : State) (r : Call) : (s.accept r).busOpen = s.busOpen := rfl
@[simp] theorem State.accept_busClk (s : State) (r : Call) : (s.accept r).busClk = s.busClk := rfl
@[simp] theorem State.accept_answers (s : State) (r : Call) : (s.accept r).answers = s.answers := rfl
@[simp] theorem State.accept_drawn (s : State) (r : Call) : (s.accept r).drawn = s.drawn := rfl
@[simp] theorem State.accept_port (s : State) (r : Call) : (s.accept r).port = s.port := rfl
@[simp] theorem State.accept_trace (s : State) (r : Call) : (s.accept r).trace = s.trace := rfl
@[simp] theorem State.accept_responses (s : State) (r : Call) : (s.accept r).responses = s.responses := rfl

@[simp] theorem State.constructed_cfg (c : Config) (b : BusCfg) : (State.constructed c b).cfg = c := rfl
@[simp] theorem State.constructed_csId (c : Config) (b : BusCfg) : (State.constructed c b).csId = none := rfl
@[simp] theorem State.constructed_busCfg (c : Config) (b : BusCfg) : (State.constructed c b).busCfg = b := rfl
@[simp] theorem State.constructed_lastStatus (c : Config) (b : BusCfg) : (State.constructed c b).lastStatus = none := rfl
@[simp] theorem State.constructed_phase (c : Config) (b : BusCfg) : (State.constructed c b).phase = .idle := rfl
@[simp] theorem State.constructed_latch (c : Config) (b : BusCfg) : (State.constructed c b).latch = Latches.empty := rfl
@[simp] theorem State.constructed_csLevel (c : Config) (b : BusCfg) : (State.constructed c b).csLevel = .high := rfl
@[simp] theorem State.constructed_busOpen (c : Config) (b : BusCfg) : (State.constructed c b).busOpen = false := rfl
@[simp] theorem State.constructed_busClk (c : Config) (b : BusCfg) : (State.constructed c b).busClk = none := rfl
@[simp] theorem State.constructed_buf (c : Config) (b : BusCfg) : (State.constructed c b).buf = { len := 0, cells := [] } := rfl
@[simp] theorem State.constructed_answers (c : Config) (b : BusCfg) : (State.constructed c b).answers = [] := rfl
@[simp] theorem State.constructed_drawn (c : Config) (b : BusCfg) : (State.constructed c b).drawn = 0 := rfl
@[simp] theorem State.constructed_port (c : Config) (b : BusCfg) : (State.constructed c b).port = [] := rfl
@[simp] theorem State.constructed_trace (c : Config) (b : BusCfg) : (State.constructed c b).trace = [] := rfl
@[simp] theorem State.constructed_responses (c : Config) (b : BusCfg) : (State.constructed c b).responses = [] := rfl

@[simp] theorem State.accept_buf_none (s : State) (r : Call) (h : r.buf = none) : (s.accept r).buf = s.buf := by
  simp [State.accept, h]

@[simp] theorem State.accept_buf_some (s : State) (r : Call) {b : List Byte} (h : r.buf = some b) :
    (s.accept r).buf = TransferBuffer.ofBytes b := by
  simp [State.accept, h]

/-! ## What the oracle's answers depend on -/

@[simp] theorem State.answer_goto (s : State) (p : Phase) (k : Nat) : (s.goto p).answer k = s.answer k := rfl
@[simp] theorem State.received_goto (s : State) (p : Phase) (k : Nat) : (s.goto p).received k = s.received k := rfl
@[simp] theorem State.answer_setOutputs (s : State) (o : List Byte) (k : Nat) : (s.setOutputs o).answer k = s.answer k := rfl
@[simp] theorem State.received_setOutputs (s : State) (o : List Byte) (k : Nat) : (s.setOutputs o).received k = s.received k := rfl
@[simp] theorem State.answer_setBuf (s : State) (t : TransferBuffer) (k : Nat) : (s.setBuf t).answer k = s.answer k := rfl
@[simp] theorem State.received_setBuf (s : State) (t : TransferBuffer) (k : Nat) : (s.setBuf t).received k = s.received k := rfl
@[simp] theorem State.answer_setCs (s : State) (l : CsLevel) (k : Nat) : (s.setCs l).answer k = s.answer k := rfl
@[simp] theorem State.received_setCs (s : State) (l : CsLevel) (k : Nat) : (s.setCs l).received k = s.received k := rfl
@[simp] theorem State.answer_setCsId (s : State) (c : CsId) (k : Nat) : (s.setCsId c).answer k = s.answer k := rfl
@[simp] theorem State.received_setCsId (s : State) (c : CsId) (k : Nat) : (s.setCsId c).received k = s.received k := rfl
@[simp] theorem State.answer_emit (s : State) (e : Event) (k : Nat) : (s.emit e).answer k = s.answer k := rfl
@[simp] theorem State.received_emit (s : State) (e : Event) (k : Nat) : (s.emit e).received k = s.received k := rfl
@[simp] theorem State.answer_openBus (s : State) (clk : Clk) (k : Nat) : (s.openBus clk).answer k = s.answer k := rfl
@[simp] theorem State.received_openBus (s : State) (clk : Clk) (k : Nat) : (s.openBus clk).received k = s.received k := rfl
@[simp] theorem State.answer_closeBus (s : State)  (k : Nat) : (s.closeBus).answer k = s.answer k := rfl
@[simp] theorem State.received_closeBus (s : State)  (k : Nat) : (s.closeBus).received k = s.received k := rfl
@[simp] theorem State.answer_accept (s : State) (r : Call) (k : Nat) : (s.accept r).answer k = s.answer k := rfl
@[simp] theorem State.received_accept (s : State) (r : Call) (k : Nat) : (s.accept r).received k = s.received k := rfl

/-! ## Commuting updates -/

@[simp] theorem State.exchange_setBuf_comm (s : State) (t : TransferBuffer) (u : List Byte) : (s.setBuf t).exchange u = (s.exchange u).setBuf t := rfl
@[simp] theorem State.exchange_setCs_comm (s : State) (l : CsLevel) (u : List Byte) : (s.setCs l).exchange u = (s.exchange u).setCs l := rfl
@[simp] theorem State.exchange_setOutputs_comm (s : State) (o : List Byte) (u : List Byte) : (s.setOutputs o).exchange u = (s.exchange u).setOutputs o := rfl
@[simp] theorem State.exchange_goto_comm (s : State) (p : Phase) (u : List Byte) : (s.goto p).exchange u = (s.exchange u).goto p := rfl
@[simp] theorem State.setBuf_setBuf (s : State) (t : TransferBuffer) (y : TransferBuffer) : (s.setBuf t).setBuf y = s.setBuf y := rfl
@[simp] theorem State.setCs_setCs (s : State) (l : CsLevel) (y : CsLevel) : (s.setCs l).setCs y = s.setCs y := rfl
@[simp] theorem State.setCs_setBuf_comm (s : State) (l : CsLevel) (t : TransferBuffer) : (s.setCs l).setBuf t = (s.setBuf t).setCs l := rfl
@[simp] theorem State.setOutputs_setOutputs (s : State) (o : List Byte) (y : List Byte) : (s.setOutputs o).setOutputs y = s.setOutputs y := rfl
@[simp] theorem State.setOutputs_setBuf_comm (s : State) (o : List Byte) (t : TransferBuffer) : (s.setOutputs o).setBuf t = (s.setBuf t).setOutputs o := rfl
@[simp] theorem State.setOutputs_setCs_comm (s : State) (o : List Byte) (l : CsLevel) : (s.setOutputs o).setCs l = (s.setCs l).setOutputs o := rfl
@[simp] theorem State.goto_goto (s : State) (p : Phase) (y : Phase) : (s.goto p).goto y = s.goto y := rfl
@[simp] theorem State.goto_setBuf_comm (s : State) (p : Phase) (t : TransferBuffer) : (s.goto p).setBuf t = (s.setBuf t).goto p := rfl
@[simp] theorem State.goto_setCs_comm (s : State) (p : Phase) (l : CsLevel) : (s.goto p).setCs l = (s.setCs l).goto p := rfl
@[simp] theorem State.goto_setOutputs_comm (s : State) (p : Phase) (o : List Byte) : (s.goto p).setOutputs o = (s.setOutputs o).goto p := rfl
@[simp] theorem State.emit_goto_comm (s : State) (p : Phase) (e : Event) : (s.goto p).emit e = (s.emit e).goto p := rfl
@[simp] theorem State.openBus_goto_comm (s : State) (p : Phase) (clk : Clk) : (s.goto p).openBus clk = (s.openBus clk).goto p := rfl
@[simp] theorem State.closeBus_goto_comm (s : State) (p : Phase)  : (s.goto p).closeBus = (s.closeBus).goto p := rfl
@[simp] theorem State.emit_setOutputs_comm (s : State) (o : List Byte) (e : Event) : (s.setOutputs o).emit e = (s.emit e).setOutputs o := rfl
@[simp] theorem State.openBus_setOutputs_comm (s : State) (o : List Byte) (clk : Clk) : (s.setOutputs o).openBus clk = (s.openBus clk).setOutputs o := rfl
@[simp] theorem State.closeBus_setOutputs_comm (s : State) (o : List Byte)  : (s.setOutputs o).closeBus = (s.closeBus).setOutputs o := rfl
@[simp] theorem State.emit_setBuf_comm (s : State) (t : TransferBuffer) (e : Event) : (s.setBuf t).emit e = (s.emit e).setBuf t := rfl
@[simp] theorem State.openBus_setBuf_comm (s : State) (t : TransferBuffer) (clk : Clk) : (s.setBuf t).openBus clk = (s.openBus clk).setBuf t := rfl
@[simp] theorem State.closeBus_setBuf_comm (s : State) (t : TransferBuffer)  : (s.setBuf t).closeBus = (s.closeBus).setBuf t := rfl
theorem State.setBuf_self (s : State) : s.setBuf s.buf = s := rfl
theorem State.setOutputs_self (s : State) : s.setOutputs s.latch.outputs = s := rfl

end Sys2Proof.Machine
end

