-- ==== Sys2Proof/Laws/Sequencer.lean ====
section
/-! SUPPORT. What the sequencer does over a whole transaction: the loops of R37 as lists of exchanges. Callers cite
`reaches_frame` instead of unfolding the sequencer. -/

namespace Sys2Proof.Machine

/-! ## The oracle -/

theorem State.completes_consume {s : State} (h : s.BusCompletes) (k : Nat) : (s.consume k).BusCompletes :=
  fun hm => h (List.mem_of_mem_drop hm)

theorem State.answer_consume {s : State} (h : s.BusCompletes) (j k : Nat) :
    (s.consume j).answer k = s.answer (j + k) := by
  simp only [State.answer, State.consume_answers, State.consume_drawn, List.getElem?_drop, List.length_drop]
  rcases hx : s.answers[j + k]? with - | a
  · simp only
    congr 1
    omega
  · cases a with
    | byte b => rfl
    | never => exact absurd (List.mem_of_getElem? hx) h

@[simp] theorem State.length_received (s : State) (k : Nat) : (s.received k).length = k := by
  simp [State.received]

theorem State.getElem_received (s : State) {k i : Nat} (h : i < (s.received k).length) :
    (s.received k)[i] = s.answer i := by
  simp [State.received]

theorem State.received_add {s : State} (h : s.BusCompletes) (a b : Nat) :
    s.received (a + b) = s.received a ++ (s.consume a).received b := by
  simp only [State.received, List.range_add, List.map_append, List.map_map]
  congr 1
  exact List.map_congr_left (fun i _ => (State.answer_consume h a i).symm)

theorem State.received_succ {s : State} (h : s.BusCompletes) (m : Nat) :
    s.received (m + 1) = s.answer 0 :: (s.consume 1).received m := by
  rw [Nat.add_comm m 1, State.received_add h]
  rfl

theorem State.consume_consume (s : State) (a b : Nat) : (s.consume a).consume b = s.consume (a + b) := by
  simp only [State.consume, List.drop_drop, List.length_drop]
  congr 1
  omega

theorem State.consume_zero (s : State) : s.consume 0 = s := by
  simp [State.consume]

/-- What `answer` depends on. -/
theorem State.answer_congr {s t : State} (ha : s.answers = t.answers) (hd : s.drawn = t.drawn) (k : Nat) :
    s.answer k = t.answer k := by
  simp [State.answer, ha, hd]

theorem State.received_congr {s t : State} (ha : s.answers = t.answers) (hd : s.drawn = t.drawn) (k : Nat) :
    s.received k = t.received k := by
  simp [State.received, State.answer_congr ha hd]

/-! ## Lists of exchanges -/

theorem State.exchange_nil (s : State) : s.exchange [] = s := by
  simp [State.exchange, State.consume]

theorem State.exchange_append {s : State} (h : s.BusCompletes) (t u : List Byte) :
    (s.exchange t).exchange u = s.exchange (t ++ u) := by
  have hz : List.zipWith Event.xfer (t ++ u) (s.received (t.length + u.length)) =
      List.zipWith Event.xfer t (s.received t.length) ++
        List.zipWith Event.xfer u ((s.exchange t).received u.length) := by
    rw [State.received_add h, List.zipWith_append (by simp)]
    rfl
  have hl := List.length_append (as := t) (bs := u)
  ext : 1 <;> try rfl
  · simp only [State.exchange_answers, List.drop_drop, hl]
  · simp only [State.exchange_drawn, State.exchange_answers, List.length_drop, hl]
    omega
  · simp only [State.exchange_trace, hl, hz, List.append_assoc]

theorem State.exchange_cons {s : State} (h : s.BusCompletes) (b : Byte) (t : List Byte) :
    (s.exchange [b]).exchange t = s.exchange (b :: t) :=
  State.exchange_append h [b] t

/-- After one exchange the oracle is one answer further. -/
theorem State.received_exchange_one (s : State) (b : Byte) (m : Nat) :
    (s.exchange [b]).received m = (s.consume 1).received m :=
  State.received_congr rfl rfl m

theorem State.completes_exchange {s : State} (h : s.BusCompletes) (t : List Byte) : (s.exchange t).BusCompletes :=
  fun hm => h (List.mem_of_mem_drop hm)

/-- A byte exchange that completes (R13). -/
theorem State.xfer_of_completes {s : State} (h : s.BusCompletes) (tx : Byte) :
    s.xfer tx = .ok (s.answer 0, s.exchange [tx]) := by
  unfold State.xfer
  rcases hs : s.answers with - | ⟨a, rest⟩
  · simp [State.exchange, State.answer, State.emit, State.consume, State.received, hs, List.range_succ]
  · cases a with
    | byte b =>
      simp [State.exchange, State.answer, State.emit, State.consume, State.received, hs, List.range_succ]
    | never => exact absurd (hs ▸ List.mem_cons_self ..) h

theorem State.send_of_completes {s : State} (h : s.BusCompletes) (tx : Byte) : s.send tx = .ok (s.exchange [tx]) := by
  rw [State.send, State.xfer_of_completes h]

/-- An exchange whose transport never completes it: no step (R14). -/
theorem State.xfer_of_never {s : State} {rest : List BusAnswer} (h : s.answers = .never :: rest) (tx : Byte) :
    s.xfer tx = .error .stalled := by
  simp [State.xfer, h]

/-! ## Runs of the sequencer -/

/-- `k` events lead from `s` to `s'`. -/
def Reaches (k : Nat) (s s' : State) : Prop := ∀ m, runTicks (k + m) s = runTicks m s'

theorem Reaches.refl (s : State) : Reaches 0 s s := fun m => by rw [Nat.zero_add]

theorem Reaches.trans {a b : Nat} {s t u : State} (h : Reaches a s t) (h' : Reaches b t u) : Reaches (a + b) s u :=
  fun m => by rw [Nat.add_assoc, h, h']

theorem Reaches.one {s s' : State} (h : s.tick = .ok s') : Reaches 1 s s' := fun m => by
  rw [Nat.add_comm, runTicks, h]

theorem Reaches.runTicks {k : Nat} {s s' : State} (h : Reaches k s s') : runTicks k s = s' := by
  have := h 0
  simpa [Machine.runTicks] using this

theorem Reaches.congr {a b : Nat} {s t u : State} (h : Reaches a s t) (hk : a = b) (ht : t = u) : Reaches b s u :=
  hk ▸ ht ▸ h

/-- A transaction with descriptor `fd` is running: the gate's, or command transaction `j`'s. `φ` is its stage. -/
def Running (s : State) (φ : TxPos → Phase) (fd : FrameDesc) : Prop :=
  (φ = Phase.gate ∧ fd = gateDesc s.cfg) ∨ ∃ j, φ = Phase.cmd j ∧ s.commandDesc j = some fd

theorem State.commandDesc_congr {s t : State} (hc : s.cfg = t.cfg) (ho : s.latch.op = t.latch.op)
    (hn : s.latch.n = t.latch.n) (j : Fin 2) : s.commandDesc j = t.commandDesc j := by
  simp [State.commandDesc, hc, ho, hn]

theorem Running.congr {s t : State} {φ : TxPos → Phase} {fd : FrameDesc} (h : Running s φ fd) (hc : t.cfg = s.cfg)
    (ho : t.latch.op = s.latch.op) (hn : t.latch.n = s.latch.n) : Running t φ fd := by
  rcases h with ⟨h, h'⟩ | ⟨j, h, h'⟩
  · exact .inl ⟨h, by rw [h', hc]⟩
  · exact .inr ⟨j, h, by rw [State.commandDesc_congr hc ho hn, h']⟩

/-- One event inside a transaction (R37). -/
theorem Running.advance {s s' : State} {φ : TxPos → Phase} {fd : FrameDesc} {tp : TxPos} (tp' : TxPos)
    (h : Running s φ fd) (hp : s.phase = φ tp) (he : s.eventAt fd tp = .ok s') (hn : nextPos fd tp = some tp') :
    Reaches 1 s (s'.goto (φ tp')) := by
  refine Reaches.one ?_
  rcases h with ⟨rfl, rfl⟩ | ⟨j, rfl, h'⟩
  · simp only [State.tick, hp, he, hn]
  · simp only [State.tick, hp, h', he, hn]

/-- The dummy bytes from index `k` on (R134). -/
theorem reaches_dummies {φ : TxPos → Phase} {fd : FrameDesc} (m : Nat) :
    ∀ {s : State} {k : Nat}, Running s φ fd → s.BusCompletes → k + (m + 1) = fd.d → s.phase = φ (.dummy k) →
      Reaches (m + 1) s ((s.exchange (List.replicate (m + 1) dummyValue)).goto (φ (payloadStart fd))) := by
  induction m with
  | zero =>
    intro s k hr hb hk hp
    exact hr.advance (payloadStart fd) hp (State.send_of_completes hb dummyValue)
      (by simp only [nextPos]; rw [if_neg (by omega)])
  | succ m ih =>
    intro s k hr hb hk hp
    have h1 := hr.advance (.dummy (k + 1)) hp (State.send_of_completes hb dummyValue)
      (by simp only [nextPos]; rw [if_pos (by omega)])
    have h2 := ih (s := (s.exchange [dummyValue]).goto (φ (.dummy (k + 1)))) (k := k + 1)
      (hr.congr rfl rfl rfl) (State.completes_exchange hb _) (by omega) rfl
    refine (h1.trans h2).congr (by omega) ?_
    rw [List.replicate_succ (n := m + 1), ← State.exchange_cons hb dummyValue (List.replicate (m + 1) dummyValue)]
    simp only [State.exchange_goto_comm, State.goto_goto]

/-- The write payload from index `k` on (R136). -/
theorem reaches_writes {φ : TxPos → Phase} {fd : FrameDesc} (hd : fd.dir = .write) (p : List Byte) :
    ∀ {s : State} {k : Nat}, Running s φ fd → s.BusCompletes → p ≠ [] → k + p.length = fd.n →
      (∀ i (h : i < p.length), s.payloadByte (k + i) = .ok p[i]) → s.phase = φ (.payload k) →
      Reaches p.length s ((s.exchange p).goto (φ .busEnd)) := by
  induction p with
  | nil => intro _ _ _ _ h; exact absurd rfl h
  | cons b p ih =>
    intro s k hr hb _ hk hpay hp
    have he : s.eventAt fd (.payload k) = .ok (s.exchange [b]) := by
      have := hpay 0 (by simp)
      simp only [Nat.add_zero, List.getElem_cons_zero] at this
      simp only [State.eventAt, hd, this, State.send_of_completes hb]
    simp only [List.length_cons] at hk
    by_cases hnil : p = []
    · subst hnil
      exact hr.advance .busEnd hp he (by simp only [nextPos]; rw [if_neg (by simp at hk; omega)])
    · have hlen : 0 < p.length := List.length_pos_iff.mpr hnil
      have h1 := hr.advance (.payload (k + 1)) hp he (by simp only [nextPos]; rw [if_pos (by omega)])
      have h2 := ih (s := (s.exchange [b]).goto (φ (.payload (k + 1)))) (k := k + 1)
        (hr.congr rfl rfl rfl) (State.completes_exchange hb _) hnil (by omega)
        (fun i h => by
          have h' := hpay (i + 1) (by simpa using h)
          rw [show k + (i + 1) = k + 1 + i by omega] at h'
          exact h') rfl
      refine (h1.trans h2).congr (by simp; omega) ?_
      rw [← State.exchange_cons hb b p]
      simp only [State.exchange_goto_comm, State.goto_goto]

theorem State.sink_exchange (s : State) (t : List Byte) : (s.exchange t).sink = s.sink := rfl

theorem State.sink_gate {s : State} {tp : TxPos} (h : s.phase = .gate tp) : s.sink = none := by
  simp [State.sink, h]

theorem State.sink_cmd {s : State} {j : Fin 2} {tp : TxPos} (h : s.phase = .cmd j tp) : s.sink = s.latch.buf := by
  simp [State.sink, h]

/-- No received byte is stored: this is the gate, or the operation has no buffer. -/
theorem Running.sink_none {s : State} {φ : TxPos → Phase} {fd : FrameDesc} {tp : TxPos} (hr : Running s φ fd)
    (h : φ = Phase.gate ∨ s.latch.buf = none) (hp : s.phase = φ tp) : s.sink = none := by
  rcases hr with ⟨hφ, -⟩ | ⟨j, hφ, -⟩
  · exact State.sink_gate (tp := tp) (by rw [hp, hφ])
  · rcases h with h | h
    · exact absurd (congrFun (hφ.symm.trans h) .csLow) (by simp)
    · rw [State.sink_cmd (j := j) (tp := tp) (by rw [hp, hφ]), h]

/-- The read payload from index `k` on, of the gate or of an operation with no buffer (R135). -/
theorem reaches_outputs {φ : TxPos → Phase} {fd : FrameDesc} (hd : fd.dir = .read) (m : Nat) :
    ∀ {s : State} {k : Nat}, Running s φ fd → s.BusCompletes → (φ = Phase.gate ∨ s.latch.buf = none) →
      k + (m + 1) = fd.n →
      s.phase = φ (.payload k) →
      Reaches (m + 1) s (((s.exchange (List.replicate (m + 1) readFill)).setOutputs
        (s.latch.outputs ++ s.received (m + 1))).goto (φ .busEnd)) := by
  have event : ∀ {s : State} {k : Nat}, s.BusCompletes → s.sink = none →
      s.eventAt fd (.payload k) =
        .ok ((s.exchange [readFill]).setOutputs (s.latch.outputs ++ [s.answer 0])) := by
    intro s k hb hbuf
    simp only [State.eventAt, hd, State.receive, State.xfer_of_completes hb, State.capture, State.sink_exchange, hbuf,
      State.exchange_latch]
  induction m with
  | zero =>
    intro s k hr hb hbuf hk hp
    exact hr.advance .busEnd hp (event hb (hr.sink_none hbuf hp)) (by simp only [nextPos]; rw [if_neg (by omega)])
  | succ m ih =>
    intro s k hr hb hbuf hk hp
    have h1 := hr.advance (.payload (k + 1)) hp (event hb (hr.sink_none hbuf hp))
      (by simp only [nextPos]; rw [if_pos (by omega)])
    have h2 := ih
      (s := ((s.exchange [readFill]).setOutputs (s.latch.outputs ++ [s.answer 0])).goto (φ (.payload (k + 1))))
      (k := k + 1) (hr.congr rfl rfl rfl) (State.completes_exchange hb _) hbuf (by omega) rfl
    refine (h1.trans h2).congr (by omega) ?_
    rw [List.replicate_succ (n := m + 1), ← State.exchange_cons hb readFill (List.replicate (m + 1) readFill),
      State.received_succ hb (m + 1),
      ← State.received_exchange_one s readFill]
    simp only [State.exchange_goto_comm, State.goto_goto, State.exchange_setOutputs_comm, State.goto_setOutputs_comm,
      State.setOutputs_setOutputs, State.goto_latch, State.setOutputs_latch, State.received_goto,
      State.received_setOutputs, List.append_assoc, List.singleton_append]

/-- The read payload from index `k` on, into a buffer that holds `bs` (R135, R49). -/
theorem reaches_buffer {φ : TxPos → Phase} {fd : FrameDesc} {j : Fin 2} (hφ : φ = Phase.cmd j) (hd : fd.dir = .read)
    (m : Nat) :
    ∀ {s : State} {k : Nat} {r : BufRef} {bs : List Byte}, Running s φ fd → s.BusCompletes →
      s.latch.buf = some r → s.buf = TransferBuffer.ofBytes bs → fd.n ≤ bs.length → k + (m + 1) = fd.n →
      s.phase = φ (.payload k) →
      Reaches (m + 1) s ((((s.exchange (List.replicate (m + 1) readFill)).setBuf
        (TransferBuffer.ofBytes (bs.take k ++ s.received (m + 1) ++ bs.drop fd.n))).setOutputs
          (s.latch.outputs ++ s.received (m + 1))).goto (φ .busEnd)) := by
  have event : ∀ {s : State} {k : Nat} {r : BufRef} {bs : List Byte}, s.BusCompletes → s.sink = some r →
      s.buf = TransferBuffer.ofBytes bs → k < bs.length →
      s.eventAt fd (.payload k) =
        .ok (((s.exchange [readFill]).setBuf (TransferBuffer.ofBytes (bs.set k (s.answer 0)))).setOutputs
          (s.latch.outputs ++ [s.answer 0])) := by
    intro s k r bs hb hr hbuf hk
    simp only [State.eventAt, hd, State.receive, State.xfer_of_completes hb, State.capture, State.sink_exchange, hr,
      State.exchange_latch, State.exchange_buf, hbuf, TransferBuffer.write_ofBytes bs hk]
  induction m with
  | zero =>
    intro s k r bs hr hb hlatch hbuf hn hk hp
    have h1 := hr.advance .busEnd hp (event hb (by rw [State.sink_cmd (hp.trans (congrFun hφ _)), hlatch]) hbuf (by omega))
      (by simp only [nextPos]; rw [if_neg (by omega)])
    have : bs.set k (s.answer 0) = bs.take k ++ s.received 1 ++ bs.drop fd.n := by
      rw [← hk, List.set_eq_take_append_cons_drop, if_pos (by omega)]
      simp [State.received, List.range_succ]
    rw [this] at h1
    exact h1
  | succ m ih =>
    intro s k r bs hr hb hlatch hbuf hn hk hp
    have h1 := hr.advance (.payload (k + 1)) hp (event hb (by rw [State.sink_cmd (hp.trans (congrFun hφ _)), hlatch]) hbuf (by omega))
      (by simp only [nextPos]; rw [if_pos (by omega)])
    have h2 := ih
      (s := (((s.exchange [readFill]).setBuf (TransferBuffer.ofBytes (bs.set k (s.answer 0)))).setOutputs
          (s.latch.outputs ++ [s.answer 0])).goto (φ (.payload (k + 1))))
      (k := k + 1) (r := r) (bs := bs.set k (s.answer 0)) (hr.congr rfl rfl rfl) (State.completes_exchange hb _)
      hlatch rfl (by simpa using hn) (by omega) rfl
    refine (h1.trans h2).congr (by omega) ?_
    have hbs : (bs.set k (s.answer 0)).take (k + 1) ++ (s.exchange [readFill]).received (m + 1) ++
          (bs.set k (s.answer 0)).drop fd.n =
        bs.take k ++ (s.answer 0 :: (s.exchange [readFill]).received (m + 1)) ++ bs.drop fd.n := by
      rw [List.drop_set_of_lt (by omega), List.append_cons (as := bs.take k), List.take_set]
      congr 2
      rw [List.set_eq_take_append_cons_drop, if_pos (by simp; omega)]
      simp [List.take_take]
    rw [List.replicate_succ (n := m + 1), ← State.exchange_cons hb readFill (List.replicate (m + 1) readFill),
      State.received_succ hb (m + 1),
      ← State.received_exchange_one s readFill, ← hbs]
    simp only [State.exchange_goto_comm, State.goto_goto, State.exchange_setOutputs_comm, State.goto_setOutputs_comm,
      State.setOutputs_setOutputs, State.goto_latch, State.setOutputs_latch, State.received_goto,
      State.received_setOutputs, State.exchange_setBuf_comm, State.goto_setBuf_comm, State.setOutputs_setBuf_comm,
      State.setBuf_setBuf, State.received_setBuf, List.append_assoc, List.singleton_append]

/-! ## The address encoder -/

/-- The sequencer's address bytes are the encoder's address field (R131). -/
theorem addrBytes_eq_addressField (a : Address) : addrBytes a = addressField a := by
  simp only [addrBytes, addressField, addrByte, List.cons.injEq, and_true]
  refine ⟨?_, ?_, ?_⟩ <;> ext i hi <;> simp

/-- The three address bytes (R133). -/
theorem reaches_address {φ : TxPos → Phase} {fd : FrameDesc} {s : State} {a : Address} (hr : Running s φ fd)
    (hb : s.BusCompletes) (ha : s.latch.addr = some a) (hp : s.phase = φ (.addr 0)) :
    Reaches 3 s ((s.exchange (addressField a)).goto (φ (dummyStart fd))) := by
  have event : ∀ {s : State} (k : Nat), s.BusCompletes → s.latch.addr = some a →
      s.eventAt fd (.addr k) = .ok (s.exchange [addrByte a k]) := by
    intro s k hb ha
    simp only [State.eventAt, ha, State.send_of_completes hb]
  have h0 := hr.advance (.addr 1) hp (event 0 hb ha) rfl
  have h1 := Running.advance (s := (s.exchange [addrByte a 0]).goto (φ (.addr 1))) (.addr 2)
    (hr.congr rfl rfl rfl) rfl (event 1 (State.completes_exchange hb _) ha) rfl
  have hb2 := State.completes_exchange (State.completes_exchange hb [addrByte a 0]) [addrByte a 1]
  have h2 := Running.advance (s := (((s.exchange [addrByte a 0]).goto (φ (.addr 1))).exchange [addrByte a 1]).goto
    (φ (.addr 2))) (dummyStart fd) (hr.congr rfl rfl rfl) rfl (event 2 hb2 ha) rfl
  refine ((h0.trans h1).trans h2).congr rfl ?_
  rw [← addrBytes_eq_addressField, addrBytes, ← State.exchange_cons hb (addrByte a 0) [addrByte a 1, addrByte a 2],
    ← State.exchange_cons (State.completes_exchange hb _) (addrByte a 1) [addrByte a 2]]
  simp only [State.exchange_goto_comm, State.goto_goto]

/-! ## A whole transaction -/

/-- `begin(clk)` (R120): chip-select low, then the bus opened. -/
def State.began (s : State) (p : CsId) (clk : Clk) : State := ((s.setCs .low).emit (.csLow p)).openBus clk

theorem State.began_goto (s : State) (p : CsId) (clk : Clk) (ph : Phase) :
    (s.goto ph).began p clk = (s.began p clk).goto ph := rfl

/-- Everything before the payload (R120, R132 to R134). -/
theorem reaches_header {φ : TxPos → Phase} {fd : FrameDesc} {s : State} {p : CsId} {a : Address} (hr : Running s φ fd)
    (hb : s.BusCompletes) (hcs : s.csId = some p) (ha : fd.addressed = true → s.latch.addr = some a)
    (hp : s.phase = φ .csLow) :
    Reaches (3 + (if fd.addressed then 3 else 0) + fd.d) s
      (((s.began p fd.clk).exchange ([fd.opc] ++ (if fd.addressed then addressField a else []) ++
        List.replicate fd.d dummyValue)).goto (φ (payloadStart fd))) := by
  have low := hr.advance .busBegin hp (show s.eventAt fd .csLow = .ok ((s.setCs .low).emit (.csLow p)) by
    simp only [State.eventAt, State.lowerCs, hcs]) rfl
  have opened := Running.advance (s := ((s.setCs .low).emit (.csLow p)).goto (φ .busBegin)) .opcode
    (hr.congr rfl rfl rfl) rfl rfl rfl
  have hb' : (s.began p fd.clk).BusCompletes := hb
  have opcode := Running.advance (s := (s.began p fd.clk).goto (φ .opcode)) (addressStart fd)
    (hr.congr rfl rfl rfl) rfl
    (State.send_of_completes (s := (s.began p fd.clk).goto (φ .opcode)) hb fd.opc) rfl
  have start : Reaches 3 s (((s.began p fd.clk).exchange [fd.opc]).goto (φ (addressStart fd))) :=
    ((low.trans opened).trans opcode).congr rfl (by
      simp only [State.exchange_goto_comm, State.goto_goto])
  have address : Reaches (if fd.addressed then 3 else 0)
      (((s.began p fd.clk).exchange [fd.opc]).goto (φ (addressStart fd)))
      (((s.began p fd.clk).exchange ([fd.opc] ++ (if fd.addressed then addressField a else []))).goto
        (φ (dummyStart fd))) := by
    cases h : fd.addressed with
    | false =>
      simp only [addressStart, h, Bool.false_eq_true, if_false, List.append_nil]
      exact Reaches.refl _
    | true =>
      simp only [addressStart, h, if_true]
      have := reaches_address (s := ((s.began p fd.clk).exchange [fd.opc]).goto (φ (.addr 0))) (φ := φ) (fd := fd)
        (a := a) (hr.congr rfl rfl rfl) (State.completes_exchange hb' _) (ha h) rfl
      refine this.congr rfl ?_
      rw [State.exchange_goto_comm, State.goto_goto, State.exchange_append hb']
  refine ((start.trans address).trans (u :=
    ((s.began p fd.clk).exchange ([fd.opc] ++ (if fd.addressed then addressField a else []) ++
      List.replicate fd.d dummyValue)).goto (φ (payloadStart fd))) (b := fd.d) ?_).congr rfl rfl
  cases hd : fd.d with
  | zero =>
    simp only [dummyStart, hd, Nat.lt_irrefl, if_false, List.replicate_zero, List.append_nil]
    exact Reaches.refl _
  | succ m =>
    simp only [dummyStart, hd, Nat.zero_lt_succ, if_true]
    have := reaches_dummies (φ := φ) (fd := fd) m
      (s := ((s.began p fd.clk).exchange ([fd.opc] ++ (if fd.addressed then addressField a else []))).goto
        (φ (.dummy 0))) (k := 0) (hr.congr rfl rfl rfl) (State.completes_exchange hb' _) (by omega) rfl
    refine this.congr rfl ?_
    rw [State.exchange_goto_comm, State.goto_goto, State.exchange_append hb']

/-- What the payload of a transaction does, as the state finds it at the transaction's start: `fd.n` bytes `t` are
transmitted; if `r` is received, the buffer becomes `B` and the outputs `O`. -/
structure PayloadOf (φ : TxPos → Phase) (s : State) (fd : FrameDesc) (t r : List Byte) (B : TransferBuffer) (O : List Byte) : Prop where
  effect : ∀ {x : State}, Running x φ fd → x.BusCompletes → x.latch = s.latch → x.buf = s.buf →
    x.received fd.n = r → x.phase = φ (payloadStart fd) →
    Reaches fd.n x ((((x.exchange t).setBuf B).setOutputs O).goto (φ .busEnd))

/-- No payload byte. -/
theorem PayloadOf.empty {φ : TxPos → Phase} {s : State} {fd : FrameDesc} {r : List Byte} (h : fd.n = 0) :
    PayloadOf φ s fd [] r s.buf s.latch.outputs where
  effect := by
    intro x _ _ hl hbuf _ hp
    rw [h, State.exchange_nil, ← hbuf, ← hl, State.setBuf_self, State.setOutputs_self]
    rw [payloadStart, if_neg (by omega)] at hp
    rw [show x.goto (φ .busEnd) = x by rw [← hp]; rfl]
    exact Reaches.refl x

/-- A write payload (R136). -/
theorem PayloadOf.write {φ : TxPos → Phase} {s : State} {fd : FrameDesc} {t r : List Byte} (hd : fd.dir = .write) (hn : t.length = fd.n)
    (hpay : ∀ i (h : i < t.length), s.payloadByte i = .ok t[i]) : PayloadOf φ s fd t r s.buf s.latch.outputs where
  effect := by
    intro x hr hb hl hbuf _ hp
    by_cases ht : t = []
    · subst ht
      exact (PayloadOf.empty (s := s) (r := x.received fd.n) hn.symm).effect hr hb hl hbuf rfl hp
    · have hlen : 0 < t.length := List.length_pos_iff.mpr ht
      rw [payloadStart, if_pos (by omega)] at hp
      have := reaches_writes hd t hr hb ht (k := 0) (by omega) (fun i h => by
        rw [Nat.zero_add, ← hpay i h]
        simp only [State.payloadByte, hl, hbuf]) hp
      refine this.congr hn ?_
      rw [← hbuf, ← hl]
      rfl

/-- A read payload of the gate, or of an operation with no buffer (R135). -/
theorem PayloadOf.outputs {φ : TxPos → Phase} {s : State} {fd : FrameDesc} {r : List Byte} (hd : fd.dir = .read)
    (hbuf : φ = Phase.gate ∨ s.latch.buf = none) (hr : r.length = fd.n) :
    PayloadOf φ s fd (List.replicate fd.n readFill) r s.buf (s.latch.outputs ++ r) where
  effect := by
    intro x hrun hb hl hx hrec hp
    cases hn : fd.n with
    | zero =>
      have : r = [] := List.eq_nil_of_length_eq_zero (by omega)
      subst this
      have := (PayloadOf.empty (s := s) (r := []) hn).effect hrun hb hl hx hrec hp
      rw [hn] at this
      simpa using this
    | succ m =>
      rw [payloadStart, if_pos (by omega)] at hp
      have := reaches_outputs hd m hrun hb (by rw [hl]; exact hbuf) (k := 0) (by omega) hp
      refine this.congr rfl ?_
      rw [← hn, hrec, hl, ← hx]
      rfl

/-- A read payload into a buffer that holds `bs` (R135, R49): it fills `bs[0..n-1]`. -/
theorem PayloadOf.buffer {j : Fin 2} {s : State} {fd : FrameDesc} {r bs : List Byte} {ref : BufRef} (hd : fd.dir = .read)
    (hl : s.latch.buf = some ref) (hbuf : s.buf = TransferBuffer.ofBytes bs) (hn : fd.n ≤ bs.length)
    (hr : r.length = fd.n) :
    PayloadOf (Phase.cmd j) s fd (List.replicate fd.n readFill) r (TransferBuffer.ofBytes (r ++ bs.drop fd.n))
      (s.latch.outputs ++ r) where
  effect := by
    intro x hrun hb hxl hx hrec hp
    cases hn' : fd.n with
    | zero =>
      have : r = [] := List.eq_nil_of_length_eq_zero (by omega)
      subst this
      have := (PayloadOf.empty (s := s) (r := []) hn').effect hrun hb hxl hx hrec hp
      rw [hn', hbuf] at this
      simpa using this
    | succ m =>
      rw [payloadStart, if_pos (by omega)] at hp
      have := reaches_buffer rfl hd m hrun hb (by rw [hxl, hl]) (by rw [hx, hbuf]) hn (k := 0) (by omega) hp
      refine this.congr rfl ?_
      rw [← hn', hrec, hxl, List.take_zero, List.nil_append]

/-- The transmit sequence of a transaction (R138). -/
def frameBytes (fd : FrameDesc) (a : Address) (t : List Byte) : List Byte :=
  [fd.opc] ++ (if fd.addressed then addressField a else []) ++ List.replicate fd.d dummyValue ++ t

/-- How many exchanges come before the payload. -/
def headerLength (fd : FrameDesc) : Nat := 1 + (if fd.addressed then 3 else 0) + fd.d

theorem frameCount_eq (fd : FrameDesc) :
    3 + (if fd.addressed then 3 else 0) + fd.d + fd.n + 1 = headerLength fd + fd.n + 3 := by
  rw [headerLength]
  omega

theorem length_frameBytes (fd : FrameDesc) (a : Address) (t : List Byte) :
    (frameBytes fd a t).length = headerLength fd + t.length := by
  cases h : fd.addressed <;> simp [frameBytes, headerLength, h, addressField] <;> omega

/-- From `T_CSLOW` to `T_CSHIGH`: the whole frame inside the bracket (R122, R137). -/
theorem reaches_frame {φ : TxPos → Phase} {fd : FrameDesc} {s : State} {p : CsId} {a : Address} {t O : List Byte}
    {B : TransferBuffer} (hr : Running s φ fd) (hb : s.BusCompletes) (hcs : s.csId = some p)
    (ha : fd.addressed = true → s.latch.addr = some a) (hp : s.phase = φ .csLow)
    (hpay : PayloadOf φ s fd t ((s.consume (headerLength fd)).received fd.n) B O) :
    Reaches (headerLength fd + fd.n + 3) s
      ((((((s.began p fd.clk).exchange (frameBytes fd a t)).setBuf B).setOutputs O).closeBus).goto (φ .csHigh)) := by
  have header := reaches_header hr hb hcs ha hp
  generalize hy : (s.began p fd.clk).exchange ([fd.opc] ++ (if fd.addressed then addressField a else []) ++
      List.replicate fd.d dummyValue) = y at header
  have hb' : (s.began p fd.clk).BusCompletes := hb
  have hyt : y.exchange t = (s.began p fd.clk).exchange (frameBytes fd a t) := by
    rw [← hy, State.exchange_append hb', frameBytes]
  have hcfg : y.cfg = s.cfg := by rw [← hy]; rfl
  have hlatch : y.latch = s.latch := by rw [← hy]; rfl
  have hbuf : y.buf = s.buf := by rw [← hy]; rfl
  have hyb : y.BusCompletes := by rw [← hy]; exact State.completes_exchange hb' _
  have hrec : y.received fd.n = (s.consume (headerLength fd)).received fd.n := by
    have hlen := length_frameBytes fd a []
    rw [frameBytes, List.append_nil, List.length_nil, Nat.add_zero] at hlen
    rw [← hy, ← hlen]
    exact State.received_congr rfl rfl _
  clear hy
  have payload := hpay.effect (x := y.goto (φ (payloadStart fd)))
    (hr.congr hcfg (by rw [State.goto_latch, hlatch]) (by rw [State.goto_latch, hlatch])) hyb hlatch hbuf
    ((State.received_goto ..).trans hrec) rfl
  rw [State.exchange_goto_comm, hyt, State.goto_setBuf_comm, State.goto_setOutputs_comm, State.goto_goto] at payload
  have hcfg' : (y.exchange t).cfg = s.cfg := hcfg
  have hlatch' : (y.exchange t).latch = s.latch := hlatch
  rw [hyt] at hcfg' hlatch'
  generalize (s.began p fd.clk).exchange (frameBytes fd a t) = z at *
  have closed := Running.advance (fd := fd) (φ := φ) (s := ((z.setBuf B).setOutputs O).goto (φ .busEnd)) .csHigh
    (hr.congr hcfg' (show z.latch.op = _ by rw [hlatch']) (show z.latch.n = _ by rw [hlatch'])) rfl rfl rfl
  have all := (header.trans payload).trans closed
  rw [State.closeBus_goto_comm, State.goto_goto, frameCount_eq fd] at all
  exact all

/-- The bracket around a list of exchanges, from a quiescent bus, is one transaction (R122). -/
theorem bracket_eq_transact {s : State} (hl : s.csLevel = .high) (ho : s.busOpen = false) (p : CsId) (clk : Clk)
    (t : List Byte) :
    ((((s.began p clk).exchange t).closeBus).setCs .high).emit (.csHigh p) = s.transact p clk t := by
  have hz : (s.began p clk).received t.length = s.received t.length := State.received_congr rfl rfl _
  refine State.ext ?_ ?_ ?_ ?_ ?_ ?_ ?_ ?_ ?_ ?_ ?_ ?_ ?_ ?_ ?_ <;> simp [hz, hl, ho]
  all_goals simp [State.began, transaction]

end Sys2Proof.Machine
end

