-- ==== Sys2Proof/Laws/Events.lean ====
section
/-! SUPPORT. What one event of the sequencer can do (10_state.md R37): `event_ok`, for every position; what the end of a
transaction can do: `gateDone_ok`, `commandDone_ok`; and that `nextPos` follows R37's diagram: `nextPos_positions`. -/

namespace Sys2Proof.Machine

/-! ## One event -/

/-- What an event changes and what it leaves: the trace grows by it, a latch changes only in the captured bytes. -/
structure Emitted (s t : State) (e : Event) : Prop where
  trace : t.trace = s.trace ++ [e]
  lastStatus : t.lastStatus = s.lastStatus
  responses : t.responses = s.responses
  latch : ∃ o, t.latch = { s.latch with outputs := o }
  phase : t.phase = s.phase
  csId : t.csId = s.csId
  busCfg : t.busCfg = s.busCfg
  cfg : t.cfg = s.cfg
  port : t.port = s.port

theorem xfer_ok {s t : State} {tx rx : Byte} (h : s.xfer tx = .ok (rx, t)) :
    ∃ a d, t = ({ s with answers := a, drawn := d } : State).emit (.xfer tx rx) := by
  unfold State.xfer at h
  split at h <;> cases h
  · exact ⟨_, s.drawn, rfl⟩
  · exact ⟨s.answers, _, rfl⟩

theorem send_ok {s t : State} {tx : Byte} (h : s.send tx = .ok t) :
    ∃ rx, Emitted s t (.xfer tx rx) ∧ t.latch = s.latch := by
  unfold State.send at h
  split at h <;> cases h
  obtain ⟨a, d, rfl⟩ := xfer_ok ‹_›
  exact ⟨_, ⟨rfl, rfl, rfl, ⟨_, rfl⟩, rfl, rfl, rfl, rfl, rfl⟩, rfl⟩

theorem receive_ok {s t : State} {k : Nat} (h : s.receive k = .ok t) :
    ∃ rx, Emitted s t (.xfer readFill rx) ∧ t.latch.outputs = s.latch.outputs ++ [rx] := by
  unfold State.receive at h
  split at h
  · cases h
  · obtain ⟨a, d, rfl⟩ := xfer_ok ‹_›
    unfold State.capture at h
    split at h
    · cases h
      exact ⟨_, ⟨rfl, rfl, rfl, ⟨_, rfl⟩, rfl, rfl, rfl, rfl, rfl⟩, rfl⟩
    · split at h <;> cases h
      exact ⟨_, ⟨rfl, rfl, rfl, ⟨_, rfl⟩, rfl, rfl, rfl, rfl, rfl⟩, rfl⟩

theorem addressBytes_eq (a : Address) : addressBytes a = addrBytes a := by
  simp only [addressBytes, addrBytes, addrByte]
  congr 1
  · apply BitVec.eq_of_toNat_eq; simp [Nat.shiftRight_eq_div_pow]
  · congr 1
    apply BitVec.eq_of_toNat_eq; simp [Nat.shiftRight_eq_div_pow]

/-- The event at a position: the one R37 names there, and its bytes where the position is one of the frame. -/
theorem event_ok {s t : State} {fd : FrameDesc} {tp : TxPos} (h : s.eventAt fd tp = .ok t) :
    ∃ e, Emitted s t e ∧ (tp ∈ positions fd → s.emitsAt fd e tp) ∧
      ((∀ m, tp ≠ .payload m) → t.latch = s.latch) ∧
      (∀ m tx rx, tp = .payload m → fd.dir = .read → e = .xfer tx rx → t.latch.outputs = s.latch.outputs ++ [rx]) := by
  have plain : ∀ e : Event, Emitted s t e → s.emitsAt fd e tp → t.latch = s.latch → (∀ m, tp ≠ .payload m) →
      ∃ e, Emitted s t e ∧ (tp ∈ positions fd → s.emitsAt fd e tp) ∧ ((∀ m, tp ≠ .payload m) → t.latch = s.latch) ∧
        (∀ m tx rx, tp = .payload m → fd.dir = .read → e = .xfer tx rx →
          t.latch.outputs = s.latch.outputs ++ [rx]) :=
    fun e h1 h2 h3 h4 => ⟨e, h1, fun _ => h2, fun _ => h3, fun m _ _ h => absurd h (h4 m)⟩
  cases tp with
  | csLow =>
    simp only [State.eventAt, State.lowerCs] at h
    split at h <;> cases h
    exact plain _ ⟨rfl, rfl, rfl, ⟨_, rfl⟩, rfl, rfl, rfl, rfl, rfl⟩ ⟨_, ‹_›, rfl⟩ rfl nofun
  | csHigh =>
    simp only [State.eventAt, State.raiseCs] at h
    split at h <;> cases h
    exact plain _ ⟨rfl, rfl, rfl, ⟨_, rfl⟩, rfl, rfl, rfl, rfl, rfl⟩ ⟨_, ‹_›, rfl⟩ rfl nofun
  | busBegin => cases h; exact plain _ ⟨rfl, rfl, rfl, ⟨_, rfl⟩, rfl, rfl, rfl, rfl, rfl⟩ rfl rfl nofun
  | busEnd => cases h; exact plain _ ⟨rfl, rfl, rfl, ⟨_, rfl⟩, rfl, rfl, rfl, rfl, rfl⟩ rfl rfl nofun
  | opcode =>
    obtain ⟨rx, h1, h2⟩ := send_ok h
    exact plain _ h1 ⟨rx, rfl⟩ h2 nofun
  | dummy k =>
    obtain ⟨rx, h1, h2⟩ := send_ok h
    exact plain _ h1 ⟨rx, rfl⟩ h2 nofun
  | addr k =>
    simp only [State.eventAt] at h
    split at h
    · obtain ⟨rx, h1, h2⟩ := send_ok h
      refine ⟨_, h1, fun hp => ⟨_, _, rx, ‹_›, ?_, rfl⟩, fun _ => h2, nofun⟩
      have hk : k = 0 ∨ k = 1 ∨ k = 2 := by
        simp only [positions] at hp
        split at hp <;> simp at hp
        exact hp
      rw [addressBytes_eq]
      rcases hk with rfl | rfl | rfl <;> rfl
    · cases h
  | payload k =>
    simp only [State.eventAt] at h
    split at h
    · obtain ⟨rx, h1, h2⟩ := receive_ok h
      exact ⟨_, h1, fun _ => ⟨_, _, fun _ => rfl, rfl⟩, fun hn => absurd rfl (hn k),
        by rintro m tx rx' - - he; cases he; exact h2⟩
    · split at h
      · obtain ⟨rx, h1, h2⟩ := send_ok h
        exact ⟨_, h1, fun _ => ⟨_, _, fun hd => by simp_all, rfl⟩, fun _ => h2, fun _ _ _ _ hd => by simp_all⟩
      · cases h
    · cases h

/-! ## The end of a transaction -/

/-- The end of the gate: bit 0 of the sample decides (R147). -/
theorem gateDone_ok {s t : State} (h : s.gateDone = .ok t) :
    ∃ sample, s.latch.outputs.head? = some sample ∧
      if sample.toNat % 2 = 1 then t = s.returnStatus .busy [] else t = (s.setOutputs []).goto (.cmd 0 .csLow) := by
  unfold State.gateDone at h
  split at h
  · rename_i b r hb
    refine ⟨b, by rw [hb]; rfl, ?_⟩
    have hbf : busyFlag b = decide (b.toNat % 2 = 1) := by
      simp [busyFlag, BitVec.getLsbD, Nat.testBit, Bool.beq_eq_decide_eq]
    rw [hbf] at h
    by_cases hb1 : b.toNat % 2 = 1
    · simp only [hb1, decide_true, if_true] at h ⊢; cases h; rfl
    · simp only [hb1, decide_false] at h ⊢; cases h; rfl
  · cases h

/-- The end of a command transaction: on to the second one of `RESET`, or the return of one response (R137, R146, R161,
R214). -/
theorem commandDone_ok {s t : State} {j : Fin 2} (h : s.commandDone j = .ok t) :
    if s.latch.op = some .reset ∧ j = 0 then t = s.goto (.cmd 1 .csLow)
    else (∃ code data, t = s.returnStatus code data) ∨ ∃ b, t = s.respond (.boolean b) := by
  unfold State.commandDone at h
  split at h <;> rename_i ho <;> simp only [ho]
  · cases h
  · cases h; simp only [Option.some.injEq, reduceCtorEq, false_and, if_false]; exact .inl ⟨_, _, rfl⟩
  · split at h <;> cases h
    simp only [Option.some.injEq, reduceCtorEq, false_and, if_false]; exact .inr ⟨_, rfl⟩
  · split at h <;> cases h <;> simp only [*, and_self, and_false, if_true, if_false]
    exact .inl ⟨_, _, rfl⟩
  · split at h <;> cases h
    simp only [Option.some.injEq, reduceCtorEq, false_and, if_false]; exact .inl ⟨_, _, rfl⟩

/-! ## The order of the positions -/

/-- A list of positions in which `nextPos` leads from each to the one after it. -/
def Follows (fd : FrameDesc) (l : List TxPos) : Prop :=
  ∀ (k : Nat) (tp : TxPos), l[k]? = some tp → nextPos fd tp = l[k + 1]?

theorem Follows.cons {fd : FrameDesc} {tp : TxPos} {l : List TxPos} (h : Follows fd l) (hn : nextPos fd tp = l[0]?) :
    Follows fd (tp :: l) := fun k x hx => by
  cases k with
  | zero => cases hx; simpa using hn
  | succ k => exact h k x (by simpa using hx)

theorem Follows.dummies {fd : FrameDesc} {l : List TxPos} (h : Follows fd l) (hl : l[0]? = some (payloadStart fd)) (m : Nat) :
    ∀ j, j + m = fd.d → Follows fd ((List.range' j m).map .dummy ++ l) ∧
      ((List.range' j m).map TxPos.dummy ++ l)[0]? = some (if j < fd.d then .dummy j else payloadStart fd) := by
  induction m with
  | zero => intro j hj; simp at hj; simp [hj, h, hl]
  | succ m ih =>
    intro j hj
    obtain ⟨h1, h2⟩ := ih (j + 1) (by omega)
    refine ⟨h1.cons (by rw [h2]; rfl), ?_⟩
    simp [List.range'_succ, show j < fd.d by omega]

theorem Follows.payloads {fd : FrameDesc} {l : List TxPos} (h : Follows fd l) (hl : l[0]? = some .busEnd) (m : Nat) :
    ∀ j, j + m = fd.n → Follows fd ((List.range' j m).map .payload ++ l) ∧
      ((List.range' j m).map TxPos.payload ++ l)[0]? = some (if j < fd.n then .payload j else .busEnd) := by
  induction m with
  | zero => intro j hj; simp at hj; simp [hj, h, hl]
  | succ m ih =>
    intro j hj
    obtain ⟨h1, h2⟩ := ih (j + 1) (by omega)
    refine ⟨h1.cons (by rw [h2]; rfl), ?_⟩
    simp [List.range'_succ, show j < fd.n by omega]

/-- `nextPos` follows R37's diagram, and nothing follows its last position. -/
theorem nextPos_positions (fd : FrameDesc) : Follows fd (positions fd) := by
  have h0 : Follows fd [.busEnd, .csHigh] := .cons (.cons (fun _ _ h => by simp at h) rfl) rfl
  obtain ⟨h1, e1⟩ := h0.payloads rfl fd.n 0 (by omega)
  obtain ⟨h2, e2⟩ := h1.dummies e1 fd.d 0 (by omega)
  unfold positions
  rw [List.range_eq_range', List.range_eq_range', List.append_assoc, List.append_assoc, List.append_assoc]
  generalize (List.range' 0 fd.d).map TxPos.dummy ++ ((List.range' 0 fd.n).map TxPos.payload ++ [.busEnd, .csHigh]) = l at h2 e2 ⊢
  cases ha : fd.addressed with
  | false =>
    have hn : nextPos fd .opcode = l[0]? := by rw [e2, nextPos, addressStart, ha]; rfl
    exact .cons (.cons (.cons h2 hn) rfl) rfl
  | true =>
    have hn : nextPos fd (.addr 2) = l[0]? := by rw [e2]; rfl
    have ho : nextPos fd .opcode = some (.addr 0) := by rw [nextPos, addressStart, ha]; rfl
    exact .cons (.cons (.cons (.cons (.cons (.cons h2 hn) rfl) rfl) ho) rfl) rfl

end Sys2Proof.Machine
end

