-- ==== Sys2Proof/Laws/Frames.lean ====
section
/-! SUPPORT. The small lemmas of the decoder and the encoder (30_encoding.md R90 to R100). -/

namespace Sys2Proof

/-- The opcode table lists the opcode of every operation, in the row order of R96. -/
theorem opcodes_eq_toList (c : Config) : WireOp.all.map (opcodeOf c) = c.opc.toList := rfl

theorem WireOp.mem_all (op : WireOp) : op ∈ WireOp.all := by
  cases op <;> decide

theorem opcodeOf_mem_toList (c : Config) (op : WireOp) : opcodeOf c op ∈ c.opc.toList := by
  rw [← opcodes_eq_toList]
  exact List.mem_map_of_mem op.mem_all

/-- With distinct opcodes (R98) the opcode identifies the operation. -/
theorem opOfByte_opcodeOf {c : Config} (h : c.Distinct) (op : WireOp) : opOfByte c (opcodeOf c op) = some op := by
  have inj := List.inj_on_of_nodup_map (show (WireOp.all.map (opcodeOf c)).Nodup from h)
  rw [opOfByte]
  rcases hf : WireOp.all.find? (fun o => opcodeOf c o == opcodeOf c op) with - | o
  · exact absurd (List.find?_eq_none.mp hf op op.mem_all) (by simp)
  · rw [inj (List.mem_of_find?_eq_some hf) op.mem_all (by simpa using List.find?_some hf)]

theorem opcodeOf_of_opOfByte {c : Config} {b : Byte} {op : WireOp} (h : opOfByte c b = some op) :
    opcodeOf c op = b := by
  simpa using List.find?_some h

theorem clkOf_eq_read {op : WireOp} (h : clkOf op = .read) : op = .readData := by
  cases op <;> simp [clkOf] at h
  rfl

theorem length_of_dir_none {op : WireOp} (h : dirOf op = .none) : fixedLength op = some 0 := by
  cases op <;> simp [dirOf] at h <;> rfl

/-- The decoder puts together what the encoder took apart (R94, R99). -/
theorem addressOf_field (a : Address) :
    addressOf (a.extractLsb' 16 8) (a.extractLsb' 8 8) (a.extractLsb' 0 8) = low24 a := by
  unfold addressOf low24
  apply BitVec.eq_of_getLsbD_eq
  intro i hi
  have mask : ∀ i < 32, (0x00FFFFFF : BitVec 32).getLsbD i = decide (i < 24) := by decide
  simp only [BitVec.getLsbD_append, BitVec.getLsbD_extractLsb', BitVec.getLsbD_and, mask i hi]
  by_cases h1 : i < 8
  · simp [h1, show i < 24 by omega]
  by_cases h2 : i < 16
  · simp [h1, show i - 8 < 8 by omega, show i < 24 by omega, show 8 + (i - 8) = i by omega]
  by_cases h3 : i < 24
  · simp [h1, h3, show ¬ i - 8 < 8 by omega, show i - 8 - 8 < 8 by omega, show 16 + (i - 8 - 8) = i by omega]
  · simp [h1, h3, show ¬ i - 8 < 8 by omega, show ¬ i - 8 - 8 < 8 by omega]

theorem dropDummies_replicate (d : Nat) (t : List Byte) :
    dropDummies d (List.replicate d dummyValue ++ t) = .ok t := by
  induction d with
  | zero => rfl
  | succ d ih => simp [List.replicate_succ, dropDummies, ih]

theorem eq_of_dropDummies {d : Nat} {t p : List Byte} (h : dropDummies d t = .ok p) :
    t = List.replicate d dummyValue ++ p := by
  induction d generalizing t with
  | zero =>
    simp only [dropDummies, Except.ok.injEq] at h
    simp [h]
  | succ d ih =>
    cases t with
    | nil => simp [dropDummies] at h
    | cons b t =>
      simp only [dropDummies] at h
      split at h
      · rename_i hb
        rw [hb, List.replicate_succ, List.cons_append, ← ih h]
      · simp at h

end Sys2Proof
end

