-- ==== Sys2Proof/Laws/Operations.lean ====
section
/-! SUPPORT. What a whole transaction of an operation does, its end included: the gate's (R147) and a command's (R137).
A proof about an operation chains these and never unfolds the sequencer. -/

namespace Sys2Proof.Machine

/-- Leaving a transaction: `CsHigh`, then what the end of the stage does. -/
theorem tick_gate_last {s u : State} {p : CsId} (hp : s.phase = .gate .csHigh) (hcs : s.csId = some p)
    (hd : ((s.setCs .high).emit (.csHigh p)).gateDone = .ok u) : s.tick = .ok u := by
  simp only [State.tick, hp, State.eventAt, State.raiseCs, hcs, nextPos, hd]

theorem tick_command_last {s u : State} {p : CsId} {fd : FrameDesc} {j : Fin 2} (hp : s.phase = .cmd j .csHigh)
    (hcs : s.csId = some p) (hf : s.commandDesc j = some fd)
    (hd : ((s.setCs .high).emit (.csHigh p)).commandDone j = .ok u) : s.tick = .ok u := by
  simp only [State.tick, hp, hf, State.eventAt, State.raiseCs, hcs, nextPos, hd]

/-- The state at the end of a transaction, its last event made, in terms of `State.transact`. -/
theorem closed_eq_transact {s : State} (hl : s.csLevel = .high) (ho : s.busOpen = false) (p : CsId) (clk : Clk)
    (t O : List Byte) (B : TransferBuffer) (ph : Phase) :
    ((((((((s.began p clk).exchange t).setBuf B).setOutputs O).closeBus).goto ph).setCs .high).emit (.csHigh p)) =
      (((s.transact p clk t).setBuf B).setOutputs O).goto ph := by
  rw [← bracket_eq_transact hl ho p clk t]
  rfl

/-- One command transaction, from its `CsLow` to what its end does (R137). -/
theorem reaches_command {s u : State} {p : CsId} {fd : FrameDesc} {j : Fin 2} {a : Address} {t O : List Byte}
    {B : TransferBuffer} (hf : s.commandDesc j = some fd) (hb : s.BusCompletes) (hcs : s.csId = some p)
    (hl : s.csLevel = .high) (ho : s.busOpen = false) (ha : fd.addressed = true → s.latch.addr = some a)
    (hp : s.phase = .cmd j .csLow)
    (hpay : PayloadOf (Phase.cmd j) s fd t ((s.consume (headerLength fd)).received fd.n) B O)
    (hu : ((((s.transact p fd.clk (frameBytes fd a t)).setBuf B).setOutputs O).goto (.cmd j .csHigh)).commandDone j =
      .ok u) :
    Reaches (headerLength fd + fd.n + 4) s u := by
  have frame := reaches_frame (.inr ⟨j, rfl, hf⟩) hb hcs ha hp hpay
  have hclosed := closed_eq_transact hl ho p fd.clk (frameBytes fd a t) O B (.cmd j .csHigh)
  rw [← hclosed] at hu
  generalize hz : (((((s.began p fd.clk).exchange (frameBytes fd a t)).setBuf B).setOutputs O).closeBus).goto
    (.cmd j .csHigh) = z at *
  have hzp : z.phase = .cmd j .csHigh := by rw [← hz, State.goto_phase]
  have hzc : z.csId = some p := by rw [← hz, ← hcs]; simp [State.began]
  have hzf : z.commandDesc j = some fd := by
    rw [← hf]
    exact State.commandDesc_congr (by rw [← hz]; simp [State.began]) (by rw [← hz]; simp [State.began])
      (by rw [← hz]; simp [State.began]) j
  clear hz hclosed
  exact (frame.trans (Reaches.one (tick_command_last hzp hzc hzf hu))).congr (by omega) rfl

/-- The gate (R147): one status read, then `BUSY`, or on to the command. -/
theorem reaches_gate {s : State} {p : CsId} (hb : s.BusCompletes) (hcs : s.csId = some p) (hl : s.csLevel = .high)
    (ho : s.busOpen = false) (hout : s.latch.outputs = []) (hp : s.phase = .gate .csLow) :
    Reaches 6 s
      (if busyFlag (s.answer 1) then (s.transact p .default (gateFrame s.cfg)).returnStatus .busy []
       else (s.transact p .default (gateFrame s.cfg)).goto (.cmd 0 .csLow)) := by
  have hrec : (s.consume 1).received 1 = [s.answer 1] := by
    simp [State.received, List.range_succ, State.answer_consume hb]
  have frame := reaches_frame (a := 0) (.inl ⟨rfl, rfl⟩) hb hcs
    (fun h => by simp [gateDesc, descriptor, isAddressed] at h) hp
    (PayloadOf.outputs rfl (.inl rfl) (State.length_received ..))
  have hO : s.latch.outputs ++ (s.consume (headerLength (gateDesc s.cfg))).received (gateDesc s.cfg).n =
      [s.answer 1] := by
    rw [hout, List.nil_append]
    exact hrec
  have ht : frameBytes (gateDesc s.cfg) 0 (List.replicate (gateDesc s.cfg).n readFill) = gateFrame s.cfg := rfl
  rw [hO, ht] at frame
  have hclosed := closed_eq_transact hl ho p (gateDesc s.cfg).clk (gateFrame s.cfg) [s.answer 1] s.buf (.gate .csHigh)
  generalize hz : (((((s.began p (gateDesc s.cfg).clk).exchange (gateFrame s.cfg)).setBuf s.buf).setOutputs
    [s.answer 1]).closeBus).goto (.gate .csHigh) = z at *
  have hzp : z.phase = .gate .csHigh := by rw [← hz, State.goto_phase]
  have hzc : z.csId = some p := by rw [← hz, ← hcs]; simp [State.began]
  clear hz
  have done : (((((s.transact p .default (gateFrame s.cfg)).setBuf s.buf).setOutputs [s.answer 1]).goto
      (.gate .csHigh))).gateDone = .ok (if busyFlag (s.answer 1) then
        (s.transact p .default (gateFrame s.cfg)).returnStatus .busy []
        else (s.transact p .default (gateFrame s.cfg)).goto (.cmd 0 .csLow)) := by
    have hself : (s.transact p .default (gateFrame s.cfg)).setOutputs [] = s.transact p .default (gateFrame s.cfg) := by
      rw [← hout]
      exact State.setOutputs_self (s.transact p .default (gateFrame s.cfg))
    simp only [State.gateDone, State.goto_latch, State.setOutputs_latch]
    split
    · rfl
    · rw [State.goto_setOutputs_comm, State.goto_goto, State.setOutputs_setOutputs]
      exact congrArg (fun x => Except.ok (State.goto x (.cmd 0 .csLow))) hself
  rw [show (gateDesc s.cfg).clk = Clk.default from rfl] at hclosed
  rw [← hclosed] at done
  exact (frame.trans (Reaches.one (tick_gate_last hzp hzc done))).congr rfl rfl

/-! ## Acceptance and the end -/

theorem quiescent_cases {s : State} (h : s.quiescent = true) :
    s.phase = .idle ∧ s.csLevel = .high ∧ s.busOpen = false ∧ s.latch = Latches.empty := by
  simpa [State.quiescent] using h

theorem runTicks_idle (k : Nat) {s : State} (h : s.phase = .idle) : runTicks k s = s := by
  cases k with
  | zero => rfl
  | succ k => simp [runTicks, State.tick, h]

/-! ## The command transaction of a wire operation -/

/-- The call a wire operation is (R103). -/
def callOf (i : Instr) : Call where
  op := .wire i.op
  addr := i.addr?
  n := i.span?.map Prod.fst
  buf := i.span?.map Prod.snd
  val := i.val?

/-- Every meaning is the issue of its call. -/
theorem exec_eq_issue (i : Instr) (s : State) : exec i s = issue (callOf i) s := by
  cases i <;> rfl

/-- The latches of an accepted wire operation (R31). -/
def latchesOf (i : Instr) : Latches where
  op := some (.wire i.op)
  addr := i.addr?
  n := i.span?.map Prod.fst
  buf := (i.span?.map Prod.snd).map (fun b => { len := b.length })
  val := i.val?
  cs := none
  outputs := []

theorem payloadLength_op (i : Instr) : payloadLength i.op (i.span?.map Prod.fst) = some i.length := by
  cases i <;> rfl

theorem commandDesc_of_latches {i : Instr} {g : State} (hl : g.latch = latchesOf i) :
    g.commandDesc 0 = some (descriptor g.cfg i.op i.length) := by
  simp [State.commandDesc, hl, latchesOf, OpName.frameOf, payloadLength_op]

theorem length_of_span {i : Instr} {n : Nat} {b : List Byte} (h : i.span? = some (n, b)) : i.length = n := by
  cases i <;> simp [Instr.span?] at h <;>
    simp [Instr.length, payloadLength, fixedLength, Instr.op, Instr.span?, h]

theorem le_of_wellFormed {c : Config} {i : Instr} {n : Nat} {b : List Byte} (h : i.wellFormed c = true)
    (hs : i.span? = some (n, b)) : n ≤ b.length := by
  simp only [Instr.wellFormed, hs, fitsBuffer, Bool.and_eq_true, decide_eq_true_eq] at h
  exact h.1

theorem val_of_span_some {i : Instr} {x : Nat × List Byte} (h : i.span? = some x) : i.val? = none := by
  cases i <;> simp [Instr.span?] at h <;> rfl

theorem val_of_write {i : Instr} (hd : dirOf i.op = .write) (hs : i.span? = none) : ∃ v, i.val? = some v := by
  cases i <;> simp [dirOf, Instr.op] at hd <;> simp [Instr.val?] <;> simp [Instr.span?] at hs

/-- The payload part of a command frame (R138). -/
def payloadOf (i : Instr) : List Byte :=
  match dirOf i.op with
  | .write => i.payload.take i.length
  | .read => List.replicate i.length readFill
  | .none => []

theorem encode_eq_frameBytes (c : Config) (i : Instr) :
    encode c i = frameBytes (descriptor c i.op i.length) (i.addr?.getD 0) (payloadOf i) := rfl

/-- What the payload of the command transaction does (R135, R136). -/
theorem payload_of_command {i : Instr} {g : State} (hwf : i.wellFormed g.cfg = true) (hl : g.latch = latchesOf i)
    (hb : g.BusCompletes) (hbuf : ∀ n b, i.span? = some (n, b) → g.buf = TransferBuffer.ofBytes b) :
    PayloadOf (Phase.cmd 0) g (descriptor g.cfg i.op i.length) (payloadOf i)
      ((g.consume (headerLength (descriptor g.cfg i.op i.length))).received i.length) (g.filled i) (g.captured i) := by
  have hout : g.latch.outputs = [] := by rw [hl]; rfl
  cases hd : dirOf i.op with
  | none =>
    have h0 : i.length = 0 := by simp [Instr.length, payloadLength, length_of_dir_none hd]
    have p := PayloadOf.empty (φ := Phase.cmd 0) (s := g) (fd := descriptor g.cfg i.op i.length)
      (r := (g.consume (headerLength (descriptor g.cfg i.op i.length))).received i.length) h0
    rw [hout] at p
    simpa only [payloadOf, State.captured, State.filled, hd] using p
  | write =>
    have hlen : (i.payload.take i.length).length = i.length := by
      cases hs : i.span? with
      | none =>
        obtain ⟨v, hv⟩ := val_of_write hd hs
        cases i <;> simp [Instr.val?] at hv <;> rfl
      | some x =>
        obtain ⟨n, b⟩ := x
        have := le_of_wellFormed hwf hs
        simp only [length_of_span hs, Instr.payload, val_of_span_some hs, hs, List.length_take]
        omega
    have p := PayloadOf.write (φ := Phase.cmd 0) (s := g) (fd := descriptor g.cfg i.op i.length)
      (t := i.payload.take i.length)
      (r := (g.consume (headerLength (descriptor g.cfg i.op i.length))).received i.length) hd hlen ?_
    · rw [hout] at p
      simpa only [payloadOf, State.captured, State.filled, hd] using p
    intro k hk
    cases hs : i.span? with
    | none =>
      obtain ⟨v, hv⟩ := val_of_write hd hs
      have hp : i.payload.take i.length = [v] := by
        cases i <;> simp [Instr.val?] at hv <;> simp [hv, Instr.payload, Instr.val?] <;> rfl
      simp [State.payloadByte, hl, latchesOf, hs, hv, hp]
    | some x =>
      obtain ⟨n, b⟩ := x
      have hp : i.payload = b.take n := by simp [Instr.payload, val_of_span_some hs, hs]
      have hk' : k < b.length := by
        simp only [hp, length_of_span hs, List.length_take] at hk
        omega
      simp only [State.payloadByte, hl, latchesOf, hs, Option.map_some, hbuf n b hs, TransferBuffer.read_ofBytes b hk']
      simp [hp, length_of_span hs]
  | read =>
    have hcap : g.captured i =
        (g.consume (headerLength (descriptor g.cfg i.op i.length))).received i.length := by
      have hL : (encode g.cfg i).length = headerLength (descriptor g.cfg i.op i.length) + i.length := by
        rw [encode_eq_frameBytes, length_frameBytes]
        simp [payloadOf, hd]
      simp only [State.captured, hd, hL, Nat.add_sub_cancel]
      rw [State.received_add hb, List.drop_left' (by simp)]
    cases hs : i.span? with
    | none =>
      have p := PayloadOf.outputs (φ := Phase.cmd 0) (s := g) (fd := descriptor g.cfg i.op i.length)
        (r := (g.consume (headerLength (descriptor g.cfg i.op i.length))).received i.length) hd
        (.inr (by rw [hl]; simp [latchesOf, hs])) (by simp [descriptor])
      rw [hout, List.nil_append, ← hcap] at p
      rw [← hcap]
      have hn : (descriptor g.cfg i.op i.length).n = i.length := rfl
      simpa only [payloadOf, State.filled, hd, hs, hn] using p
    | some x =>
      obtain ⟨n, b⟩ := x
      have p := PayloadOf.buffer (j := 0) (s := g) (fd := descriptor g.cfg i.op i.length)
        (r := (g.consume (headerLength (descriptor g.cfg i.op i.length))).received i.length) (bs := b)
        (ref := { len := b.length }) hd (by rw [hl]; simp [latchesOf, hs]) (hbuf n b hs)
        (by show i.length ≤ b.length; rw [length_of_span hs]; exact le_of_wellFormed hwf hs) (by simp [descriptor])
      rw [hout, List.nil_append, ← hcap] at p
      rw [← hcap]
      have hn : (descriptor g.cfg i.op i.length).n = n := length_of_span hs
      rw [hn] at p
      simpa only [payloadOf, State.filled, hd, hs, length_of_span hs] using p

/-- The command transaction of a wire operation, from its `CsLow` to its return (R137). -/
theorem reaches_return {i : Instr} {g : State} {p : CsId} (hwf : i.wellFormed g.cfg = true)
    (hl : g.latch = latchesOf i) (hp : g.phase = .cmd 0 .csLow) (hcl : g.csLevel = .high) (hbo : g.busOpen = false)
    (hb : g.BusCompletes) (hcs : g.csId = some p)
    (hbuf : ∀ n b, i.span? = some (n, b) → g.buf = TransferBuffer.ofBytes b) :
    Reaches (frameEvents (descriptor g.cfg i.op i.length)) g
      (((g.transact p (clkOf i.op) (encode g.cfg i)).setBuf (g.filled i)).returnStatus .ok (g.captured i)) := by
  have ha : (descriptor g.cfg i.op i.length).addressed = true → g.latch.addr = some (i.addr?.getD 0) := by
    intro h
    rw [hl]
    cases i <;> first | rfl | (simp [descriptor, isAddressed, Instr.op] at h)
  refine (reaches_command (commandDesc_of_latches hl) hb hcs hcl hbo ha hp (payload_of_command hwf hl hb hbuf)
    ?_).congr rfl rfl
  rw [← encode_eq_frameBytes]
  simp only [State.commandDone, State.goto_latch, State.setOutputs_latch, State.setBuf_latch, State.transact_latch, hl,
    latchesOf]
  rfl

end Sys2Proof.Machine
end

