-- ==== Sys2Proof/Laws/Invariant.lean ====
section
/-! SUPPORT. The invariant of 10_state.md R54 under one event of the sequencer. A proof about a run cites `tick_cases`
and never unfolds the sequencer. -/

namespace Sys2Proof.Machine

theorem scan_append (c : Config) (b : Bracket) (es fs : List Event) : scan c b (es ++ fs) = (scan c b es).bind (fun b' => scan c b' fs) := by
  induction es generalizing b with
  | nil => rfl
  | cons e es ih => simp only [List.cons_append, scan]; cases Bracket.next c b e <;> simp [ih]

theorem scan_snoc {c : Config} {b b' b'' : Bracket} {es : List Event} {e : Event} (h : scan c b es = some b') (h' : Bracket.next c b' e = some b'') :
    scan c b (es ++ [e]) = some b'' := by
  rw [scan_append, h]; simp [scan, h']

/-- What a running transaction needs of the latches, the buffer and the configuration. -/
structure FrameFits (s : State) (fd : FrameDesc) : Prop where
  cs : s.csId.isSome = true
  addr : fd.addressed = true → s.latch.addr.isSome = true
  opc : fd.opc ∈ s.cfg.opc.toList
  clk : fd.clk = .read → fd.opc = opcodeOf s.cfg .readData
  dirn : fd.dir = .none → fd.n = 0
  rd : fd.dir = .read → ∀ r, s.sink = some r → fd.n ≤ s.buf.len
  wr : fd.dir = .write → ∀ k < fd.n, ∃ b, s.payloadByte k = .ok b
  buf : s.buf.wf

/-- The lines, the captured bytes and the trace agree with a position (R54). -/
structure Standing (s : State) (fd : FrameDesc) (tp : TxPos) : Prop where
  inF : tp.inFrame fd = true
  lines : (s.csLevel, s.busOpen, s.busClk) = linesAt fd tp
  outs : s.latch.outputs.length = capturedBefore fd tp
  sc : scan s.cfg .outside s.trace = some (bracketAt fd tp)

/-- The bus is as it is between transactions (R54 (b)). -/
structure Closed (s : State) : Prop where
  lines : (s.csLevel, s.busOpen, s.busClk) = (.high, false, none)
  sc : scan s.cfg .outside s.trace = some .outside

/-- What an event leaves as it was. -/
structure Kept (s s' : State) : Prop where
  cfg : s'.cfg = s.cfg
  cs : s'.csId = s.csId
  len : s'.buf.len = s.buf.len
  wf : s'.buf.wf
  latch : ∃ o, s'.latch = { s.latch with outputs := o }

theorem xfer_cases (s : State) (tx : Byte) : s.xfer tx = .error .stalled ∨ ∃ (b : Byte) (s1 : State), s.xfer tx = .ok (b, s1.emit (.xfer tx b)) ∧
    s1 = { s with answers := s1.answers, drawn := s1.drawn } := by
  unfold State.xfer
  split
  · exact .inl rfl
  · exact .inr ⟨_, _, rfl, rfl⟩
  · exact .inr ⟨_, _, rfl, rfl⟩

theorem send_cases (s : State) (tx : Byte) : s.send tx = .error .stalled ∨ ∃ (b : Byte) (s1 : State), s.send tx = .ok (s1.emit (.xfer tx b)) ∧
    s1 = { s with answers := s1.answers, drawn := s1.drawn } := by
  unfold State.send
  rcases xfer_cases s tx with h | ⟨b, s1, h, h'⟩
  · simp [h]
  · rw [h]; exact .inr ⟨b, s1, rfl, h'⟩

/-- An exchange whose answer is discarded. -/
theorem send_fits {s : State} {fd : FrameDesc} {tp tp' : TxPos} {tx : Byte} (hf : FrameFits s fd) (hat : Standing s fd tp) (hin : tp'.inFrame fd = true)
    (hl : linesAt fd tp' = linesAt fd tp) (ho : capturedBefore fd tp' = capturedBefore fd tp)
    (hn : ∀ b, Bracket.next s.cfg (bracketAt fd tp) (.xfer tx b) = some (bracketAt fd tp')) :
    s.send tx = .error .stalled ∨ ∃ s', s.send tx = .ok s' ∧ Kept s s' ∧ Standing s' fd tp' := by
  rcases send_cases s tx with h | ⟨b, s1, h, h'⟩
  · exact .inl h
  · refine .inr ⟨_, h, ?_, ?_⟩
    · rw [h']; exact ⟨rfl, rfl, rfl, hf.buf, _, rfl⟩
    · rw [h']; exact ⟨hin, by rw [hl]; exact hat.lines, by rw [ho]; exact hat.outs, scan_snoc hat.sc (hn b)⟩

theorem payloadStart_inFrame (fd : FrameDesc) : (payloadStart fd).inFrame fd = true := by
  unfold payloadStart; split <;> simp [TxPos.inFrame]; assumption
theorem dummyStart_inFrame (fd : FrameDesc) : (dummyStart fd).inFrame fd = true := by
  unfold dummyStart; split
  · simp [TxPos.inFrame]; assumption
  · exact payloadStart_inFrame fd
theorem addressStart_inFrame (fd : FrameDesc) : (addressStart fd).inFrame fd = true := by
  unfold addressStart; split
  · simp [TxPos.inFrame]; assumption
  · exact dummyStart_inFrame fd

theorem payloadStart_facts (fd : FrameDesc) : linesAt fd (payloadStart fd) = (.low, true, some fd.clk) ∧ capturedBefore fd (payloadStart fd) = 0 ∧ bracketAt fd (payloadStart fd) = .talking := by
  unfold payloadStart; split <;> simp [linesAt, capturedBefore, bracketAt]; omega
theorem dummyStart_facts (fd : FrameDesc) : linesAt fd (dummyStart fd) = (.low, true, some fd.clk) ∧ capturedBefore fd (dummyStart fd) = 0 ∧ bracketAt fd (dummyStart fd) = .talking := by
  unfold dummyStart; split
  · simp [linesAt, capturedBefore, bracketAt]
  · exact payloadStart_facts fd
theorem addressStart_facts (fd : FrameDesc) : linesAt fd (addressStart fd) = (.low, true, some fd.clk) ∧ capturedBefore fd (addressStart fd) = 0 ∧ bracketAt fd (addressStart fd) = .talking := by
  unfold addressStart; split
  · simp [linesAt, capturedBefore, bracketAt]
  · exact dummyStart_facts fd

/-- One event of a transaction: the bus stalls, or the state stands at the next position. -/
theorem event_cases {s : State} {fd : FrameDesc} {tp : TxPos} (hf : FrameFits s fd) (hat : Standing s fd tp) :
    s.eventAt fd tp = .error .stalled ∨ ∃ s', s.eventAt fd tp = .ok s' ∧ Kept s s' ∧
      match nextPos fd tp with
      | some tp' => Standing s' fd tp'
      | none => Closed s' ∧ s'.latch.outputs.length = if fd.dir = .read then fd.n else 0 := by
  obtain ⟨p, hp⟩ := Option.isSome_iff_exists.mp hf.cs
  cases tp with
  | csLow =>
    refine .inr ⟨(s.setCs .low).emit (.csLow p), by simp only [State.eventAt, State.lowerCs, hp], ⟨rfl, rfl, rfl, hf.buf, _, rfl⟩, ?_⟩
    have := hat.lines
    simp only [linesAt, Prod.mk.injEq] at this
    exact ⟨rfl, by simp [linesAt, this], hat.outs, scan_snoc hat.sc rfl⟩
  | busBegin =>
    refine .inr ⟨_, rfl, ⟨rfl, rfl, rfl, hf.buf, _, rfl⟩, ?_⟩
    have := hat.lines
    simp only [linesAt, Prod.mk.injEq] at this
    exact ⟨rfl, by simp [linesAt, this], hat.outs, scan_snoc hat.sc rfl⟩
  | opcode =>
    have := addressStart_facts fd
    exact send_fits hf hat (addressStart_inFrame fd) (this.1.trans rfl) (this.2.1.trans rfl) (by
      intro b
      rw [this.2.2]
      show (if fd.opc ∈ s.cfg.opc.toList ∧ (fd.clk = .read → fd.opc = opcodeOf s.cfg .readData) then some Bracket.talking else none) = _
      rw [if_pos ⟨hf.opc, hf.clk⟩])
  | addr k =>
    have hin := hat.inF
    simp only [TxPos.inFrame, Bool.and_eq_true, decide_eq_true_eq] at hin
    obtain ⟨a, ha⟩ := Option.isSome_iff_exists.mp (hf.addr hin.1)
    have := dummyStart_facts fd
    simp only [State.eventAt, ha, nextPos]
    split
    · exact send_fits hf hat (by simp [TxPos.inFrame, *]) rfl rfl (fun b => rfl)
    · exact send_fits hf hat (dummyStart_inFrame fd) (this.1.trans rfl) (this.2.1.trans rfl) (by intro b; rw [this.2.2]; rfl)
  | dummy k =>
    have := payloadStart_facts fd
    simp only [State.eventAt, nextPos]
    split
    · exact send_fits hf hat (by simpa [TxPos.inFrame]) rfl rfl (fun b => rfl)
    · exact send_fits hf hat (payloadStart_inFrame fd) (this.1.trans rfl) (this.2.1.trans rfl) (by intro b; rw [this.2.2]; rfl)
  | payload k =>
    have hin := hat.inF
    simp only [TxPos.inFrame, decide_eq_true_eq] at hin
    cases hd : fd.dir with
    | none => have := hf.dirn hd; omega
    | write =>
      obtain ⟨b, hb⟩ := hf.wr hd k hin
      simp only [State.eventAt, nextPos, hd, hb]
      split
      · exact send_fits hf hat (by simpa [TxPos.inFrame]) rfl (by simp [capturedBefore, hd]) (fun b => rfl)
      · exact send_fits hf hat rfl rfl (by simp [capturedBefore, hd]) (fun b => rfl)
    | read =>
      simp only [State.eventAt, nextPos, hd]
      unfold State.receive
      rcases xfer_cases s readFill with h | ⟨b, s1, h, h'⟩
      · exact .inl (by rw [h])
      · refine .inr ?_
        rw [h]
        have hlat : s1.latch = s.latch := by rw [h']
        have hph : s1.phase = s.phase := by rw [h']
        have hcf : s1.cfg = s.cfg := by rw [h']
        have hci : s1.csId = s.csId := by rw [h']
        have hbl : s1.buf.len = s.buf.len := by rw [h']
        have hsink : (s1.emit (.xfer readFill b)).sink = s.sink := by
          simp [State.sink, hph, hlat]
        simp only [State.capture, hsink]
        have hsc : scan s1.cfg .outside (s1.trace ++ [.xfer readFill b]) = some .talking := by
          rw [h']; exact scan_snoc hat.sc rfl
        have hln := hat.lines
        have hout := hat.outs
        simp only [capturedBefore, hd, if_true] at hout
        cases hs : s.sink with
        | none =>
          refine ⟨_, rfl, ⟨by simp [hcf], by simp [hci], by simp [hbl], ?_, ?_⟩, ?_⟩
          · have := hf.buf; rw [h']; exact this
          · rw [h']; exact ⟨_, rfl⟩
          · have hl' : (s1.csLevel, s1.busOpen, s1.busClk) = linesAt fd (.payload k) := by rw [h']; exact hln
            split
            · exact ⟨by simpa [TxPos.inFrame], hl', by simp [capturedBefore, hd, hlat, hout], hsc⟩
            · exact ⟨rfl, hl', by simp [capturedBefore, hd, hlat, hout]; omega, hsc⟩
        | some r =>
          have hk : k < s.buf.len := Nat.lt_of_lt_of_le hin (hf.rd hd r hs)
          have hb1 : s1.buf = s.buf := by rw [h']
          have hw : (s1.emit (.xfer readFill b)).buf.write k b = some { s.buf with cells := Memory.write s.buf.cells k b } := by
            simp [TransferBuffer.write, hb1, hk]
          simp only [hw]
          have hwf : (TransferBuffer.mk s.buf.len (Memory.write s.buf.cells k b)).wf := by
            refine ⟨Memory.wf_write hf.buf.1 _ _, ?_⟩
            intro p hp
            rcases Memory.mem_write hp with h | h
            · exact hf.buf.2 p h
            · rw [h.1]; exact hk
          refine ⟨_, rfl, ⟨by simp [hcf], by simp [hci], rfl, hwf, ?_⟩, ?_⟩
          · exact ⟨s1.latch.outputs ++ [b], by simp [State.setOutputs, hlat]⟩
          · have hl' : (s1.csLevel, s1.busOpen, s1.busClk) = linesAt fd (.payload k) := by rw [h']; exact hln
            split
            · exact ⟨by simpa [TxPos.inFrame], hl', by simp [capturedBefore, hd, hlat, hout], hsc⟩
            · exact ⟨rfl, hl', by simp [capturedBefore, hd, hlat, hout]; omega, hsc⟩
  | busEnd =>
    refine .inr ⟨_, rfl, ⟨rfl, rfl, rfl, hf.buf, _, rfl⟩, ?_⟩
    have := hat.lines
    simp only [linesAt, Prod.mk.injEq] at this
    exact ⟨rfl, by simp [linesAt, this], hat.outs, scan_snoc hat.sc rfl⟩
  | csHigh =>
    refine .inr ⟨(s.setCs .high).emit (.csHigh p), by simp only [State.eventAt, State.raiseCs, hp], ⟨rfl, rfl, rfl, hf.buf, _, rfl⟩, ?_⟩
    have := hat.lines
    simp only [linesAt, Prod.mk.injEq] at this
    exact ⟨⟨by simp [this], scan_snoc hat.sc rfl⟩, hat.outs⟩

theorem latchesFit_congr {s t : State} (hl : ∃ o, t.latch = { s.latch with outputs := o }) (hb : t.buf.len = s.buf.len) (o : OpName) :
    t.latchesFit o = s.latchesFit o := by
  obtain ⟨x, hx⟩ := hl
  cases o <;> simp only [State.latchesFit, hx, hb]

/-- The gate's transaction has what it needs. -/
theorem fits_gate {s : State} {tp : TxPos} (hp : s.phase = .gate tp) (hc : s.csId.isSome = true) (hw : s.buf.wf) : FrameFits s (gateDesc s.cfg) where
  cs := hc
  addr := by simp [gateDesc, descriptor, isAddressed]
  opc := opcodeOf_mem_toList s.cfg .readSr1
  clk := by simp [gateDesc, descriptor, clkOf]
  dirn := by simp [gateDesc, descriptor, dirOf]
  rd := by intro _ r h; rw [State.sink_gate hp] at h; simp at h
  wr := by simp [gateDesc, descriptor, dirOf]
  buf := hw

/-- A command transaction has what it needs. -/
theorem fits_cmd {s : State} {j : Fin 2} {tp : TxPos} {o : OpName} (hp : s.phase = .cmd j tp) (ho : s.latch.op = some o) (hc : s.csId.isSome = true) (hw : s.buf.wf)
    (hl : s.latchesFit o = true) : ∃ fd, s.commandDesc j = some fd ∧ FrameFits s fd ∧ ∃ m, fd = descriptor s.cfg (o.frameOf j) m ∧ payloadLength (o.frameOf j) s.latch.n = some m := by
  have hsink := State.sink_cmd hp
  have special : ∀ w, s.latch.buf = none → dirOf w ≠ .write → (isAddressed w = false) → ∀ k, fixedLength w = some k → o.frameOf j = w →
      ∃ fd, s.commandDesc j = some fd ∧ FrameFits s fd ∧ ∃ m, fd = descriptor s.cfg (o.frameOf j) m ∧ payloadLength (o.frameOf j) s.latch.n = some m := by
    intro w hb hd ha k hk hw'
    refine ⟨descriptor s.cfg w k, ?_, ?_, k, by rw [hw'], by rw [hw', payloadLength, hk]⟩
    · simp [State.commandDesc, ho, hw', payloadLength, hk]
    · exact
      { cs := hc
        addr := by simp [descriptor, ha]
        opc := opcodeOf_mem_toList _ _
        clk := by intro h; have := clkOf_eq_read h; subst this; rfl
        dirn := by
          intro h
          have h' : dirOf w = .none := h
          show k = 0
          cases w <;> simp [dirOf] at h' <;> simp [fixedLength] at hk <;> exact hk.symm
        rd := by intro _ r h; rw [hsink, hb] at h; simp at h
        wr := fun h => absurd h hd
        buf := hw }
  cases o with
  | isBusy => exact special .readSr1 (by simpa [State.latchesFit] using hl) (by simp [dirOf]) rfl 1 rfl rfl
  | init => exact special .readManufacturerId (by simpa [State.latchesFit] using hl) (by simp [dirOf]) rfl 2 rfl rfl
  | reset =>
    have hb : s.latch.buf = none := by simpa [State.latchesFit] using hl
    by_cases hj : j = 0
    · exact special .enableReset hb (by simp [dirOf]) rfl 0 rfl (by simp [OpName.frameOf, hj])
    · exact special .resetDevice hb (by simp [dirOf]) rfl 0 rfl (by simp [OpName.frameOf, hj])
  | wire w =>
    simp only [State.latchesFit, Bool.and_eq_true, Bool.or_eq_true, Bool.not_eq_true'] at hl
    obtain ⟨ha, hl⟩ := hl
    cases hk : fixedLength w with
    | some k =>
      simp only [hk, Bool.and_eq_true, decide_eq_true_eq, Bool.or_eq_true] at hl
      refine ⟨descriptor s.cfg w k, by simp [State.commandDesc, ho, OpName.frameOf, payloadLength, hk], ?_, k, rfl, by simp [OpName.frameOf, payloadLength, hk]⟩
      exact
      { cs := hc
        addr := by intro h; have h' : isAddressed w = true := h; simpa [h'] using ha
        opc := opcodeOf_mem_toList _ _
        clk := by intro h; have := clkOf_eq_read h; subst this; rfl
        dirn := by
          intro h
          have h' : dirOf w = .none := h
          show k = 0
          cases w <;> simp [dirOf] at h' <;> simp [fixedLength] at hk <;> exact hk.symm
        rd := by intro _ r h; rw [hsink, hl.1] at h; simp at h
        wr := by
          intro h i _
          have h' : dirOf w = .write := h
          have hv : s.latch.val.isSome = true := by rcases hl.2 with h2 | h2 <;> [exact absurd h' h2; exact h2]
          obtain ⟨v, hv⟩ := Option.isSome_iff_exists.mp hv
          exact ⟨v, by simp [State.payloadByte, hl.1, hv]⟩
        buf := hw }
    | none =>
      simp only [hk] at hl
      cases hn : s.latch.n with
      | none => simp [hn] at hl
      | some n =>
        cases hb : s.latch.buf with
        | none => simp [hn, hb] at hl
        | some b =>
          simp only [hn, hb, Bool.and_eq_true, decide_eq_true_eq] at hl
          refine ⟨descriptor s.cfg w n, by simp [State.commandDesc, ho, OpName.frameOf, payloadLength, hk, hn], ?_, n, rfl, by simp [OpName.frameOf, payloadLength, hk]⟩
          exact
          { cs := hc
            addr := by intro h; have h' : isAddressed w = true := h; simpa [h'] using ha
            opc := opcodeOf_mem_toList _ _
            clk := by intro h; have := clkOf_eq_read h; subst this; rfl
            dirn := by
              intro h
              have h' : dirOf w = .none := h
              cases w <;> simp [dirOf] at h' <;> simp [fixedLength] at hk
            rd := by intro _ r h; exact hl.2
            wr := by
              intro h i hi
              have hi' : i < n := hi
              refine ⟨Memory.read s.buf.cells i, ?_⟩
              have : i < s.buf.len := by omega
              simp [State.payloadByte, hb, TransferBuffer.read, this]
            buf := hw }

theorem Standing.ofInv {s : State} {fd : FrameDesc} {tp : TxPos} (hi : s.linesFit) (hr : s.runningDesc = some (fd, tp)) : Standing s fd tp := by
  simp only [State.linesFit, hr] at hi
  exact ⟨hi.1, hi.2.1, hi.2.2.1, hi.2.2.2⟩

theorem linesFit_of {s : State} {fd : FrameDesc} {tp : TxPos} (h : Standing s fd tp) (hr : s.runningDesc = some (fd, tp)) : s.linesFit := by
  simp only [State.linesFit, hr]
  exact ⟨h.inF, h.lines, h.outs, h.sc⟩

theorem State.inv_respond {s s' : State} (r : Response) (h : Closed s) (hw : s.buf.wf) (hs' : s' = s.respond r) : s'.Inv := by
  subst hs'
  refine ⟨?_, ?_, hw⟩
  · simp [State.phaseFits, State.respond, Latches.empty]
  · have hl := h.lines
    simp only [Prod.mk.injEq] at hl
    simp only [State.linesFit, State.runningDesc, State.respond]
    exact ⟨hl.1, hl.2.1, hl.2.2, h.sc⟩

/-- One event of the sequencer, from a state with the invariant: nothing to do, a stalled bus, or the invariant again. -/
theorem tick_cases {s : State} (hi : s.Inv) :
    (s.phase = .idle ∧ s.tick = .error .quiescent) ∨ s.tick = .error .stalled ∨ ∃ s', s.tick = .ok s' ∧ s'.Inv := by
  obtain ⟨hpf, hlf, hbw⟩ := hi
  cases hp : s.phase with
  | idle => exact .inl ⟨rfl, by simp [State.tick, hp]⟩
  | setup =>
    right; right
    cases ho : s.latch.op with
    | none => simp [State.phaseFits, hp, ho] at hpf
    | some o =>
      simp only [State.phaseFits, hp, ho, Bool.and_eq_true, decide_eq_true_eq] at hpf
      obtain ⟨⟨⟨rfl, hcs⟩, hout⟩, hlat⟩ := hpf
      obtain ⟨cs, hcs⟩ := Option.isSome_iff_exists.mp hcs
      refine ⟨(((s.setCsId cs).setCs .high).emit (.csHigh cs)).goto (.cmd 0 .csLow), by simp only [State.tick, hp, hcs]; rfl, ?_⟩
      have hlf' := hlf
      simp only [State.linesFit, State.runningDesc, hp] at hlf'
      refine ⟨?_, ?_, hbw⟩
      · simp only [State.phaseFits, State.goto_phase, State.goto_latch, State.emit_latch, State.setCs_latch, State.setCsId_latch, ho]
        simp only [decide_true, Bool.true_or, Bool.true_and, Bool.and_eq_true]
        exact ⟨rfl, hlat⟩
      · have hr : State.runningDesc ((((s.setCsId cs).setCs .high).emit (.csHigh cs)).goto (.cmd 0 .csLow)) = some (descriptor s.cfg .readManufacturerId 2, .csLow) := by
          simp [State.runningDesc, State.commandDesc, ho, OpName.frameOf, payloadLength, fixedLength]
        exact linesFit_of ⟨rfl, by simp [linesAt, hlf'], by simp [hout, capturedBefore], scan_snoc hlf'.2.2.2 rfl⟩ hr
  | gate tp =>
    right
    cases ho : s.latch.op with
    | none => simp [State.phaseFits, hp, ho] at hpf
    | some o =>
      simp only [State.phaseFits, hp, ho, Bool.and_eq_true] at hpf
      obtain ⟨⟨hg, hcs⟩, hlat⟩ := hpf
      have hat := Standing.ofInv (fd := gateDesc s.cfg) (tp := tp) hlf (by simp [State.runningDesc, hp])
      rcases event_cases (fits_gate hp hcs hbw) hat with h | ⟨s1, h, hsame, hafter⟩
      · left; simp [State.tick, hp, h]
      · right
        simp only [State.tick, hp, h]
        cases hn : nextPos (gateDesc s.cfg) tp with
        | some tp' =>
          simp only [hn] at hafter ⊢
          refine ⟨_, rfl, ?_, ?_, hsame.wf⟩
          · obtain ⟨x, hx⟩ := hsame.latch
            simp only [State.phaseFits, State.goto_phase, State.goto_latch, hx, ho, Bool.and_eq_true, State.goto_csId, hsame.cs]
            exact ⟨⟨hg, hcs⟩, (latchesFit_congr (t := s1.goto _) ⟨x, hx⟩ hsame.len o).trans hlat⟩
          · refine linesFit_of (fd := gateDesc s.cfg) (tp := tp') ⟨hafter.inF, hafter.lines, hafter.outs, hafter.sc⟩ ?_
            simp [State.runningDesc, hsame.cfg]
        | none =>
          simp only [hn] at hafter ⊢
          obtain ⟨hafter, hlen⟩ := hafter
          have : s1.latch.outputs.length = 1 := hlen
          obtain ⟨b, hb⟩ := List.length_eq_one_iff.mp this
          simp only [State.gateDone, hb]
          by_cases hbf : busyFlag b = true
          · simp only [hbf, if_true]
            exact ⟨_, rfl, State.inv_respond (s := { s1 with lastStatus := some .busy }) _ ⟨hafter.lines, hafter.sc⟩ hsame.wf rfl⟩
          · simp only [hbf]
            refine ⟨_, rfl, ?_, ?_, hsame.wf⟩
            · obtain ⟨x, hx⟩ := hsame.latch
              simp only [State.phaseFits, State.goto_phase, State.goto_latch, State.setOutputs_latch, hx, ho, Bool.and_eq_true, State.goto_csId, State.setOutputs_csId, hsame.cs]
              refine ⟨⟨rfl, hcs⟩, (latchesFit_congr (s := s) (t := (s1.setOutputs []).goto (.cmd 0 .csLow)) ⟨[], ?_⟩ hsame.len o).trans hlat⟩
              simp [State.goto, State.setOutputs, hx]
            · obtain ⟨x, hx⟩ := hsame.latch
              obtain ⟨fd, hfd, -⟩ := fits_cmd (s := ((s1.setOutputs []).goto (.cmd 0 .csLow))) (j := 0) (tp := .csLow) (o := o) rfl (by simp [hx, ho]) (by simp [hsame.cs, hcs]) hsame.wf
                ((latchesFit_congr (s := s) (t := (s1.setOutputs []).goto (.cmd 0 .csLow)) ⟨[], by simp [State.goto, State.setOutputs, hx]⟩ hsame.len o).trans hlat)
              refine linesFit_of (fd := fd) (tp := .csLow) ⟨rfl, ?_, rfl, hafter.sc⟩ ?_
              · exact hafter.lines
              · simp only [State.runningDesc, State.goto_phase]; rw [hfd]; rfl
  | cmd j tp =>
    right
    cases ho : s.latch.op with
    | none => simp [State.phaseFits, hp, ho] at hpf
    | some o =>
      simp only [State.phaseFits, hp, ho, Bool.and_eq_true] at hpf
      obtain ⟨⟨hj, hcs⟩, hlat⟩ := hpf
      obtain ⟨fd, hfd, hfits, m, rfl, hm⟩ := fits_cmd hp ho hcs hbw hlat
      have hat := Standing.ofInv (fd := descriptor s.cfg (o.frameOf j) m) (tp := tp) hlf (by simp [State.runningDesc, hp, hfd])
      rcases event_cases hfits hat with h | ⟨s1, h, hsame, hafter⟩
      · left; simp [State.tick, hp, hfd, h]
      · right
        simp only [State.tick, hp, hfd, h]
        obtain ⟨x, hx⟩ := hsame.latch
        cases hn : nextPos (descriptor s.cfg (o.frameOf j) m) tp with
        | some tp' =>
          simp only [hn] at hafter ⊢
          refine ⟨_, rfl, ?_, ?_, hsame.wf⟩
          · simp only [State.phaseFits, State.goto_phase, State.goto_latch, hx, ho, Bool.and_eq_true, State.goto_csId, hsame.cs]
            exact ⟨⟨hj, hcs⟩, (latchesFit_congr (t := s1.goto _) ⟨x, hx⟩ hsame.len o).trans hlat⟩
          · refine linesFit_of (fd := descriptor s.cfg (o.frameOf j) m) (tp := tp') ⟨hafter.inF, hafter.lines, hafter.outs, hafter.sc⟩ ?_
            have := State.commandDesc_congr (s := s1.goto (.cmd j tp')) (t := s) hsame.cfg (by simp [hx]) (by simp [hx]) j
            simp [State.runningDesc, this, hfd]
        | none =>
          simp only [hn] at hafter ⊢
          obtain ⟨hafter, hlen⟩ := hafter
          have hop : s1.latch.op = some o := by rw [hx]; exact ho
          cases o with
          | wire w => exact ⟨_, by simp only [State.commandDone, hop]; rfl, State.inv_respond (s := { s1 with lastStatus := some .ok }) _ ⟨hafter.lines, hafter.sc⟩ hsame.wf rfl⟩
          | isBusy =>
            have : m = 1 := by simpa [OpName.frameOf, payloadLength, fixedLength] using hm.symm
            subst this
            obtain ⟨b, hb⟩ := List.length_eq_one_iff.mp hlen
            exact ⟨_, by simp only [State.commandDone, hop, hb]; rfl, State.inv_respond (s := s1) _ ⟨hafter.lines, hafter.sc⟩ hsame.wf rfl⟩
          | init =>
            have : m = 2 := by simpa [OpName.frameOf, payloadLength, fixedLength] using hm.symm
            subst this
            have hlen' : s1.latch.outputs.length = 2 := hlen
            obtain ⟨a, b, hb⟩ : ∃ a b, s1.latch.outputs = [a, b] := by
              rcases h : s1.latch.outputs with - | ⟨a, - | ⟨b, - | ⟨c, r⟩⟩⟩ <;> simp [h] at hlen'
              exact ⟨a, b, rfl⟩
            exact ⟨_, by simp only [State.commandDone, hop, hb]; rfl, State.inv_respond (s := { s1 with lastStatus := some (identityStatus a b) }) _ ⟨hafter.lines, hafter.sc⟩ hsame.wf rfl⟩
          | reset =>
            simp only [State.commandDone, hop]
            by_cases hj0 : j = 0
            · simp only [hj0, if_true]
              refine ⟨_, rfl, ?_, ?_, hsame.wf⟩
              · simp only [State.phaseFits, State.goto_phase, State.goto_latch, hop, State.goto_csId, hsame.cs]
                simp [hcs]
                exact (latchesFit_congr (s := s) (t := s1.goto (.cmd 1 .csLow)) ⟨x, hx⟩ hsame.len .reset).trans hlat
              · refine linesFit_of (fd := descriptor s.cfg .resetDevice 0) (tp := .csLow) ⟨rfl, hafter.lines, ?_, hafter.sc⟩ ?_
                · subst j
                  rw [State.goto_latch, hlen]; rfl
                · simp [State.runningDesc, State.commandDesc, hop, OpName.frameOf, payloadLength, fixedLength, hsame.cfg]
            · simp only [hj0, if_false]
              exact ⟨_, rfl, State.inv_respond (s := { s1 with lastStatus := some .ok }) _ ⟨hafter.lines, hafter.sc⟩ hsame.wf rfl⟩

end Sys2Proof.Machine
end

