-- ==== Sys2Proof/Laws/Oracle.lean ====
section
/-! SUPPORT. How the sequencer meets the transport (00_scope.md R14): where it stalls, `event_never` and `event_stalled`; that
it reads the oracle's script one answer at a time, `tick_more`; and that an idle engine meets it not at all, `serve_ne`. -/

namespace Sys2Proof.Machine

/-! ## A stalled exchange -/

/-- Where the transport never completes the exchange, no exchange is made (R14). -/
theorem event_never {s t : State} {fd : FrameDesc} {tp : TxPos} {rest : List BusAnswer} (h : s.answers = .never :: rest)
    (hp : tp ∉ [TxPos.csLow, .busBegin, .busEnd, .csHigh]) : s.eventAt fd tp ≠ .ok t := by
  intro hk
  cases tp <;> simp at hp <;> simp only [State.eventAt, State.send, State.receive, State.xfer_of_never h] at hk
  all_goals (repeat' split at hk) <;> cases hk

/-- An event stalls only where it is an exchange the transport never completes. -/
theorem event_stalled {s : State} {fd : FrameDesc} {tp : TxPos} (h : s.eventAt fd tp = .error .stalled) :
    tp ∉ [TxPos.csLow, .busBegin, .busEnd, .csHigh] ∧ ∃ rest, s.answers = .never :: rest := by
  have xs : ∀ {tx}, s.xfer tx = .error .stalled → ∃ rest, s.answers = .never :: rest := by
    intro tx hx
    unfold State.xfer at hx
    split at hx <;> first | exact ⟨_, ‹_›⟩ | cases hx
  have ss : ∀ {tx}, s.send tx = .error .stalled → ∃ rest, s.answers = .never :: rest := by
    intro tx hx
    unfold State.send at hx
    split at hx <;> cases hx
    exact xs ‹_›
  cases tp <;> simp only [State.eventAt, State.lowerCs, State.raiseCs] at h
  case csLow => split at h <;> cases h
  case csHigh => split at h <;> cases h
  case busBegin => cases h
  case busEnd => cases h
  all_goals refine ⟨by simp, ?_⟩
  case opcode => exact ss h
  case dummy => exact ss h
  case addr => split at h; exact ss h; cases h
  case payload =>
    split at h
    · unfold State.receive at h
      split at h
      · cases h; exact xs ‹_›
      · unfold State.capture at h
        repeat' split at h
        all_goals cases h
    · split at h
      · exact ss h
      · cases h
        rename_i hp
        unfold State.payloadByte at hp
        repeat' split at hp
        all_goals cases hp
    · cases h

/-! ## A longer script -/

/-- The oracle's script, longer. -/
def State.more (s : State) (T : List BusAnswer) : State := { s with answers := s.answers ++ T }

theorem xfer_more {s : State} (h : s.answers ≠ []) (T : List BusAnswer) (tx : Byte) :
    (s.more T).xfer tx = (s.xfer tx).map (fun p => (p.1, p.2.more T)) := by
  unfold State.xfer State.more
  cases ha : s.answers with
  | nil => exact absurd ha h
  | cons a as => cases a <;> rfl

theorem send_more {s : State} (h : s.answers ≠ []) (T : List BusAnswer) (tx : Byte) :
    (s.more T).send tx = (s.send tx).map (·.more T) := by
  unfold State.send
  rw [xfer_more h]
  cases s.xfer tx <;> rfl

theorem capture_more (s : State) (T : List BusAnswer) (k : Nat) (b : Byte) :
    (s.more T).capture k b = (s.capture k b).map (·.more T) := by
  have h1 : (s.more T).sink = s.sink := rfl
  unfold State.capture
  rw [h1]
  cases s.sink with
  | none => rfl
  | some r =>
    show (match s.buf.write k b with | some t => _ | none => _) = _
    cases s.buf.write k b <;> rfl

theorem event_more {s : State} {tp : TxPos} (h : s.answers ≠ [] ∨ tp ∈ [TxPos.csLow, .busBegin, .busEnd, .csHigh])
    (T : List BusAnswer) (fd : FrameDesc) : (s.more T).eventAt fd tp = (s.eventAt fd tp).map (·.more T) := by
  cases tp with
  | csLow =>
    show (match s.csId with | none => _ | some p => _) = (match s.csId with | none => _ | some p => _ : Except Halt State).map _
    cases s.csId <;> rfl
  | csHigh =>
    show (match s.csId with | none => _ | some p => _) = (match s.csId with | none => _ | some p => _ : Except Halt State).map _
    cases s.csId <;> rfl
  | busBegin => rfl
  | busEnd => rfl
  | opcode => exact send_more (by simpa using h) T _
  | dummy => exact send_more (by simpa using h) T _
  | addr k =>
    have h : s.answers ≠ [] := by simpa using h
    show (match s.latch.addr with | some a => (s.more T).send (addrByte a k) | none => _) = _
    simp only [State.eventAt]
    cases s.latch.addr with
    | none => rfl
    | some a => exact send_more h T _
  | payload k =>
    have h : s.answers ≠ [] := by simpa using h
    simp only [State.eventAt]
    cases fd.dir with
    | none => rfl
    | read =>
      simp only [State.receive, xfer_more h]
      cases s.xfer readFill with
      | error => rfl
      | ok p => exact capture_more _ _ _ _
    | write =>
      have : (s.more T).payloadByte k = s.payloadByte k := rfl
      simp only [this]
      cases s.payloadByte k with
      | error => rfl
      | ok b => exact send_more h T _

theorem gateDone_more (s : State) (T : List BusAnswer) : (s.more T).gateDone = s.gateDone.map (·.more T) := by
  unfold State.gateDone
  show (match s.latch.outputs with | b :: _ => _ | [] => _) = _
  cases s.latch.outputs with
  | nil => rfl
  | cons b r => simp only; split <;> rfl

theorem commandDone_more (s : State) (T : List BusAnswer) (j : Fin 2) :
    (s.more T).commandDone j = (s.commandDone j).map (·.more T) := by
  unfold State.commandDone
  have : (s.more T).latch = s.latch := rfl
  rw [this]
  cases s.latch.op with
  | none => rfl
  | some o =>
    cases o with
    | wire => rfl
    | isBusy => simp only; cases s.latch.outputs <;> rfl
    | reset => simp only; split <;> rfl
    | init => simp only; repeat' split
              all_goals rfl

/-- One tick of the sequencer reads the script's head and no more: the same event, the rest of the script behind it. -/
theorem tick_more {s : State} (h : s.answers ≠ [] ∨ ¬ s.awaitsByte) (T : List BusAnswer) :
    (s.more T).tick = s.tick.map (·.more T) := by
  have hp : (s.more T).phase = s.phase := rfl
  have hc : (s.more T).cfg = s.cfg := rfl
  unfold State.tick
  rw [hp, hc]
  cases hph : s.phase with
  | idle => rfl
  | setup =>
    show (match s.latch.cs with | none => _ | some cs => _) = _
    cases s.latch.cs with
    | none => rfl
    | some cs => rfl
  | gate tp =>
    have h' : s.answers ≠ [] ∨ tp ∈ [TxPos.csLow, .busBegin, .busEnd, .csHigh] :=
      h.imp_right fun h => by
        by_contra hn
        exact h ⟨gateDesc s.cfg, tp, by simp [State.runningDesc, hph], hn⟩
    simp only [event_more h']
    cases s.eventAt (gateDesc s.cfg) tp with
    | error => rfl
    | ok s1 =>
      simp only [Except.map]
      cases nextPos (gateDesc s.cfg) tp with
      | some => rfl
      | none =>
        simp only [gateDone_more]
        cases s1.gateDone <;> rfl
  | cmd j tp =>
    have hcd : (s.more T).commandDesc j = s.commandDesc j := rfl
    simp only [hcd]
    cases hfd : s.commandDesc j with
    | none => rfl
    | some fd =>
      have h' : s.answers ≠ [] ∨ tp ∈ [TxPos.csLow, .busBegin, .busEnd, .csHigh] :=
        h.imp_right fun h => by
          by_contra hn
          exact h ⟨fd, tp, by simp [State.runningDesc, hph, hfd], hn⟩
      simp only [event_more h']
      cases s.eventAt fd tp with
      | error => rfl
      | ok s1 =>
        simp only [Except.map]
        cases nextPos fd tp with
        | some => rfl
        | none =>
          simp only [commandDone_more]
          cases s1.commandDone j <;> rfl

/-! ## The host port -/

/-- An idle engine neither faults nor is stuck. -/
theorem serve_ne (s : State) : (∀ f, serve s ≠ .fault f) ∧ serve s ≠ .refused .busStalled := by
  have hi : ∀ r s, (∀ f, issue r s ≠ .fault f) ∧ issue r s ≠ .refused .busStalled := by
    intro r s
    unfold issue
    split
    · rename_i w hw
      refine ⟨nofun, fun h => ?_⟩
      cases h
      unfold State.rejects at hw
      repeat' split at hw
      all_goals cases hw
    · exact ⟨nofun, nofun⟩
  unfold serve
  split
  · exact ⟨nofun, nofun⟩
  · split
    · exact ⟨nofun, nofun⟩
    · unfold execRequest
      split
      · rw [exec_eq_issue]; exact hi _ _
      · exact hi _ _
      · exact hi _ _
      · exact hi _ _

end Sys2Proof.Machine
end

