-- ==== Sys2Proof/Laws/PerInstr.lean ====
section
/-! SUPPORT. Lemmas per instruction. `FrameLength`: the frame of a well-formed instruction starts with its opcode and has
the length `1 + a + d + n` of 30_encoding.md R90. -/

namespace Sys2Proof.Laws.FrameLength

/-- R90: `L = 1 + a + d + n`, and byte 0 is the opcode (R93). -/
def Statement (i : Instr) : Prop :=
  ∀ c : Config, i.wellFormed c = true →
    (encode c i).length = 1 + (if isAddressed i.op then 3 else 0) + dummyCount c i.op + i.length ∧
      (encode c i).head? = some (opcodeOf c i.op)

/-- The length of a frame, from the length of its payload. -/
theorem of_payload {i : Instr} (h : ∀ c : Config, i.wellFormed c = true → (Machine.payloadOf i).length = i.length) :
    Statement i := by
  intro c hwf
  refine ⟨?_, by rw [Machine.encode_eq_frameBytes]; rfl⟩
  rw [Machine.encode_eq_frameBytes, Machine.length_frameBytes, h c hwf]
  rfl

/-- A read: its fills. -/
theorem of_read {i : Instr} (h : dirOf i.op = .read) : Statement i :=
  of_payload (fun _ _ => by simp [Machine.payloadOf, h])

/-- A write payload from a buffer. -/
theorem of_buffer {i : Instr} {n : Nat} {b : List Byte} (h : dirOf i.op = .write) (hs : i.span? = some (n, b)) :
    Statement i :=
  of_payload (fun c hwf => by
    have := Machine.le_of_wellFormed hwf hs
    simp only [Machine.payloadOf, h, Machine.length_of_span hs, Instr.payload, Machine.val_of_span_some hs, hs,
      List.length_take]
    omega)

theorem writeEnable : Statement .writeEnable := of_payload (fun _ _ => rfl)
theorem volatileWriteEnable : Statement .volatileWriteEnable := of_payload (fun _ _ => rfl)
theorem writeDisable : Statement .writeDisable := of_payload (fun _ _ => rfl)
theorem releasePowerDown : Statement .releasePowerDown := of_payload (fun _ _ => rfl)
theorem readManufacturerId : Statement .readManufacturerId := of_read rfl
theorem readJedecId : Statement .readJedecId := of_read rfl
theorem readUniqueId : Statement .readUniqueId := of_read rfl
theorem readData (addr : Address) (n : Nat) (buf : List Byte) : Statement (.readData addr n buf) := of_read rfl
theorem fastRead (addr : Address) (n : Nat) (buf : List Byte) : Statement (.fastRead addr n buf) := of_read rfl
theorem pageProgram (addr : Address) (n : Nat) (buf : List Byte) : Statement (.pageProgram addr n buf) := of_buffer rfl rfl
theorem sectorErase (addr : Address) : Statement (.sectorErase addr) := of_payload (fun _ _ => rfl)
theorem blockErase32K (addr : Address) : Statement (.blockErase32K addr) := of_payload (fun _ _ => rfl)
theorem blockErase64K (addr : Address) : Statement (.blockErase64K addr) := of_payload (fun _ _ => rfl)
theorem chipErase : Statement .chipErase := of_payload (fun _ _ => rfl)
theorem readSr1 : Statement .readSr1 := of_read rfl
theorem writeSr1 (val : Byte) : Statement (.writeSr1 val) := of_payload (fun _ _ => rfl)
theorem readSr2 : Statement .readSr2 := of_read rfl
theorem writeSr2 (val : Byte) : Statement (.writeSr2 val) := of_payload (fun _ _ => rfl)
theorem readSr3 : Statement .readSr3 := of_read rfl
theorem writeSr3 (val : Byte) : Statement (.writeSr3 val) := of_payload (fun _ _ => rfl)
theorem readSfdp (addr : Address) (n : Nat) (buf : List Byte) : Statement (.readSfdp addr n buf) := of_read rfl
theorem eraseSecurityRegister (addr : Address) : Statement (.eraseSecurityRegister addr) := of_payload (fun _ _ => rfl)
theorem programSecurityRegister (addr : Address) (n : Nat) (buf : List Byte) : Statement (.programSecurityRegister addr n buf) := of_buffer rfl rfl
theorem readSecurityRegister (addr : Address) (n : Nat) (buf : List Byte) : Statement (.readSecurityRegister addr n buf) := of_read rfl
theorem suspend : Statement .suspend := of_payload (fun _ _ => rfl)
theorem resume : Statement .resume := of_payload (fun _ _ => rfl)
theorem powerDown : Statement .powerDown := of_payload (fun _ _ => rfl)
theorem enableReset : Statement .enableReset := of_payload (fun _ _ => rfl)
theorem resetDevice : Statement .resetDevice := of_payload (fun _ _ => rfl)

end Sys2Proof.Laws.FrameLength
end

