-- ==== Sys2Proof/Tests/Slice0.lean ====
section
/-! SUPPORT. Tests. Expected results are the spec's: 95_test_vectors.md (ids `S`, `V`, `P`) and the examples of the
rules. Opcode bytes are the default table's (30_encoding.md R97). -/

namespace Sys2Proof.Tests

open Sys2Proof.Machine

/-! ## The bench -/

/-- A bus configuration with numbers, for evaluation (R8's constraint: the read rate is the lower). -/
def benchBus : BusCfg where
  clkDefaultHz := 2
  clkReadHz := 1
  mode := { polarity := false, phase := false }
  bitOrder := .msbFirst

/-- `Ready(10)` of 95_test_vectors.md part 3, with the device's answers scripted. -/
def bench (rx : List Byte) : State :=
  { State.constructed standardConfig benchBus with
    csId := some 10, lastStatus := some .ok, answers := rx.map BusAnswer.byte }

/-- The state after an outcome, where there is one. -/
def next? : Host.Outcome State Fault Refusal → Option State
  | .next s => some s
  | .fault _ => none
  | .refused _ => none

/-- What went over the bus, and what came back to the host. -/
def transmitted (s : State) : List (List Byte) := s.exchanges.map Exchange.tx

/-- The transmit sequences and the responses an instruction adds. -/
def run (i : Instr) (rx : List Byte) : Option (List (List Byte) × List Response) :=
  (next? (exec i (bench rx))).map (fun t => (transmitted t, t.responses))

/-- What a request leaves: the transmit sequences, the responses, `last_status`. -/
def runRequest (r : Request) (s : State) : Option (List (List Byte) × List Response × Option StatusCode) :=
  (next? (execRequest r s)).map (fun t => (transmitted t, t.responses, t.lastStatus))

/-! ## Well-formedness (R31, R49, R253) -/

theorem test_wf_buffer_exact : (Instr.readData 0 2 [0, 0]).wellFormed standardConfig = true := by decide

/-- V59d: more bytes asked for than the buffer holds. -/
theorem test_ill_formed_buffer : (Instr.pageProgram 0 3 [1, 2]).wellFormed standardConfig = false := by decide

theorem test_wf_len_max : (Instr.readData 0 2 [0, 0]).wellFormed { standardConfig with lenMax := some 2 } = true := by
  decide

theorem test_ill_formed_len_max :
    (Instr.readData 0 3 [0, 0, 0]).wellFormed { standardConfig with lenMax := some 2 } = false := by decide

/-- P7 row 3: an ill-formed request is not accepted. -/
theorem test_ill_formed_refused : exec (.programSecurityRegister 0x001000 5 [1, 2, 3, 4]) (bench []) =
    .refused .illFormed := by rfl

/-- P7 row 1: nothing but `INIT` before `cs_id` has a value. -/
theorem test_no_pin_refused : exec .readSr1 (State.constructed standardConfig benchBus) = .refused .noChipSelect := by
  rfl

/-! ## Decoding: every constructor's word, from V16 to V39e -/

theorem test_decode_write_enable : decode standardConfig [0x06] = .ok .writeEnable := by rfl
theorem test_decode_volatile_write_enable : decode standardConfig [0x50] = .ok .volatileWriteEnable := by rfl
theorem test_decode_write_disable : decode standardConfig [0x04] = .ok .writeDisable := by rfl
theorem test_decode_release_power_down : decode standardConfig [0xAB] = .ok .releasePowerDown := by rfl
theorem test_decode_manufacturer :
    decode standardConfig [0x90, 0x00, 0x00, 0x00, 0x00] = .ok .readManufacturerId := by rfl
theorem test_decode_jedec : decode standardConfig [0x9F, 0x00, 0x00, 0x00] = .ok .readJedecId := by rfl
theorem test_decode_unique : decode standardConfig
    [0x4B, 0x00, 0x00, 0x00, 0x00, 0x00, 0x00, 0x00, 0x00, 0x00, 0x00, 0x00, 0x00] = .ok .readUniqueId := by rfl
theorem test_decode_read_data : decode standardConfig [0x03, 0x00, 0x12, 0x34, 0x00, 0x00, 0x00, 0x00] =
    .ok (.readData 0x001234 4 [0, 0, 0, 0]) := by rfl
theorem test_decode_fast_read : decode standardConfig [0x0B, 0x12, 0x34, 0x56, 0x00, 0x00, 0x00] =
    .ok (.fastRead 0x123456 2 [0, 0]) := by rfl
theorem test_decode_page_program : decode standardConfig [0x02, 0x00, 0x12, 0x34, 0xDE, 0xAD, 0xBE, 0xEF] =
    .ok (.pageProgram 0x001234 4 [0xDE, 0xAD, 0xBE, 0xEF]) := by rfl
theorem test_decode_sector_erase : decode standardConfig [0x20, 0x00, 0x30, 0x00] = .ok (.sectorErase 0x003000) := by rfl
theorem test_decode_block32 : decode standardConfig [0x52, 0x00, 0x80, 0x00] = .ok (.blockErase32K 0x008000) := by rfl
theorem test_decode_block64 : decode standardConfig [0xD8, 0x7F, 0x00, 0x00] = .ok (.blockErase64K 0x7F0000) := by rfl
theorem test_decode_chip_erase : decode standardConfig [0xC7] = .ok .chipErase := by rfl
theorem test_decode_read_sr1 : decode standardConfig [0x05, 0x00] = .ok .readSr1 := by rfl
theorem test_decode_write_sr1 : decode standardConfig [0x01, 0xFF] = .ok (.writeSr1 0xFF) := by rfl
theorem test_decode_read_sr2 : decode standardConfig [0x35, 0x00] = .ok .readSr2 := by rfl
theorem test_decode_write_sr2 : decode standardConfig [0x31, 0x02] = .ok (.writeSr2 0x02) := by rfl
theorem test_decode_read_sr3 : decode standardConfig [0x15, 0x00] = .ok .readSr3 := by rfl
theorem test_decode_write_sr3 : decode standardConfig [0x11, 0x60] = .ok (.writeSr3 0x60) := by rfl
theorem test_decode_sfdp : decode standardConfig [0x5A, 0x00, 0x00, 0x00, 0x00, 0x00, 0x00, 0x00, 0x00] =
    .ok (.readSfdp 0 4 [0, 0, 0, 0]) := by rfl
theorem test_decode_erase_secreg :
    decode standardConfig [0x44, 0x00, 0x10, 0x00] = .ok (.eraseSecurityRegister 0x001000) := by rfl
theorem test_decode_program_secreg : decode standardConfig [0x42, 0x00, 0x20, 0x00, 0xA5, 0x5A] =
    .ok (.programSecurityRegister 0x002000 2 [0xA5, 0x5A]) := by rfl
theorem test_decode_read_secreg : decode standardConfig [0x48, 0x00, 0x30, 0x00, 0x00, 0x00, 0x00] =
    .ok (.readSecurityRegister 0x003000 2 [0, 0]) := by rfl
theorem test_decode_suspend : decode standardConfig [0x75] = .ok .suspend := by rfl
theorem test_decode_resume : decode standardConfig [0x7A] = .ok .resume := by rfl
theorem test_decode_power_down : decode standardConfig [0xB9] = .ok .powerDown := by rfl
theorem test_decode_enable_reset : decode standardConfig [0x66] = .ok .enableReset := by rfl
theorem test_decode_reset_device : decode standardConfig [0x99] = .ok .resetDevice := by rfl

/-! Sequences that are no frame: V73 to V79 -/

theorem test_v73 : decode standardConfig [0x05] = .error .wrongLength := by rfl
theorem test_v74 : decode standardConfig [0x06, 0x00] = .error .wrongLength := by rfl
theorem test_v75 : decode standardConfig [0x60] = .error .unknownOpcode := by rfl
theorem test_v76 : decode standardConfig [0x0B, 0x12, 0x34, 0x56] = .error .tooShort := by rfl
theorem test_v77 : decode standardConfig [0x0B, 0x12, 0x34, 0x56, 0x00] = .ok (.fastRead 0x123456 0 []) := by rfl
theorem test_v78 : decode standardConfig [0x9F, 0x00, 0x00] = .error .wrongLength := by rfl
theorem test_v79 : decode standardConfig [0x03, 0x00, 0x12, 0x34, 0x00, 0x01] = .error .nonzeroFill := by rfl
theorem test_nonzero_dummy : decode standardConfig [0x0B, 0x12, 0x34, 0x56, 0x01] = .error .nonzeroDummy := by rfl
theorem test_empty : decode standardConfig [] = .error .empty := by rfl

/-! ## The address encoder: V1 to V15 -/

theorem test_v2 : addrBytes 0x00000001 = [0x00, 0x00, 0x01] := by decide
theorem test_v6 : addrBytes 0x00010000 = [0x01, 0x00, 0x00] := by decide
theorem test_v9 : addrBytes 0x00800000 = [0x80, 0x00, 0x00] := by decide
theorem test_v12 : addrBytes 0xAB123456 = [0x12, 0x34, 0x56] := by decide
theorem test_v14 : addrBytes 0xFF000000 = [0x00, 0x00, 0x00] := by decide

/-! ## One step of each instruction -/

theorem test_write_enable : run .writeEnable [0xFF] = some ([[0x06]], [.status .ok []]) := by decide
theorem test_volatile_write_enable : run .volatileWriteEnable [0x01] = some ([[0x50]], [.status .ok []]) := by decide
theorem test_write_disable : run .writeDisable [0x01] = some ([[0x04]], [.status .ok []]) := by decide
theorem test_release_power_down : run .releasePowerDown [0x16] = some ([[0xAB]], [.status .ok []]) := by decide
theorem test_suspend : run .suspend [0x01] = some ([[0x75]], [.status .ok []]) := by decide
theorem test_resume : run .resume [0x01] = some ([[0x7A]], [.status .ok []]) := by decide
theorem test_power_down : run .powerDown [0x01] = some ([[0xB9]], [.status .ok []]) := by decide
theorem test_enable_reset : run .enableReset [0x01] = some ([[0x66]], [.status .ok []]) := by decide
theorem test_reset_device : run .resetDevice [0x01] = some ([[0x99]], [.status .ok []]) := by decide

/-- S2, with its variation: positions and not values decide. -/
theorem test_manufacturer : run .readManufacturerId [0xEF, 0x16, 0xAA, 0x01, 0x02] =
    some ([[0x90, 0x00, 0x00, 0x00, 0x00]], [.status .ok [0x01, 0x02]]) := by decide

/-- S1. -/
theorem test_jedec : run .readJedecId [0xFF, 0xEF, 0x40, 0x17] =
    some ([[0x9F, 0x00, 0x00, 0x00]], [.status .ok [0xEF, 0x40, 0x17]]) := by decide

/-- S8. -/
theorem test_unique : run .readUniqueId [1, 2, 3, 4, 5, 0xD1, 0x62, 0x33, 0x44, 0x55, 0x66, 0x77, 0x88] =
    some ([[0x4B, 0, 0, 0, 0, 0, 0, 0, 0, 0, 0, 0, 0]],
      [.status .ok [0xD1, 0x62, 0x33, 0x44, 0x55, 0x66, 0x77, 0x88]]) := by decide

/-- R171's example, its trace with the read clock. -/
theorem test_read_data_trace :
    (next? (exec (.readData 0x001234 2 [7, 7]) (bench [1, 2, 3, 4, 0xDE, 0xAD]))).map (fun t => (t.trace, t.buf.bytes)) =
      some ([.csLow 10, .busBegin .read { rateHz := 1, mode := { polarity := false, phase := false }, bitOrder := .msbFirst },
        .xfer 0x03 1, .xfer 0x00 2, .xfer 0x12 3, .xfer 0x34 4, .xfer 0x00 0xDE, .xfer 0x00 0xAD, .busEnd, .csHigh 10],
        [0xDE, 0xAD]) := by decide

/-- V51: no payload; the buffer is untouched. -/
theorem test_read_data_empty :
    (next? (exec (.readData 0 0 [7, 8]) (bench [1, 2, 3, 4]))).map (fun t => (transmitted t, t.buf.bytes)) =
      some ([[0x03, 0x00, 0x00, 0x00]], [7, 8]) := by decide

/-- R172's example: the first buffer byte is receive position 5; index 2 is left alone. -/
theorem test_fast_read :
    (next? (exec (.fastRead 0xAB123456 2 [0, 0, 9]) (bench [1, 2, 3, 4, 5, 0x11, 0x22]))).map
      (fun t => (transmitted t, t.buf.bytes)) =
      some ([[0x0B, 0x12, 0x34, 0x56, 0x00, 0x00, 0x00]], [0x11, 0x22, 9]) := by decide

/-- V59b: the parameter moves the captured positions. -/
theorem test_fast_read_two_dummies :
    (next? (exec (.fastRead 0xAB123456 2 [0, 0])
      { bench [1, 2, 3, 4, 5, 6, 0x11, 0x22] with cfg := { standardConfig with dummyFastRead := 2 } })).map
      (fun t => (transmitted t, t.responses)) =
      some ([[0x0B, 0x12, 0x34, 0x56, 0x00, 0x00, 0x00, 0x00]], [.status .ok [0x11, 0x22]]) := by decide

/-- R159's example. -/
theorem test_sfdp : run (.readSfdp 0 4 [0, 0, 0, 0]) [1, 2, 3, 4, 5, 0x53, 0x46, 0x44, 0x50] =
    some ([[0x5A, 0, 0, 0, 0, 0, 0, 0, 0]], [.status .ok [0x53, 0x46, 0x44, 0x50]]) := by decide

/-- R198's example. -/
theorem test_read_secreg : run (.readSecurityRegister 0x003000 2 [0, 0]) [1, 1, 1, 1, 1, 0xA5, 0x5A] =
    some ([[0x48, 0x00, 0x30, 0x00, 0x00, 0x00, 0x00]], [.status .ok [0xA5, 0x5A]]) := by decide

/-- R181's example, not busy with bit 1 set: the gate's byte does not reach the buffer. -/
theorem test_page_program :
    (next? (exec (.pageProgram 0x001234 4 [0xDE, 0xAD, 0xBE, 0xEF])
      (bench [0, 0x02, 9, 9, 9, 9, 9, 9, 9, 9]))).map (fun t => (transmitted t, t.responses, t.buf.bytes)) =
      some ([[0x05, 0x00], [0x02, 0x00, 0x12, 0x34, 0xDE, 0xAD, 0xBE, 0xEF]], [.status .ok []],
        [0xDE, 0xAD, 0xBE, 0xEF]) := by decide

/-- V40, with the buffer as it was handed over. -/
theorem test_page_program_busy :
    (next? (exec (.pageProgram 0x001234 2 [0xDE, 0xAD]) (bench [0, 0x03]))).map
      (fun t => (transmitted t, t.responses, t.buf.bytes)) =
      some ([[0x05, 0x00]], [.status .busy []], [0xDE, 0xAD]) := by decide

/-- V56: misaligned, not rounded, not refused. -/
theorem test_sector_erase : run (.sectorErase 0x003001) [0, 0, 9, 9, 9, 9] =
    some ([[0x05, 0x00], [0x20, 0x00, 0x30, 0x01]], [.status .ok []]) := by decide

theorem test_block32 : run (.blockErase32K 0x008000) [0, 0xFE, 9, 9, 9, 9] =
    some ([[0x05, 0x00], [0x52, 0x00, 0x80, 0x00]], [.status .ok []]) := by decide
theorem test_block64_busy : run (.blockErase64K 0x7F0000) [0, 0x01] =
    some ([[0x05, 0x00]], [.status .busy []]) := by decide
theorem test_block64 : run (.blockErase64K 0x00FFFF) [0, 0, 9, 9, 9, 9] =
    some ([[0x05, 0x00], [0xD8, 0x00, 0xFF, 0xFF]], [.status .ok []]) := by decide
theorem test_chip_erase : run .chipErase [0, 0, 9] = some ([[0x05, 0x00], [0xC7]], [.status .ok []]) := by decide
theorem test_read_sr1 : run .readSr1 [9, 0x02] = some ([[0x05, 0x00]], [.status .ok [0x02]]) := by decide
theorem test_read_sr2 : run .readSr2 [9, 0x00] = some ([[0x35, 0x00]], [.status .ok [0x00]]) := by decide
theorem test_read_sr3 : run .readSr3 [9, 0x60] = some ([[0x15, 0x00]], [.status .ok [0x60]]) := by decide

/-- V59c: every byte value passes, bit 0 included. -/
theorem test_write_sr1 : run (.writeSr1 0xFF) [0, 0x02, 9, 9] =
    some ([[0x05, 0x00], [0x01, 0xFF]], [.status .ok []]) := by decide

theorem test_write_sr2 : run (.writeSr2 0x02) [0, 0, 9, 9] =
    some ([[0x05, 0x00], [0x31, 0x02]], [.status .ok []]) := by decide
theorem test_write_sr3_busy : run (.writeSr3 0x60) [0, 0x01] = some ([[0x05, 0x00]], [.status .busy []]) := by decide
theorem test_write_sr3 : run (.writeSr3 0x60) [0, 0, 9, 9] =
    some ([[0x05, 0x00], [0x11, 0x60]], [.status .ok []]) := by decide
theorem test_erase_secreg : run (.eraseSecurityRegister 0x001000) [0, 0, 9, 9, 9, 9] =
    some ([[0x05, 0x00], [0x44, 0x00, 0x10, 0x00]], [.status .ok []]) := by decide
theorem test_program_secreg : run (.programSecurityRegister 0x002000 2 [0xA5, 0x5A]) [0, 0, 9, 9, 9, 9, 9, 9] =
    some ([[0x05, 0x00], [0x42, 0x00, 0x20, 0x00, 0xA5, 0x5A]], [.status .ok []]) := by decide

/-! ## Compound operations -/

/-- 2.3: only bit 0 counts, and `last_status` is left as it was (2.6 step 4). -/
theorem test_is_busy_false : runRequest .isBusy { bench [9, 0xFE] with lastStatus := some .busy } =
    some ([[0x05, 0x00]], [.boolean false], some .busy) := by decide

theorem test_is_busy_true : runRequest .isBusy (bench [9, 0x55]) =
    some ([[0x05, 0x00]], [.boolean true], some .ok) := by decide

/-- S7, not busy. -/
theorem test_reset_trace : (next? (execReset (bench [0, 0, 7, 8]))).map (fun t => (t.trace.map Event.sent).drop 4) =
    some [.busEnd, .csHigh 10, .csLow 10, .busBegin .default (busParams benchBus .default), .xfer 0x66 0, .busEnd,
      .csHigh 10, .csLow 10, .busBegin .default (busParams benchBus .default), .xfer 0x99 0, .busEnd, .csHigh 10] := by
  decide

/-- S7, busy. -/
theorem test_reset_busy : runRequest .reset (bench [0, 1]) = some ([[0x05, 0x00]], [.status .busy []], some .busy) := by
  decide

/-- V63, from the constructed state: `cs_id` is stored and the lone `CsHigh` comes first. -/
theorem test_init : (next? (execInit 10 { State.constructed standardConfig benchBus with
      answers := [0xFF, 0xFF, 0xFF, 0xEF, 0x17].map BusAnswer.byte })).map
      (fun t => (t.csId, t.trace.head?, t.trace.length, t.lastStatus)) =
    some (some 10, some (.csHigh 10), 10, some .unknownDeviceId) := by decide

/-- V67: the order of the bytes matters. -/
theorem test_init_swapped : runRequest (.init 10) (bench [0, 0, 0, 0x16, 0xEF]) =
    some ([[0x90, 0, 0, 0, 0]], [.status .unknownManufacturerId []], some .unknownManufacturerId) := by decide

/-! ## A stalled bus, and the step -/

/-- P8: two exchanges complete, the third never does. -/
def stalled : State := { bench [] with answers := [.byte 0x00, .byte 0xEF, .never] }

theorem test_p8 : (next? (exec .readJedecId stalled)).map (fun t => (t.trace.drop 2, t.phase, t.responses)) =
    some ([.xfer 0x9F 0x00, .xfer 0x00 0xEF], .cmd 0 (.payload 1), []) := by decide

theorem test_p8_lines : (next? (exec .readJedecId stalled)).map (fun t => (t.csLevel, t.busOpen, t.lastStatus)) =
    some (.low, true, some .ok) := by decide

theorem test_p8_stuck : (next? (exec .readJedecId stalled)).map step = some (.refused .busStalled) := by rfl

/-- P7's start, with the answers of its row 2. -/
def firstIdentity : State :=
  { State.constructed standardConfig benchBus with answers := [0, 0, 0, 0xEF, 0x16].map BusAnswer.byte }

/-- A frame on the port runs as the request it is; the port is one item shorter. -/
theorem test_step_frame : (next? (step { bench [9, 0x02] with port := [.frame [0x05, 0x00], .request .isBusy] })).map
      (fun t => (transmitted t, t.responses, t.port)) =
    some ([[0x05, 0x00]], [.status .ok [0x02]], [.request .isBusy]) := by decide

/-- V75 on the port. -/
theorem test_step_not_a_frame : step { bench [] with port := [.frame [0x60]] } =
    .refused (.notAFrame .unknownOpcode) := by rfl

/-- P7 rows 1 and 2: the host takes back the request that is not accepted and goes on. -/
theorem test_p7_goes_on :
    (next? (step ({ firstIdentity with port := [.request (.wire .readSr1), .request (.init 10)] } : State).withdraw)).map
      (fun t => (t.lastStatus, t.port)) = some (some .ok, []) := by decide

theorem test_step_nothing : step (bench []) = .refused .noRequest := by rfl

/-- The first row of the opcode table that has operands, from reset, with its operand words zero. -/
theorem test_word_read_data : decodeTableWord 8 0x03 = some (.readData 0 0 []) := by rfl
theorem test_word_unique : decodeTableWord 8 0x4B = some .readUniqueId := by rfl

/-- R98: an opcode used twice is refused at construction. -/
theorem test_construct_duplicate :
    construct { standardConfig with opc := { standardOpcodes with suspend := 0x06 } } benchBus = none := by decide

/-- R8: a read clock that is not the lower one is refused. -/
theorem test_construct_clock : construct standardConfig { benchBus with clkReadHz := 2 } = none := by decide

/-! ## Witnesses: for each statement with hypotheses, a state and operands that meet them together -/

/-- A device that reads not busy, and one that reads busy. -/
def idleBench : State := bench [0, 0x02]
def busyBench : State := bench [0, 0x01]

/-- The engine with a longest payload of two bytes (`LEN_MAX`, R8). -/
def cappedBench : State := { bench [] with cfg := { standardConfig with lenMax := some 2 } }

/-- The state after an instruction, or after a step. -/
def after (i : Instr) (s : State) : State := (next? (exec i s)).getD s
def stepped (s : State) : State := (next? (step s)).getD s

/-- The running operation `k` events after its acceptance. -/
def midway (k : Nat) (r : Call) (s : State) : State := runTicks k (s.accept r)

theorem ready_idle : idleBench.Ready 10 := ⟨by decide, rfl, by decide⟩
theorem ready_busy : busyBench.Ready 10 := ⟨by decide, rfl, by decide⟩
theorem ready_capped : cappedBench.Ready 10 := ⟨by decide, rfl, by decide⟩

theorem witness_ResetState : standardConfig.Distinct ∧ benchBus.Ok := by decide
theorem witness_DistinctOpcodes : ∃ s, construct standardConfig benchBus = some s := ⟨_, by rfl⟩
theorem witness_AddressedFrames : (Instr.sectorErase 0xAB123456).addr? = some 0xAB123456 ∧
    (Instr.sectorErase 0x123456).op = (Instr.sectorErase 0xAB123456).op ∧
    (Instr.sectorErase 0x123456).addr? = some (low24 0xAB123456) ∧
    (Instr.sectorErase 0x123456).span? = (Instr.sectorErase 0xAB123456).span? := by decide
theorem witness_DecodeOfEncode :
    standardConfig.Distinct ∧ (Instr.pageProgram 0xFF123456 2 [1, 2]).wellFormed standardConfig = true := by decide
theorem witness_EncodeOfDecode :
    decode standardConfig [0x02, 0x00, 0x12, 0x34, 0xDE] = .ok (.pageProgram 0x001234 1 [0xDE]) := by rfl
theorem witness_UnknownOpcodesRefused : (0x60 : Byte) ∉ standardConfig.opc.toList := by decide
theorem witness_BareCommands : idleBench.Ready 10 ∧ Instr.powerDown ∈ [Instr.writeEnable, .volatileWriteEnable,
    .writeDisable, .releasePowerDown, .suspend, .resume, .powerDown] := ⟨ready_idle, by decide⟩
theorem witness_ResetSteps : busyBench.Ready 10 := ready_busy
theorem witness_ReadManufacturerId : idleBench.Ready 10 := ready_idle
theorem witness_ReadJedecId : idleBench.Ready 10 := ready_idle
theorem witness_ReadUniqueId : idleBench.Ready 10 := ready_idle

/-- A payload of exactly the buffer's length and of exactly `LEN_MAX`; and none at all. -/
theorem witness_ReadSfdp : cappedBench.Ready 10 ∧ 2 ≤ ([7, 8] : List Byte).length ∧ fitsLenMax cappedBench.cfg 2 = true :=
  ⟨ready_capped, by decide, by decide⟩
theorem witness_ReadData : cappedBench.Ready 10 ∧ 2 ≤ ([7, 8] : List Byte).length ∧ fitsLenMax cappedBench.cfg 2 = true :=
  ⟨ready_capped, by decide, by decide⟩
theorem witness_ReadData_none : idleBench.Ready 10 ∧ 0 ≤ ([] : List Byte).length ∧ fitsLenMax idleBench.cfg 0 = true :=
  ⟨ready_idle, by decide, by decide⟩
theorem witness_FastRead : cappedBench.Ready 10 ∧ 2 ≤ ([7, 8] : List Byte).length ∧ fitsLenMax cappedBench.cfg 2 = true :=
  ⟨ready_capped, by decide, by decide⟩
theorem witness_ReadSecurityRegister :
    cappedBench.Ready 10 ∧ 2 ≤ ([7, 8] : List Byte).length ∧ fitsLenMax cappedBench.cfg 2 = true :=
  ⟨ready_capped, by decide, by decide⟩
theorem witness_ReadStatusRegisters : busyBench.Ready 10 := ready_busy

/-! Both branches of the gate. -/

theorem witness_PageProgram : idleBench.Ready 10 ∧ 2 ≤ ([7, 8] : List Byte).length ∧ fitsLenMax idleBench.cfg 2 = true ∧
    (idleBench.answer 1).getLsbD 0 = false := ⟨ready_idle, by decide, by decide, by decide⟩
theorem witness_PageProgram_busy : busyBench.Ready 10 ∧ 2 ≤ ([7, 8] : List Byte).length ∧
    fitsLenMax busyBench.cfg 2 = true ∧ (busyBench.answer 1).getLsbD 0 = true :=
  ⟨ready_busy, by decide, by decide, by decide⟩
theorem witness_ArrayErases : idleBench.Ready 10 ∧ (idleBench.answer 1).getLsbD 0 = false := ⟨ready_idle, by decide⟩
theorem witness_ArrayErases_busy : busyBench.Ready 10 ∧ (busyBench.answer 1).getLsbD 0 = true := ⟨ready_busy, by decide⟩
theorem witness_ChipErase : idleBench.Ready 10 ∧ (idleBench.answer 1).getLsbD 0 = false := ⟨ready_idle, by decide⟩
theorem witness_ChipErase_busy : busyBench.Ready 10 ∧ (busyBench.answer 1).getLsbD 0 = true := ⟨ready_busy, by decide⟩
theorem witness_WriteStatusRegisters : idleBench.Ready 10 ∧ (idleBench.answer 1).getLsbD 0 = false :=
  ⟨ready_idle, by decide⟩
theorem witness_WriteStatusRegisters_busy : busyBench.Ready 10 ∧ (busyBench.answer 1).getLsbD 0 = true :=
  ⟨ready_busy, by decide⟩
theorem witness_MutateSecurityRegisters : cappedBench.Ready 10 ∧ 2 ≤ ([7, 8] : List Byte).length ∧
    fitsLenMax cappedBench.cfg 2 = true := ⟨ready_capped, by decide, by decide⟩
theorem witness_MutateSecurityRegisters_busy : busyBench.Ready 10 ∧ 2 ≤ ([7, 8] : List Byte).length ∧
    fitsLenMax busyBench.cfg 2 = true ∧ (busyBench.answer 1).getLsbD 0 = true :=
  ⟨ready_busy, by decide, by decide, by decide⟩

theorem witness_IsBusy : busyBench.Ready 10 := ready_busy
theorem witness_ResetPair : idleBench.Ready 10 ∧ (idleBench.answer 1).getLsbD 0 = false := ⟨ready_idle, by decide⟩
theorem witness_ResetPair_busy : busyBench.Ready 10 ∧ (busyBench.answer 1).getLsbD 0 = true := ⟨ready_busy, by decide⟩

/-- Before any `INIT`; the three answers of the identity test. -/
def firstInit (mfr dev : Byte) : State :=
  { State.constructed standardConfig benchBus with answers := [0, 0, 0, mfr, dev].map BusAnswer.byte }

theorem witness_Initialize_ok : (firstInit 0xEF 0x16).quiescent = true ∧ (firstInit 0xEF 0x16).BusCompletes ∧
    (firstInit 0xEF 0x16).answer 3 = 0xEF ∧ (firstInit 0xEF 0x16).answer 4 = 0x16 := by decide
theorem witness_Initialize_device : (firstInit 0xEF 0x17).quiescent = true ∧ (firstInit 0xEF 0x17).BusCompletes ∧
    (firstInit 0xEF 0x17).answer 3 = 0xEF ∧ (firstInit 0xEF 0x17).answer 4 ≠ 0x16 := by decide
theorem witness_Initialize_manufacturer : (firstInit 0xEE 0x16).quiescent = true ∧ (firstInit 0xEE 0x16).BusCompletes ∧
    (firstInit 0xEE 0x16).answer 3 ≠ 0xEF := by decide
theorem witness_IdentityTest : (0xEE : Byte) ≠ 0xEF ∧ (0x15 : Byte) ≠ 0x16 := by decide

theorem witness_BusyStopsGatedOperations : busyBench.Ready 10 ∧
    (Instr.programSecurityRegister 0 2 [7, 8]).wellFormed busyBench.cfg = true ∧
    isGated (Instr.programSecurityRegister 0 2 [7, 8]).op = true ∧ (busyBench.answer 1).toNat % 2 = 1 :=
  ⟨ready_busy, by decide, by decide, by decide⟩
theorem witness_SequencerFollowsProcedure : cappedBench.Ready 10 ∧
    (Instr.readSfdp 0xFFFFFFFF 2 [7, 8]).wellFormed cappedBench.cfg = true := ⟨ready_capped, by decide⟩
theorem witness_CompoundsFollowProcedure : idleBench.Ready 10 := ready_idle
theorem witness_RequestsEndQuiescent : idleBench.Ready 10 ∧ Request.reset.wellFormed idleBench.cfg = true :=
  ⟨ready_idle, by decide⟩
theorem witness_HostDutiesUnchecked : idleBench.Ready 10 ∧ (Instr.sectorErase 1).wellFormed idleBench.cfg = true ∧
    isGated (Instr.sectorErase 1).op = true ∧ (idleBench.answer 1).getLsbD 0 = false :=
  ⟨ready_idle, by decide, by decide, by decide⟩
theorem witness_TransactionCounts : busyBench.Ready 10 ∧ (Instr.sectorErase 1).wellFormed busyBench.cfg = true :=
  ⟨ready_busy, by decide⟩
theorem witness_ReadClockOnlyForReadData : idleBench.Ready 10 ∧ (Instr.readData 0 0 []).wellFormed idleBench.cfg = true :=
  ⟨ready_idle, by decide⟩
theorem witness_TransmitIndependentOfDevice : idleBench.Ready 10 ∧ Instr.chipErase.wellFormed idleBench.cfg = true ∧
    BusAnswer.never ∉ [BusAnswer.byte 9, .byte 8] ∧ isGated Instr.chipErase.op = true ∧
    (idleBench.answer 1).getLsbD 0 =
      (({ idleBench with answers := [.byte 9, .byte 8], drawn := 5 } : State).answer 1).getLsbD 0 :=
  ⟨ready_idle, by decide, by decide, by decide, by decide⟩
theorem witness_BufferFrame_read : cappedBench.Ready 10 ∧
    (Instr.readData 0 1 [7, 8]).wellFormed cappedBench.cfg = true ∧
    (Instr.readData 0 1 [7, 8]).span? = some (1, [7, 8]) ∧ dirOf (Instr.readData 0 1 [7, 8]).op = .read ∧
    0 < 1 ∧ ¬ 1 < 1 := ⟨ready_capped, by decide, by decide, by decide, by decide, by decide⟩
theorem witness_BufferFrame_write : idleBench.Ready 10 ∧
    (Instr.pageProgram 0 1 [7, 8]).wellFormed idleBench.cfg = true ∧
    (Instr.pageProgram 0 1 [7, 8]).span? = some (1, [7, 8]) ∧ dirOf (Instr.pageProgram 0 1 [7, 8]).op = .write :=
  ⟨ready_idle, by decide, by decide, by decide⟩
theorem witness_BufferFrame_none : idleBench.Ready 10 ∧ Instr.readSr1.wellFormed idleBench.cfg = true ∧
    Instr.readSr1.span? = none := ⟨ready_idle, by decide, by decide⟩
theorem witness_BufferWrites : (TransferBuffer.ofBytes [0, 9]).wf ∧ 1 < (TransferBuffer.ofBytes [0, 9]).len ∧
    (TransferBuffer.ofBytes [0, 9]).len ≤ 2 := by decide

theorem witness_Acceptance_mid : (after .readJedecId stalled).quiescent = false := by decide
theorem witness_Acceptance_illFormed : idleBench.quiescent = true ∧
    (Request.wire (.readData 0 1 [])).wellFormed idleBench.cfg = false := by decide
theorem witness_Acceptance_noPin : (firstInit 0xEF 0x16).quiescent = true ∧
    (Request.wire .readSr1).wellFormed (firstInit 0xEF 0x16).cfg = true ∧ (firstInit 0xEF 0x16).csId = none := by decide
theorem witness_Acceptance_init : (firstInit 0xEF 0x16).quiescent = true ∧
    (Request.init 10).wellFormed (firstInit 0xEF 0x16).cfg = true := by decide
theorem witness_StalledBus : (bench []).quiescent = true ∧ (bench []).csId = some 10 ∧
    Instr.chipErase.wellFormed (bench []).cfg = true ∧
    ({ bench [] with answers := [.never] } : State).answers = .never :: [] := by decide

/-- The trace a request adds where the transport completes exactly the exchanges of `rx`, and whether it ends stuck. -/
def stallsAfter (rx : List Byte) (r : Request) : Option (List Event × Bool) :=
  (next? (execRequest r { bench [] with answers := rx.map .byte ++ [.never] })).map
    (fun t => (t.trace, decide (t.quiescent = false)))

/-! P8, the third exchange; inside a gate; `IS_BUSY`; the second transaction of `RESET`; `INIT`; and an operation that needs
no exchange more than there are. -/

theorem witness_StalledBus_later : (bench []).quiescent = true ∧
    (Request.wire .readJedecId).wellFormed (bench []).cfg = true ∧
    stalled.answers = ([0x00, 0xEF] : List Byte).map .byte ++ .never :: [] ∧
    (stallsAfter [0x00, 0xEF] (.wire .readJedecId)) = some ([.csLow 10, .busBegin .default (busParams benchBus .default),
      .xfer 0x9F 0x00, .xfer 0x00 0xEF], true) := by decide
theorem witness_StalledBus_gate : (Request.wire (.sectorErase 0)).wellFormed (bench []).cfg = true ∧
    (stallsAfter [7] (.wire (.sectorErase 0))) = some ([.csLow 10, .busBegin .default (busParams benchBus .default),
      .xfer 0x05 7], true) := by decide
theorem witness_StalledBus_isBusy : (stallsAfter [7] .isBusy) =
    some ([.csLow 10, .busBegin .default (busParams benchBus .default), .xfer 0x05 7], true) := by decide
theorem witness_StalledBus_reset : (stallsAfter [0, 0, 7] .reset).map (fun x => (x.1.drop 6, x.2)) =
    some ([.csLow 10, .busBegin .default (busParams benchBus .default), .xfer 0x66 7, .busEnd, .csHigh 10,
      .csLow 10, .busBegin .default (busParams benchBus .default)], true) := by decide
theorem witness_StalledBus_init : (stallsAfter [] (.init 11)) =
    some ([.csHigh 11, .csLow 11, .busBegin .default (busParams benchBus .default)], true) := by decide
theorem witness_StalledBus_enough : (stallsAfter [7] (.wire .suspend)) =
    some ([.csLow 10, .busBegin .default (busParams benchBus .default), .xfer 0x75 7, .busEnd, .csHigh 10], false) := by
  decide

/-- Stuck at the third exchange of `READ_JEDEC_ID`. -/
theorem stuck_inv : (after .readJedecId stalled).Inv :=
  ⟨by decide, ⟨by decide, by decide, by decide, by decide⟩, by decide⟩
theorem idle_inv : ({ idleBench with port := [.request .isBusy] } : State).Inv :=
  ⟨by decide, ⟨by decide, by decide, by decide, by decide⟩, by decide⟩

theorem witness_OnlyStalledBusStops : (after .readJedecId stalled).Inv ∧ (after .readJedecId stalled).phase ≠ .idle ∧
    (after .readJedecId stalled).answers = .never :: [] ∧ step (after .readJedecId stalled) = .refused .busStalled :=
  ⟨stuck_inv, by decide, by decide, by rfl⟩
theorem witness_StepRunsRequest_record : idleBench.phase = .idle ∧
    ({ idleBench with port := [.request .reset] } : State).port = .request .reset :: [] := by decide
theorem witness_StepRunsRequest_frame : idleBench.phase = .idle ∧
    decode idleBench.cfg [0x06] = .ok .writeEnable := ⟨by decide, by rfl⟩
theorem witness_StepRunsRequest_noFrame : idleBench.phase = .idle ∧
    decode idleBench.cfg [0x60] = .error .unknownOpcode := ⟨by decide, by rfl⟩
theorem witness_StepRunsRequest_nothing : idleBench.phase = .idle ∧ idleBench.port = [] := by decide
theorem witness_StepRunsWord : State.reset.phase = .idle ∧
    decode State.reset.cfg (wordFrame State.reset.cfg 8 0x9F) = .ok .readJedecId := ⟨rfl, by rfl⟩
theorem witness_BeginBracket : idleBench.csId = some 10 := rfl
theorem witness_EndBracket : idleBench.csId = some 10 := rfl

/-! The arrows of the phase: from set-up; inside and at the end of the gate, both ways; inside and at the end of a command;
from the first to the second command of `RESET`. -/

/-- The sequencer advances, from one phase to another. -/
def advances (s : State) (a b : Phase) : Bool :=
  match s.tick with
  | .ok s' => decide (s.phase = a) && decide (s'.phase = b)
  | .error _ => false

theorem witness_PhaseAdvances_setup :
    advances (midway 0 { op := .init, cs := some 10 } idleBench) .setup (.cmd 0 .csLow) = true := by decide
theorem witness_PhaseAdvances_gate :
    advances (midway 2 { op := .reset } idleBench) (.gate .opcode) (.gate (.payload 0)) = true := by decide
theorem witness_PhaseAdvances_notBusy :
    advances (midway 5 { op := .reset } idleBench) (.gate .csHigh) (.cmd 0 .csLow) = true := by decide
theorem witness_PhaseAdvances_busy :
    advances (midway 5 { op := .reset } busyBench) (.gate .csHigh) .idle = true := by decide
theorem witness_PhaseAdvances_command :
    advances (midway 1 { op := .isBusy } idleBench) (.cmd 0 .busBegin) (.cmd 0 .opcode) = true := by decide
theorem witness_PhaseAdvances_reset :
    advances (midway 10 { op := .reset } (bench [0, 0, 1, 1])) (.cmd 0 .csHigh) (.cmd 1 .csLow) = true := by decide
theorem witness_PhaseAdvances_return :
    advances (midway 15 { op := .reset } (bench [0, 0, 1, 1])) (.cmd 1 .csHigh) .idle = true := by decide

theorem midway_inv : (midway 2 { op := .isBusy } idleBench).Inv :=
  ⟨by decide, ⟨by decide, by decide, by decide, by decide⟩, by decide⟩
theorem witness_NoByteOutsideBracket : (midway 2 { op := .isBusy } idleBench).Inv ∧
    (midway 2 { op := .isBusy } idleBench).tick = .ok (midway 3 { op := .isBusy } idleBench) ∧
    (midway 3 { op := .isBusy } idleBench).trace = (midway 2 { op := .isBusy } idleBench).trace ++ [.xfer 0x05 0x00] :=
  ⟨midway_inv, by rfl, by decide⟩

theorem step_isBusy : step { idleBench with port := [.request .isBusy] } =
    .next (stepped { idleBench with port := [.request .isBusy] }) := by rfl
theorem step_init : step { idleBench with port := [.request (.init 11)] } =
    .next (stepped { idleBench with port := [.request (.init 11)] }) := by rfl

theorem witness_StepKeepsInvariant : ({ idleBench with port := [.request .isBusy] } : State).Inv ∧
    step { idleBench with port := [.request .isBusy] } =
      .next (stepped { idleBench with port := [.request .isBusy] }) := ⟨idle_inv, step_isBusy⟩
theorem witness_InvariantSaysR54_idle : ({ idleBench with port := [.request .isBusy] } : State).Inv ∧
    idleBench.phase = .idle := ⟨idle_inv, by decide⟩
theorem witness_InvariantSaysR54_mid : (after .readJedecId stalled).Inv ∧ (after .readJedecId stalled).busOpen = true ∧
    (after .readJedecId stalled).csLevel = .low := ⟨stuck_inv, by decide, by decide⟩
theorem witness_BusConfigurationFixed : step { idleBench with port := [.request .isBusy] } =
    .next (stepped { idleBench with port := [.request .isBusy] }) := step_isBusy
theorem witness_ChipSelectOnlyByInit : step { idleBench with port := [.request (.init 11)] } =
      .next (stepped { idleBench with port := [.request (.init 11)] }) ∧
    (stepped { idleBench with port := [.request (.init 11)] }).csId ≠ idleBench.csId := ⟨step_init, by decide⟩
theorem witness_LastStatusRecordsResponse :
    execRequest (.wire .readSr1) idleBench = .next (after .readSr1 idleBench) := by rfl
theorem witness_LastStatusReadByNothing :
    execRequest (.wire .readSr1) idleBench = .next (after .readSr1 idleBench) := by rfl
theorem witness_LastStatusReadByNothing_refused :
    execRequest (.wire .readSr1) (firstInit 0xEF 0x16) = .refused .noChipSelect := by rfl
theorem witness_ResponsesByOperation :
    execRequest (.wire .chipErase) busyBench = .next (after .chipErase busyBench) := by rfl
theorem witness_TraceOnlyGrows : step { idleBench with port := [.request .isBusy] } =
    .next (stepped { idleBench with port := [.request .isBusy] }) := step_isBusy

/-- A device that does no internal work. -/
def quietDevice : Device where
  working := fun _ => false
  acts := fun _ => false
  completes := fun _ => false

theorem undisturbed_quiet (c : Config) (xs : List Exchange) (k : Nat) : undisturbed c quietDevice xs k :=
  fun _ _ _ _ => .inr rfl

theorem witness_IdentityContractGivesOk : (firstInit 0xEF 0x16).quiescent = true ∧ (firstInit 0xEF 0x16).BusCompletes ∧
    undisturbed (firstInit 0xEF 0x16).cfg quietDevice [] 0 ∧ quietDevice.working 0 = false ∧
    polled (firstInit 0xEF 0x16).cfg [].reverse = true ∧
    settled (firstInit 0xEF 0x16).cfg
      ([] ++ [{ tx := identityFrame (firstInit 0xEF 0x16).cfg, rx := (firstInit 0xEF 0x16).received 5 }]) 0 = true ∧
    identityContract (firstInit 0xEF 0x16).cfg quietDevice
      ([] ++ [{ tx := identityFrame (firstInit 0xEF 0x16).cfg, rx := (firstInit 0xEF 0x16).received 5 }]) := by
  refine ⟨by decide, by decide, undisturbed_quiet _ _ _, rfl, rfl, by decide, fun k x hx _ _ _ _ => ?_⟩
  rw [List.mem_singleton.mp (List.mem_of_getElem? hx)]
  decide

/-- The JEDEC bytes of R80's example. -/
def jedecBench : State := bench [0, 0xEF, 0x40, 0x17]

theorem witness_IdentityContractGivesOk_jedec : jedecBench.quiescent = true ∧ jedecBench.BusCompletes ∧
    jedecBench.csId = some 10 ∧
    settled jedecBench.cfg ([] ++ [{ tx := jedecFrame jedecBench.cfg, rx := jedecBench.received 4 }]) 0 = true ∧
    identityContract jedecBench.cfg quietDevice
      ([] ++ [{ tx := jedecFrame jedecBench.cfg, rx := jedecBench.received 4 }]) := by
  refine ⟨by decide, by decide, rfl, by decide, fun k x hx _ _ _ _ => ?_⟩
  rw [List.mem_singleton.mp (List.mem_of_getElem? hx)]
  decide

/-! P2: write-enable, program two bytes, poll, read them back, with the device answering as P2 has it. -/

def p2Start : State := bench ([0] ++ [0, 0x02, 0, 0, 0, 0, 0, 0] ++ [0, 0x00] ++ [0, 0, 0, 0, 0x11, 0x22])
def p2Enabled : State := after .writeEnable p2Start
def p2Programmed : State := after (.pageProgram 0x000100 2 [0x11, 0x22]) p2Enabled
def p2Polled : State := (next? (execIsBusy p2Programmed)).getD p2Programmed
def p2Read : State := after (.readData 0x000100 2 [0, 0]) p2Polled

theorem p2_exchanges : p2Read.exchanges =
    [{ tx := [0x06], rx := [0] }, { tx := [0x05, 0x00], rx := [0, 0x02] },
     { tx := [0x02, 0x00, 0x01, 0x00, 0x11, 0x22], rx := [0, 0, 0, 0, 0, 0] },
     { tx := [0x05, 0x00], rx := [0, 0x00] },
     { tx := [0x03, 0x00, 0x01, 0x00, 0x00, 0x00], rx := [0, 0, 0, 0, 0x11, 0x22] }] := by decide

/-- P2's device: it starts work on the page program and completes it before the poll. -/
def p2Device : Device where
  working := fun _ => false
  acts := fun k => k == 2
  completes := fun k => k == 2

theorem p2_contract : roundTripContract standardConfig p2Device p2Read.exchanges := by
  intro before post polls we gate pp poll rd a b hxs _ _ _ _ _ _ _ _ hpp _ _ _ _
  rw [p2_exchanges] at hxs
  have hlen := congrArg List.length hxs
  simp only [List.length_append, List.length_cons, List.length_nil] at hlen
  obtain rfl : before = [] := List.eq_nil_of_length_eq_zero (by omega)
  obtain rfl : polls = [] := List.eq_nil_of_length_eq_zero (by omega)
  obtain rfl : post = [] := List.eq_nil_of_length_eq_zero (by omega)
  simp only [List.nil_append, List.append_nil, List.cons_append, List.cons.injEq, and_true] at hxs
  obtain ⟨-, -, rfl, -, rfl⟩ := hxs
  have hb := congrArg (List.drop 4) hpp
  have : (encode standardConfig (.pageProgram a b.length b)).drop 4 = b := by
    simp [encode, frame, descriptor, Instr.op, isAddressed, dummyCount, dirOf, addressField, Instr.payload, Instr.val?,
      Instr.span?, Instr.length, payloadLength, fixedLength, Instr.addr?]
  rw [this] at hb
  rw [← hb]
  rfl

theorem witness_RoundTrip : p2Start.Ready 10 ∧ ([0x11, 0x22] : List Byte).length ≤ ([0, 0] : List Byte).length ∧
    insidePage (.pageProgram 0x000100 2 [0x11, 0x22]) = true ∧ inRange (.pageProgram 0x000100 2 [0x11, 0x22]) = true ∧
    settled p2Start.cfg p2Start.exchanges p2Start.exchanges.length = true ∧
    undisturbed p2Start.cfg p2Device p2Start.exchanges p2Start.exchanges.length ∧
    p2Device.working p2Start.exchanges.length = false ∧
    exec .writeEnable p2Start = .next p2Enabled ∧
    exec (.pageProgram 0x000100 2 [0x11, 0x22]) p2Enabled = .next p2Programmed ∧
    p2Programmed.lastStatus = some .ok ∧ execIsBusy p2Programmed = .next p2Polled ∧
    p2Polled.responses.getLast? = some (.boolean false) ∧
    exec (.readData 0x000100 2 [0, 0]) p2Polled = .next p2Read ∧
    roundTripContract p2Start.cfg p2Device p2Read.exchanges :=
  ⟨⟨by decide, rfl, by decide⟩, by decide, by decide, by decide, by decide, fun _ _ _ _ => .inr rfl, rfl, by rfl, by rfl,
   by decide, by rfl, by decide, by rfl, p2_contract⟩

/-! R186: after the page program of P2 a sector erase straight away, on a device that is still working. -/

def slowStart : State := after .writeEnable (bench ([0] ++ [0, 0x02, 0, 0, 0, 0, 0, 0] ++ [0, 0x03]))
def slowProgrammed : State := after (.pageProgram 0x000100 2 [0x11, 0x22]) slowStart
def slowErased : State := after (.sectorErase 0x001000) slowProgrammed

/-- It starts work on the page program, transaction 2, and is working at the next one. -/
def slowDevice : Device where
  working := fun k => decide (3 ≤ k)
  acts := fun k => k == 2
  completes := fun _ => false

theorem slow_exchanges : slowErased.exchanges =
    [{ tx := [0x06], rx := [0] }, { tx := [0x05, 0x00], rx := [0, 0x02] },
     { tx := [0x02, 0x00, 0x01, 0x00, 0x11, 0x22], rx := [0, 0, 0, 0, 0, 0] },
     { tx := [0x05, 0x00], rx := [0, 0x03] }] := by decide

theorem slow_contract : BusyContract standardConfig slowDevice slowErased.exchanges where
  flag := by
    rw [slow_exchanges]
    rintro (_ | _ | _ | _ | k) x hx _ hg <;> simp at hx <;> subst hx <;> first | decide | exact absurd hg (by decide)
  lasts := by
    rw [slow_exchanges]
    intro k _ _
    simp only [slowDevice, Bool.not_false, Bool.and_true]
    rcases Nat.lt_trichotomy k 2 with h | rfl | h
    · simp [show ¬ 3 ≤ k + 1 by omega, show ¬ 3 ≤ k by omega, show k ≠ 2 by omega]
    · rfl
    · simp [show 3 ≤ k + 1 by omega, show 3 ≤ k by omega]
  starts := by
    rw [slow_exchanges]
    rintro (_ | _ | _ | _ | k) x i hx _ _ hi hg <;> simp at hx <;> subst hx
    · have hi : some Instr.writeEnable = some i := hi
      cases hi; exact absurd hg (by decide)
    · have hi : some Instr.readSr1 = some i := hi
      cases hi; exact absurd hg (by decide)
    · rfl
    · have hi : some Instr.readSr1 = some i := hi
      cases hi; exact absurd hg (by decide)
  onlyFrames := by
    rw [slow_exchanges]
    rintro (_ | _ | _ | _ | k) x hx _ ha <;> simp at hx <;> subst hx
    · exact absurd ha (by decide)
    · exact absurd ha (by decide)
    · exact ⟨.pageProgram 0x000100 2 [0x11, 0x22], by rfl, .inl (by decide)⟩
    · exact absurd ha (by decide)

/-- The same device meets R82. -/
theorem slow_writeEnable : writeEnableContract standardConfig slowDevice slowErased.exchanges := by
  rw [slow_exchanges]
  rintro (_ | _ | _ | _ | k) x i hx _ _ hi hg ha <;> simp at hx <;> subst hx <;> try exact absurd ha (by decide)
  exact ⟨0, _, by decide, rfl, .inl (by rfl)⟩

/-- No frame of the first three met it working. -/
theorem slow_undisturbed : undisturbed standardConfig slowDevice slowProgrammed.exchanges 3 :=
  fun m _ h _ => .inr (by simp only [slowDevice, decide_eq_false_iff_not]; omega)

theorem witness_SecondMutationBusy : slowStart.Ready 10 ∧ slowStart.cfg.Distinct ∧
    (Instr.pageProgram 0x000100 2 [0x11, 0x22]).wellFormed slowStart.cfg = true ∧
    (Instr.sectorErase 0x001000).wellFormed slowStart.cfg = true ∧
    isGated (Instr.pageProgram 0x000100 2 [0x11, 0x22]).op = true ∧ isGated (Instr.sectorErase 0x001000).op = true ∧
    exec (.pageProgram 0x000100 2 [0x11, 0x22]) slowStart = .next slowProgrammed ∧
    slowProgrammed.lastStatus = some .ok ∧
    settled slowStart.cfg slowProgrammed.exchanges slowProgrammed.exchanges.length = true ∧
    undisturbed slowStart.cfg slowDevice slowProgrammed.exchanges slowProgrammed.exchanges.length ∧
    slowDevice.completes (slowProgrammed.exchanges.length - 1) = false ∧
    exec (.sectorErase 0x001000) slowProgrammed = .next slowErased ∧
    BusyContract slowStart.cfg slowDevice slowErased.exchanges :=
  ⟨⟨by decide, by decide, by decide⟩, by decide, by decide, by decide, by decide, by decide, by rfl, by decide, by decide,
   slow_undisturbed, rfl, by rfl, slow_contract⟩

/-! R84: the cases after which nothing is supposed of the device. -/

/-- A misaligned erase (U1), with its write-enable. -/
theorem test_unsettled_misaligned :
    settled standardConfig [{ tx := [0x06], rx := [0] }, { tx := [0x20, 0x00, 0x10, 0x01], rx := [0, 0, 0, 0] }] 2 = false := by
  decide

/-- A mutating frame with no write-enable (U3). -/
theorem test_unsettled_not_enabled :
    settled standardConfig [{ tx := [0x20, 0x00, 0x10, 0x00], rx := [0, 0, 0, 0] }] 1 = false := by decide

/-- P3, request 6: a retry after `BUSY` with the write-enable of before (N28). -/
theorem test_unsettled_retry : settled standardConfig [{ tx := [0x06], rx := [0] }, { tx := [0x05, 0x00], rx := [0, 0x01] },
    { tx := [0x05, 0x00], rx := [0, 0x00] }, { tx := [0x02, 0x00, 0x30, 0x00, 0xAA], rx := [0, 0, 0, 0, 0] }] 4 = false := by
  decide

/-- After `POWER_DOWN` a status read may see any byte (R232). -/
theorem test_unsettled_power_down : settled standardConfig [{ tx := [0xB9], rx := [0] }] 1 = false := by decide

/-! Host duties (R275, R278). -/

theorem test_duties_met : hostDuties [.wire .writeEnable, .isBusy, .wire (.sectorErase 0x001000)] = true := by decide
theorem test_duties_disabled :
    hostDuties [.wire .writeEnable, .wire .writeDisable, .wire (.sectorErase 0x001000)] = false := by decide
theorem test_duties_page_end : hostDuties [.wire .writeEnable, .wire (.pageProgram 0x0000FF 2 [1, 2])] = false := by decide

end Sys2Proof.Tests
end

section
/-! SUPPORT. A request is the issue of a call, and where the transport completes every exchange the sequencer does what
the procedure of that request says (41_command_dispatcher.md R137, R146, R147, R161, R214): `exec_eq_execFrame`,
`execIsBusy_eq_execPoll`, `execReset_eq_execResetPair`, `execInit_eq_execIdentify`. -/

namespace Sys2Proof.Machine

/-! ## Requests as calls -/

/-- The call a request is (R102, R104). -/
def requestCall : Request → Call
  | .wire i => callOf i
  | .isBusy => { op := .isBusy }
  | .reset => { op := .reset }
  | .init cs => { op := .init, cs := some cs }

theorem execRequest_eq_issue (r : Request) (s : State) : execRequest r s = issue (requestCall r) s := by
  cases r with
  | wire i => exact exec_eq_issue i s
  | isBusy => rfl
  | reset => rfl
  | init cs => rfl

theorem fits_callOf (c : Config) (i : Instr) : (callOf i).fits c = i.wellFormed c := by
  simp only [Call.fits, callOf, Instr.wellFormed]
  cases i.span? with
  | none => rfl
  | some x => rfl

theorem fits_requestCall (c : Config) (r : Request) : (requestCall r).fits c = r.wellFormed c := by
  cases r with
  | wire i => exact fits_callOf c i
  | isBusy => rfl
  | reset => rfl
  | init cs => rfl

/-- An engine in the middle of an operation accepts nothing (R255). -/
theorem issue_of_not_quiescent {s : State} (h : s.quiescent = false) (r : Call) :
    issue r s = .refused .notQuiescent := by
  simp [issue, State.rejects, h]

/-- An accepted request runs (R253, R268). -/
theorem issue_of_accepted {r : Call} {s : State} (hq : s.quiescent = true) (hf : r.fits s.cfg = true)
    (hc : s.csId = none → r.op = .init) : issue r s = .next (runTicks (r.events s.cfg) (s.accept r)) := by
  have hno : s.rejects r = none := by
    simp only [State.rejects, hq, hf, Bool.true_eq_false, if_false]
    exact if_neg fun ⟨hop, hcs⟩ => hop (hc hcs)
  simp only [issue, hno]

/-! ## The state between operations -/

/-- The engine with no operation in progress: the latches empty, the phase idle. -/
def State.rest (s : State) : State := { s with latch := Latches.empty, phase := .idle }

theorem State.rest_of_quiescent {s : State} (h : s.quiescent = true) : s.rest = s := by
  obtain ⟨hp, -, -, hl⟩ := quiescent_cases h
  rw [State.rest, ← hp, ← hl]

theorem rest_accept_callOf {s : State} (h : s.quiescent = true) (i : Instr) :
    (s.accept (callOf i)).rest = s.handOver i := by
  have hs := State.rest_of_quiescent h
  cases hi : i.span? with
  | none =>
    simp only [State.handOver, hi]
    rw [← hs]
    simp [State.accept, callOf, hi, State.rest]
  | some x =>
    simp only [State.handOver, hi]
    rw [← hs]
    simp [State.accept, callOf, hi, State.rest, State.setBuf]

theorem State.setCs_self {s : State} {l : CsLevel} (h : s.csLevel = l) : s.setCs l = s := by
  subst h
  rfl

/-- A call that hands over no buffer changes nothing but latches and phase (R31). -/
theorem rest_accept {s : State} (h : s.quiescent = true) {r : Call} (hb : r.buf = none) : (s.accept r).rest = s := by
  have hs := State.rest_of_quiescent h
  rw [← hs]
  simp [State.accept, hb, State.rest]

/-- An idle engine stays where it is, however many events are allowed. -/
theorem Reaches.idle {k : Nat} {s u : State} (h : Reaches k s u) (hu : u.phase = .idle) (m : Nat) :
    Reaches (k + m) s u := fun m' => by
  rw [Nat.add_assoc, h, runTicks_idle _ hu, runTicks_idle _ hu]

/-! ## The gate -/

/-- A gated operation (R147): the gate's six events, then what follows where it reads not busy. -/
theorem reaches_gateThen {s : State} {p : CsId} {k : State → State} {n : Nat} (hb : s.BusCompletes)
    (hcs : s.csId = some p) (hl : s.csLevel = .high) (ho : s.busOpen = false) (hout : s.latch.outputs = [])
    (hp : s.phase = .gate .csLow)
    (hk : Reaches n ((s.transact p .default (gateFrame s.cfg)).goto (.cmd 0 .csLow))
      (k (s.rest.transact p .default (gateFrame s.cfg)))) :
    Reaches (6 + n) s (s.rest.gateThen p k) := by
  have gate := reaches_gate hb hcs hl ho hout hp
  have hans : s.rest.answer 1 = s.answer 1 := rfl
  simp only [State.gateThen, hans]
  split at gate
  · next hbusy =>
    rw [if_pos hbusy]
    exact gate.idle rfl n
  · next hbusy =>
    rw [if_neg hbusy]
    exact gate.trans hk

/-! ## Wire operations -/

/-- R37: a gated operation starts at its gate, any other at its command. -/
theorem firstPhase_callOf (i : Instr) :
    (callOf i).op.firstPhase = if isGated i.op then .gate .csLow else .cmd 0 .csLow := rfl

/-- R126: the six events of the gate, where there is one, and those of the command transaction. -/
theorem events_callOf (c : Config) (i : Instr) :
    (callOf i).events c = (if isGated i.op then 6 else 0) + frameEvents (descriptor c i.op i.length) := by
  have hlen : (payloadLength i.op (callOf i).n).getD 0 = i.length := by
    rw [show (callOf i).n = i.span?.map Prod.fst from rfl, payloadLength_op, Option.getD_some]
  rw [← hlen]
  rfl

/-- The return of a command transaction is the procedure's (R137). -/
theorem returned_eq_command (g : State) (p : CsId) (i : Instr) :
    ((g.transact p (clkOf i.op) (encode g.cfg i)).setBuf (g.filled i)).returnStatus .ok (g.captured i) =
      g.rest.command p i := rfl

/-- R137: the sequencer does what `Exec` says. -/
theorem exec_eq_execFrame {i : Instr} {s : State} {p : CsId} (h : s.Ready p) (hwf : i.wellFormed s.cfg = true) :
    exec i s = .next (s.execFrame p i) := by
  obtain ⟨hq, hcs, hb⟩ := h
  obtain ⟨-, hl, ho, -⟩ := quiescent_cases hq
  have hbuf : ∀ n b, i.span? = some (n, b) → (s.accept (callOf i)).buf = TransferBuffer.ofBytes b :=
    fun n b hi => State.accept_buf_some s _ (by simp [callOf, hi])
  rw [exec_eq_issue, issue_of_accepted hq (by rw [fits_callOf, hwf]) (by simp [hcs]), State.execFrame,
    ← rest_accept_callOf hq]
  congr 1
  apply Reaches.runTicks
  cases hg : isGated i.op with
  | false =>
    have run := reaches_return (g := s.accept (callOf i)) hwf rfl (by simp [firstPhase_callOf, hg]) hl ho hb hcs hbuf
    rw [returned_eq_command] at run
    exact run.congr (by simp [events_callOf, hg]) rfl
  | true =>
    have run := reaches_return
      (g := ((s.accept (callOf i)).transact p .default (gateFrame s.cfg)).goto (.cmd 0 .csLow)) hwf rfl rfl hl ho
      (State.completes_consume hb _) hcs hbuf
    rw [returned_eq_command] at run
    have whole := reaches_gateThen (s := s.accept (callOf i)) (k := fun g => g.command p i) hb hcs hl ho rfl
      (by simp [firstPhase_callOf, hg]) run
    exact whole.congr (by simp [events_callOf, hg]) rfl

/-! ## Compound operations -/

/-- A transaction of the opcode alone (R225). -/
theorem reaches_bare {s u : State} {p : CsId} {j : Fin 2} {w : WireOp}
    (hf : s.commandDesc j = some (descriptor s.cfg w 0))
    (hbare : isAddressed w = false ∧ dummyCount s.cfg w = 0) (hb : s.BusCompletes) (hcs : s.csId = some p)
    (hl : s.csLevel = .high) (ho : s.busOpen = false) (hp : s.phase = .cmd j .csLow)
    (hu : ((s.transact p (clkOf w) [opcodeOf s.cfg w]).goto (.cmd j .csHigh)).commandDone j = .ok u) :
    Reaches 5 s u := by
  obtain ⟨haddr, hdummy⟩ := hbare
  have hframe : frameBytes (descriptor s.cfg w 0) 0 [] = [opcodeOf s.cfg w] := by
    simp [frameBytes, descriptor, haddr, hdummy]
  refine (reaches_command (a := 0) hf hb hcs hl ho (by simp [descriptor, haddr]) hp (PayloadOf.empty rfl)
    (u := u) ?_).congr (by simp [headerLength, descriptor, haddr, hdummy]) rfl
  rw [hframe]
  exact hu

/-- R146: one status read, whose sample is the answer. -/
theorem execIsBusy_eq_execPoll {s : State} {p : CsId} (h : s.Ready p) : execIsBusy s = .next (s.execPoll p) := by
  obtain ⟨hq, hcs, hb⟩ := h
  obtain ⟨-, hl, ho, -⟩ := quiescent_cases hq
  have hrest : (s.accept { op := .isBusy }).rest = s := rest_accept hq rfl
  have hsample : (s.consume 1).received 1 = [s.answer 1] := by
    simp [State.received, List.range_succ, State.answer_consume hb]
  rw [execIsBusy, issue_of_accepted hq rfl (by simp [hcs])]
  congr 1
  have command := reaches_command (s := s.accept { op := .isBusy }) (j := 0) (fd := gateDesc s.cfg) (a := 0)
    (u := ((s.accept { op := .isBusy }).rest).execPoll p) rfl hb hcs hl ho
    (by simp [gateDesc, descriptor, isAddressed]) rfl
    (PayloadOf.outputs rfl (.inr rfl) (State.length_received ..))
    (by
      rw [show ((s.accept { op := .isBusy }).consume (headerLength (gateDesc s.cfg))).received (gateDesc s.cfg).n =
        [s.answer 1] from hsample]
      rfl)
  rw [hrest] at command
  exact command.runTicks

/-- R214: the gate, then two transactions of one opcode each. -/
theorem execReset_eq_execResetPair {s : State} {p : CsId} (h : s.Ready p) :
    execReset s = .next (s.execResetPair p) := by
  obtain ⟨hq, hcs, hb⟩ := h
  obtain ⟨-, hl, ho, -⟩ := quiescent_cases hq
  have hrest : (s.accept { op := .reset }).rest = s := rest_accept hq rfl
  rw [execReset, issue_of_accepted hq rfl (by simp [hcs])]
  congr 1
  have first := reaches_bare (w := .enableReset) (j := 0)
    (s := ((s.accept { op := .reset }).transact p .default (gateFrame s.cfg)).goto (.cmd 0 .csLow))
    (p := p) rfl ⟨rfl, rfl⟩ (State.completes_consume hb _) (by simpa using hcs) (by simpa using hl)
    (by simpa using ho) rfl rfl
  have second := reaches_bare (w := .resetDevice) (j := 1)
    (s := (((s.accept { op := .reset }).transact p .default (gateFrame s.cfg)).transact p .default
      [opcodeOf s.cfg .enableReset]).goto (.cmd 1 .csLow))
    (p := p) rfl ⟨rfl, rfl⟩ (State.completes_consume (State.completes_consume hb _) _) (by simpa using hcs)
    (by simpa using hl) (by simpa using ho) rfl rfl
  have whole := reaches_gateThen (s := s.accept { op := .reset }) (n := 10)
    (k := fun g => ((g.transact p .default [opcodeOf g.cfg .enableReset]).transact p .default
      [opcodeOf g.cfg .resetDevice]).done .ok []) hb hcs hl ho rfl rfl (first.trans second)
  rw [hrest] at whole
  exact whole.runTicks

/-- R161: the set-up event, then the identity; also before a first `INIT`. -/
theorem execInit_eq_execIdentify {s : State} (hq : s.quiescent = true) (hb : s.BusCompletes) (cs : CsId) :
    execInit cs s = .next (s.execIdentify cs) := by
  obtain ⟨-, hl, ho, -⟩ := quiescent_cases hq
  rw [execInit, issue_of_accepted hq rfl (by simp)]
  congr 1
  generalize hg : (((s.accept { op := .init, cs := some cs }).setCsId cs).emit (.csHigh cs)).goto (.cmd 0 .csLow) = g
  have hrest : g.rest = (s.setCsId cs).emit (.csHigh cs) := by
    have := rest_accept (r := { op := .init, cs := some cs }) hq rfl
    rw [← hg, ← congrArg (fun x => (State.setCsId x cs).emit (.csHigh cs)) this]
    rfl
  have setup : Reaches 1 (s.accept { op := .init, cs := some cs }) g := by
    rw [← hg, ← State.setCs_self (s := (s.accept { op := .init, cs := some cs }).setCsId cs) hl]
    exact Reaches.one rfl
  have hlatch : g.latch = { Latches.empty with op := some .init, cs := some cs } := by rw [← hg]; rfl
  have hgb : g.BusCompletes := by rw [← hg]; exact hb
  have hcfg : g.cfg = s.cfg := by rw [← hg]; rfl
  have hans : ∀ k, g.answer k = s.answer k := fun k => by rw [← hg]; rfl
  have hbytes : (g.consume 3).received 2 = [s.answer 3, s.answer 4] := by
    simp [State.received, List.range_succ, State.answer_consume hgb, hans]
  have command := reaches_command (s := g) (j := 0) (p := cs) (fd := descriptor s.cfg .readManufacturerId 2) (a := 0)
    (u := (g.rest.transact cs .default (identityFrame s.cfg)).done (identityStatus (s.answer 3) (s.answer 4)) [])
    (by simp [State.commandDesc, hlatch, hcfg, OpName.frameOf, payloadLength, fixedLength]) hgb (by rw [← hg]; rfl)
    (by rw [← hg]; exact hl) (by rw [← hg]; exact ho) (by simp [descriptor, isAddressed]) (by rw [← hg]; rfl)
    (PayloadOf.outputs rfl (.inr (by rw [hlatch]; rfl)) (State.length_received ..))
    (by
      rw [show (g.consume (headerLength (descriptor s.cfg .readManufacturerId 2))).received
        (descriptor s.cfg .readManufacturerId 2).n = [s.answer 3, s.answer 4] from hbytes]
      simp only [State.commandDone, State.goto_latch, State.setOutputs_latch, State.setBuf_latch, State.transact_latch,
        hlatch]
      rfl)
  rw [hrest] at command
  exact (setup.trans command).runTicks

end Sys2Proof.Machine
end

section
/-! SUPPORT. What one event of the sequencer does to the lines and to the oracle's script, `event_made` and
`tick_ticked`, and from it what a transport that completes so many exchanges and then none does to a whole run:
`runTicks_cut`. -/

namespace Sys2Proof.Machine

/-! ## Where the lines stand -/

/-- Chip-select, and whether the bus is open, before the event at a position (R44, R45). -/
def TxPos.lines : TxPos → CsLevel × Bool
  | .csLow => (.high, false)
  | .busBegin => (.low, false)
  | .opcode => (.low, true)
  | .addr _ => (.low, true)
  | .dummy _ => (.low, true)
  | .payload _ => (.low, true)
  | .busEnd => (.low, true)
  | .csHigh => (.low, false)

/-- The same for a phase: between transactions chip-select is high and the bus closed. -/
def Phase.lines : Phase → CsLevel × Bool
  | .idle => (.high, false)
  | .setup => (.high, false)
  | .gate tp => tp.lines
  | .cmd _ tp => tp.lines

theorem payloadStart_lines (fd : FrameDesc) : (payloadStart fd).lines = (.low, true) := by
  unfold payloadStart; split <;> rfl

theorem dummyStart_lines (fd : FrameDesc) : (dummyStart fd).lines = (.low, true) := by
  unfold dummyStart; split
  · rfl
  · exact payloadStart_lines fd

theorem addressStart_lines (fd : FrameDesc) : (addressStart fd).lines = (.low, true) := by
  unfold addressStart; split
  · rfl
  · exact dummyStart_lines fd

theorem TxPos.lines_of_exchange {tp : TxPos} (h : tp ∉ [TxPos.csLow, .busBegin, .busEnd, .csHigh]) :
    tp.lines = (.low, true) := by
  cases tp with
  | csLow | busBegin | busEnd | csHigh => simp at h
  | opcode | addr | dummy | payload => rfl

/-- After an exchange the transaction goes on, chip-select low and the bus open (R37). -/
theorem nextPos_of_exchange {fd : FrameDesc} {tp : TxPos} (h : tp ∉ [TxPos.csLow, .busBegin, .busEnd, .csHigh]) :
    ∃ tp', nextPos fd tp = some tp' ∧ tp'.lines = (.low, true) := by
  cases tp with
  | csLow | busBegin | busEnd | csHigh => simp at h
  | opcode => exact ⟨_, rfl, addressStart_lines fd⟩
  | addr k =>
    refine ⟨_, rfl, ?_⟩
    split
    · rfl
    · exact dummyStart_lines fd
  | dummy k =>
    refine ⟨_, rfl, ?_⟩
    split
    · rfl
    · exact payloadStart_lines fd
  | payload k =>
    refine ⟨_, rfl, ?_⟩
    split <;> rfl

/-- The clock setting of the open transaction after an event (R45, R46). -/
def clockStep (clk : Option Clk) : Event → Option Clk
  | .busBegin c _ => some c
  | .busEnd => none
  | .csLow _ => clk
  | .xfer _ _ => clk
  | .csHigh _ => clk

theorem clockIn_eq_foldl (es : List Event) : clockIn es = es.foldl clockStep none := by
  unfold clockIn
  congr 1

/-! ## One event -/

/-- An exchange takes the script's next answer and leaves the lines alone (R13). -/
structure Exchanged (s t : State) (e : Event) : Prop extends Emitted s t e where
  exchange : e.exchange = true
  answers : t.answers = s.answers.tail
  csLevel : t.csLevel = s.csLevel
  busOpen : t.busOpen = s.busOpen
  busClk : t.busClk = s.busClk

theorem xfer_exchanged {s t : State} {tx rx : Byte} (h : s.xfer tx = .ok (rx, t)) : Exchanged s t (.xfer tx rx) := by
  unfold State.xfer at h
  split at h <;> cases h
  · next hs =>
    exact ⟨⟨rfl, rfl, rfl, ⟨_, rfl⟩, rfl, rfl, rfl, rfl, rfl⟩, rfl, by simp [hs], rfl, rfl, rfl⟩
  · next hs =>
    exact ⟨⟨rfl, rfl, rfl, ⟨_, rfl⟩, rfl, rfl, rfl, rfl, rfl⟩, rfl, by simp [hs], rfl, rfl, rfl⟩

theorem send_exchanged {s t : State} {tx : Byte} (h : s.send tx = .ok t) : ∃ rx, Exchanged s t (.xfer tx rx) := by
  unfold State.send at h
  split at h <;> cases h
  next hx => exact ⟨_, xfer_exchanged hx⟩

theorem receive_exchanged {s t : State} {k : Nat} (h : s.receive k = .ok t) :
    ∃ rx, Exchanged s t (.xfer readFill rx) := by
  unfold State.receive at h
  split at h
  · cases h
  · next rx s' hx =>
    obtain ⟨⟨htr, hst, hre, ⟨o, hla⟩, hph, hcs, hbc, hcf, hpo⟩, hex, han, hl, ho, hc⟩ := xfer_exchanged hx
    have hout : ∃ o', { s'.latch with outputs := s'.latch.outputs ++ [rx] } = { s.latch with outputs := o' } :=
      ⟨s'.latch.outputs ++ [rx], by rw [hla]⟩
    refine ⟨rx, ?_⟩
    unfold State.capture at h
    split at h
    · cases h
      exact ⟨⟨htr, hst, hre, hout, hph, hcs, hbc, hcf, hpo⟩, hex, han, hl, ho, hc⟩
    · split at h <;> cases h
      exact ⟨⟨htr, hst, hre, hout, hph, hcs, hbc, hcf, hpo⟩, hex, han, hl, ho, hc⟩

/-- The event at a position: whether it is an exchange, what it takes from the script, and how the lines stand after it,
where they stood as the position says. -/
structure Made (s t : State) (fd : FrameDesc) (tp : TxPos) (e : Event) : Prop extends Emitted s t e where
  exchange : e.exchange = true ↔ tp ∉ [TxPos.csLow, .busBegin, .busEnd, .csHigh]
  answers : t.answers = if e.exchange then s.answers.tail else s.answers
  lines : (s.csLevel, s.busOpen) = tp.lines →
    (t.csLevel, t.busOpen) = ((nextPos fd tp).map TxPos.lines).getD (.high, false)
  clock : ∀ clk, (s.busOpen = true → s.busClk = clk) → t.busOpen = true → t.busClk = clockStep clk e

theorem Exchanged.made {s t : State} {fd : FrameDesc} {tp : TxPos} {tx rx : Byte} (h : Exchanged s t (.xfer tx rx))
    (hp : tp ∉ [TxPos.csLow, .busBegin, .busEnd, .csHigh]) : Made s t fd tp (.xfer tx rx) where
  toEmitted := h.toEmitted
  exchange := ⟨fun _ => hp, fun _ => rfl⟩
  answers := h.answers
  lines := fun hl => by
    obtain ⟨tp', hn, hlow⟩ := nextPos_of_exchange (fd := fd) hp
    rw [h.csLevel, h.busOpen, hl, hn, TxPos.lines_of_exchange hp]
    exact hlow.symm
  clock := fun clk hc ho => by
    rw [h.busClk]
    exact hc (h.busOpen ▸ ho)

theorem event_made {s t : State} {fd : FrameDesc} {tp : TxPos} (h : s.eventAt fd tp = .ok t) :
    ∃ e, Made s t fd tp e := by
  cases tp with
  | csLow =>
    simp only [State.eventAt, State.lowerCs] at h
    split at h <;> cases h
    exact ⟨_, ⟨rfl, rfl, rfl, ⟨_, rfl⟩, rfl, rfl, rfl, rfl, rfl⟩, by simp [Event.exchange], rfl,
      fun hl => congrArg (Prod.mk CsLevel.low) (congrArg Prod.snd hl), fun _ hc => hc⟩
  | csHigh =>
    simp only [State.eventAt, State.raiseCs] at h
    split at h <;> cases h
    exact ⟨_, ⟨rfl, rfl, rfl, ⟨_, rfl⟩, rfl, rfl, rfl, rfl, rfl⟩, by simp [Event.exchange], rfl,
      fun hl => congrArg (Prod.mk CsLevel.high) (congrArg Prod.snd hl), fun _ hc => hc⟩
  | busBegin =>
    cases h
    exact ⟨_, ⟨rfl, rfl, rfl, ⟨_, rfl⟩, rfl, rfl, rfl, rfl, rfl⟩, by simp [Event.exchange], rfl,
      fun hl => congrArg (fun l => (Prod.fst l, true)) hl, fun _ _ _ => rfl⟩
  | busEnd =>
    cases h
    exact ⟨_, ⟨rfl, rfl, rfl, ⟨_, rfl⟩, rfl, rfl, rfl, rfl, rfl⟩, by simp [Event.exchange], rfl,
      fun hl => congrArg (fun l => (Prod.fst l, false)) hl, fun _ _ ho => absurd ho (by simp)⟩
  | opcode =>
    obtain ⟨rx, hx⟩ := send_exchanged h
    exact ⟨_, hx.made (by simp)⟩
  | dummy k =>
    obtain ⟨rx, hx⟩ := send_exchanged h
    exact ⟨_, hx.made (by simp)⟩
  | addr k =>
    simp only [State.eventAt] at h
    split at h
    · obtain ⟨rx, hx⟩ := send_exchanged h
      exact ⟨_, hx.made (by simp)⟩
    · cases h
  | payload k =>
    simp only [State.eventAt] at h
    split at h
    · obtain ⟨rx, hx⟩ := receive_exchanged h
      exact ⟨_, hx.made (by simp)⟩
    · split at h
      · obtain ⟨rx, hx⟩ := send_exchanged h
        exact ⟨_, hx.made (by simp)⟩
      · cases h
    · cases h

/-! ## One step of the sequencer -/

/-- The lines stand as the phase says, and an open bus runs at the clock `clk`. -/
structure Lined (s : State) (clk : Option Clk) : Prop where
  lines : (s.csLevel, s.busOpen) = s.phase.lines
  clock : s.busOpen = true → s.busClk = clk

/-- What one event of a running operation does to everything but the operation's own latches and buffer. -/
structure Ticked (s t : State) (e : Event) : Prop where
  trace : t.trace = s.trace ++ [e]
  busCfg : t.busCfg = s.busCfg
  cfg : t.cfg = s.cfg
  port : t.port = s.port
  answers : t.answers = if e.exchange then s.answers.tail else s.answers
  exchange : e.exchange = true ↔ s.awaitsByte
  csId : s.phase ≠ .setup → t.csId = s.csId
  phase : t.phase ≠ .setup
  unanswered : t.phase ≠ .idle → t.responses = s.responses ∧ t.lastStatus = s.lastStatus
  lined : ∀ clk, Lined s clk → Lined t (clockStep clk e)

/-- What the end of a transaction leaves alone: it goes on to a command transaction, or answers and is idle. -/
structure Ended (s t : State) : Prop where
  trace : t.trace = s.trace
  busCfg : t.busCfg = s.busCfg
  cfg : t.cfg = s.cfg
  port : t.port = s.port
  answers : t.answers = s.answers
  csId : t.csId = s.csId
  lines : (t.csLevel, t.busOpen) = (s.csLevel, s.busOpen)
  phase : t.phase = .idle ∨ ∃ j, t.phase = .cmd j .csLow
  unanswered : t.phase ≠ .idle → t.responses = s.responses ∧ t.lastStatus = s.lastStatus

theorem Ended.returnStatus (s : State) (code : StatusCode) (data : List Byte) : Ended s (s.returnStatus code data) :=
  ⟨rfl, rfl, rfl, rfl, rfl, rfl, rfl, .inl rfl, fun h => absurd rfl h⟩

theorem Ended.respond (s : State) (r : Response) : Ended s (s.respond r) :=
  ⟨rfl, rfl, rfl, rfl, rfl, rfl, rfl, .inl rfl, fun h => absurd rfl h⟩

theorem gateDone_ended {s t : State} (h : s.gateDone = .ok t) : Ended s t := by
  obtain ⟨_, -, hd⟩ := gateDone_ok h
  split at hd
  · rw [hd]
    exact Ended.returnStatus s .busy []
  · rw [hd]
    exact ⟨rfl, rfl, rfl, rfl, rfl, rfl, rfl, .inr ⟨0, rfl⟩, fun _ => ⟨rfl, rfl⟩⟩

theorem commandDone_ended {s t : State} {j : Fin 2} (h : s.commandDone j = .ok t) : Ended s t := by
  have hd := commandDone_ok h
  split at hd
  · rw [hd]
    exact ⟨rfl, rfl, rfl, rfl, rfl, rfl, rfl, .inr ⟨1, rfl⟩, fun _ => ⟨rfl, rfl⟩⟩
  · obtain ⟨code, data, rfl⟩ | ⟨b, rfl⟩ := hd
    · exact Ended.returnStatus s code data
    · exact Ended.respond s _

/-- R37: a step of the sequencer is the set-up event of `INIT`, or the event at the position of the running transaction,
followed by the next position or by the end of the transaction. -/
theorem tick_ok {s t : State} (h : s.tick = .ok t) :
    (∃ cs, s.phase = .setup ∧ t = (((s.setCsId cs).setCs .high).emit (.csHigh cs)).goto (.cmd 0 .csLow)) ∨
    ∃ φ fd tp x, Running s φ fd ∧ s.phase = φ tp ∧ s.eventAt fd tp = .ok x ∧
      ((∃ tp', nextPos fd tp = some tp' ∧ t = x.goto (φ tp')) ∨ (nextPos fd tp = none ∧ Ended x t)) := by
  unfold State.tick at h
  split at h
  · cases h
  · next hp =>
    split at h
    · cases h
    · next cs _ =>
      cases h
      exact .inl ⟨cs, hp, rfl⟩
  · next tp hp =>
    split at h
    · cases h
    · next x hx =>
      refine .inr ⟨Phase.gate, _, tp, x, .inl ⟨rfl, rfl⟩, hp, hx, ?_⟩
      split at h
      · next tp' hn =>
        cases h
        exact .inl ⟨tp', hn, rfl⟩
      · next hn =>
        split at h <;> cases h
        next hd => exact .inr ⟨hn, gateDone_ended hd⟩
  · next j tp hp =>
    split at h
    · cases h
    · next fd hfd =>
      split at h
      · cases h
      · next x hx =>
        refine .inr ⟨Phase.cmd j, fd, tp, x, .inr ⟨j, rfl, hfd⟩, hp, hx, ?_⟩
        split at h
        · next tp' hn =>
          cases h
          exact .inl ⟨tp', hn, rfl⟩
        · next hn =>
          split at h <;> cases h
          next hd => exact .inr ⟨hn, commandDone_ended hd⟩

theorem Running.runningDesc {s : State} {φ : TxPos → Phase} {fd : FrameDesc} {tp : TxPos} (h : Running s φ fd)
    (hp : s.phase = φ tp) : s.runningDesc = some (fd, tp) := by
  obtain ⟨rfl, rfl⟩ | ⟨j, rfl, hfd⟩ := h
  · simp [State.runningDesc, hp]
  · simp [State.runningDesc, hp, hfd]

/-- A stage of a running transaction is not `SETUP`, and its lines are those of the position. -/
theorem Running.stage {s : State} {φ : TxPos → Phase} {fd : FrameDesc} (h : Running s φ fd) (tp : TxPos) :
    φ tp ≠ .setup ∧ (φ tp).lines = tp.lines := by
  obtain ⟨rfl, -⟩ | ⟨j, rfl, -⟩ := h
  · exact ⟨nofun, rfl⟩
  · exact ⟨nofun, rfl⟩

theorem awaitsByte_iff {s : State} {fd : FrameDesc} {tp : TxPos} (h : s.runningDesc = some (fd, tp)) :
    s.awaitsByte ↔ tp ∉ [TxPos.csLow, .busBegin, .busEnd, .csHigh] := by
  simp [State.awaitsByte, h]

theorem stage_of_awaitsByte {s : State} (h : s.awaitsByte) : s.phase ≠ .setup ∧ s.phase.lines = (.low, true) := by
  obtain ⟨fd, tp, hrun, htp⟩ := h
  have hlow := TxPos.lines_of_exchange htp
  cases hp : s.phase with
  | idle => simp [State.runningDesc, hp] at hrun
  | setup => simp [State.runningDesc, hp] at hrun
  | gate tp' =>
    simp only [State.runningDesc, hp, Option.some.injEq, Prod.mk.injEq] at hrun
    exact ⟨nofun, hrun.2 ▸ hlow⟩
  | cmd j tp' =>
    simp only [State.runningDesc, hp, Option.map_eq_some_iff, Prod.mk.injEq] at hrun
    obtain ⟨-, -, -, rfl⟩ := hrun
    exact ⟨nofun, hlow⟩

theorem ticked_of_setup {s : State} {cs : CsId} (hp : s.phase = .setup) :
    Ticked s ((((s.setCsId cs).setCs .high).emit (.csHigh cs)).goto (.cmd 0 .csLow)) (.csHigh cs) where
  trace := rfl
  busCfg := rfl
  cfg := rfl
  port := rfl
  answers := rfl
  exchange := by simp [Event.exchange, State.awaitsByte, State.runningDesc, hp]
  csId := fun h => absurd hp h
  phase := nofun
  unanswered := fun _ => ⟨rfl, rfl⟩
  lined := fun clk hl => by
    have hlines := hl.lines
    rw [hp] at hlines
    exact ⟨congrArg (fun l => (CsLevel.high, Prod.snd l)) hlines, hl.clock⟩

theorem ticked_of_running {s x t : State} {φ : TxPos → Phase} {fd : FrameDesc} {tp : TxPos} {e : Event}
    (hr : Running s φ fd) (hp : s.phase = φ tp) (he : Made s x fd tp e)
    (ht : (∃ tp', nextPos fd tp = some tp' ∧ t = x.goto (φ tp')) ∨ (nextPos fd tp = none ∧ Ended x t)) :
    Ticked s t e := by
  have hex := he.exchange.trans (awaitsByte_iff (hr.runningDesc hp)).symm
  have hin : ∀ clk, Lined s clk → (x.csLevel, x.busOpen) = ((nextPos fd tp).map TxPos.lines).getD (.high, false) :=
    fun clk hl => he.lines (by rw [hl.lines, hp, (hr.stage tp).2])
  obtain ⟨tp', hn, rfl⟩ | ⟨hn, hd⟩ := ht
  · obtain ⟨hsetup, hlines⟩ := hr.stage tp'
    exact
    { trace := he.trace
      busCfg := he.busCfg
      cfg := he.cfg
      port := he.port
      answers := he.answers
      exchange := hex
      csId := fun _ => he.csId
      phase := hsetup
      unanswered := fun _ => ⟨he.responses, he.lastStatus⟩
      lined := fun clk hl => ⟨by
        rw [State.goto_phase, hlines]
        have := hin clk hl
        rwa [hn] at this, he.clock clk hl.clock⟩ }
  · exact
    { trace := by rw [hd.trace, he.trace]
      busCfg := by rw [hd.busCfg, he.busCfg]
      cfg := by rw [hd.cfg, he.cfg]
      port := by rw [hd.port, he.port]
      answers := by rw [hd.answers, he.answers]
      exchange := hex
      csId := fun _ => by rw [hd.csId, he.csId]
      phase := by
        rcases hd.phase with h | ⟨j, h⟩ <;> rw [h] <;> exact nofun
      unanswered := fun h => by
        obtain ⟨h1, h2⟩ := hd.unanswered h
        exact ⟨h1.trans he.responses, h2.trans he.lastStatus⟩
      lined := fun clk hl => by
        have hx := hin clk hl
        rw [hn] at hx
        have ht : (t.csLevel, t.busOpen) = (.high, false) := hd.lines.trans hx
        refine ⟨?_, fun ho => absurd ((congrArg Prod.snd ht).symm.trans ho) (by simp)⟩
        rcases hd.phase with h | ⟨j, h⟩ <;> rw [h] <;> exact ht }

theorem tick_ticked {s t : State} (h : s.tick = .ok t) : ∃ e, Ticked s t e := by
  obtain ⟨cs, hp, rfl⟩ | ⟨φ, fd, tp, x, hr, hp, hx, ht⟩ := tick_ok h
  · exact ⟨_, ticked_of_setup hp⟩
  · obtain ⟨e, he⟩ := event_made hx
    exact ⟨e, ticked_of_running hr hp he ht⟩

/-! ## The stalled exchange -/

/-- Where an exchange would be made, and the transport never completes it, the sequencer is stuck (R14). -/
theorem event_stalls {s t : State} {fd : FrameDesc} {tp : TxPos} (h : s.eventAt fd tp = .ok t)
    (hp : tp ∉ [TxPos.csLow, .busBegin, .busEnd, .csHigh]) {u : State} (hl : u.latch = s.latch) (hb : u.buf = s.buf)
    {rest : List BusAnswer} (hu : u.answers = .never :: rest) : u.eventAt fd tp = .error .stalled := by
  have hsend : ∀ tx, u.send tx = .error .stalled := fun tx => by rw [State.send, State.xfer_of_never hu]
  cases tp with
  | csLow | busBegin | busEnd | csHigh => simp at hp
  | opcode => exact hsend _
  | dummy k => exact hsend _
  | addr k =>
    simp only [State.eventAt] at h
    split at h
    · next a ha => simp only [State.eventAt, hl, ha, hsend]
    · cases h
  | payload k =>
    simp only [State.eventAt] at h
    split at h
    · next hd => simp only [State.eventAt, hd, State.receive, State.xfer_of_never hu]
    · next hd =>
      split at h
      · next b hpay =>
        have : u.payloadByte k = .ok b := by rw [← hpay]; simp only [State.payloadByte, hl, hb]
        simp only [State.eventAt, hd, this, hsend]
      · cases h
    · cases h

/-- A running engine about to exchange a byte that has run out of script is stuck once `never` is what comes. -/
theorem tick_stalls {s t : State} (h : s.tick = .ok t) (ha : s.awaitsByte) (he : s.answers = [])
    (rest : List BusAnswer) : (s.more (.never :: rest)).tick = .error .stalled := by
  have hnever : (s.more (.never :: rest)).answers = .never :: rest := by simp [State.more, he]
  obtain ⟨cs, hp, -⟩ | ⟨φ, fd, tp, x, hr, hp, hx, -⟩ := tick_ok h
  · simp [State.awaitsByte, State.runningDesc, hp] at ha
  · have hstall := event_stalls hx ((awaitsByte_iff (hr.runningDesc hp)).mp ha) (u := s.more (.never :: rest))
      rfl rfl hnever
    obtain ⟨rfl, rfl⟩ | ⟨j, rfl, hfd⟩ := hr
    · have hp' : (s.more (.never :: rest)).phase = .gate tp := hp
      unfold State.tick
      simp only [hp']
      rw [show (s.more (.never :: rest)).cfg = s.cfg from rfl, hstall]
    · have hp' : (s.more (.never :: rest)).phase = .cmd j tp := hp
      have hfd' : (s.more (.never :: rest)).commandDesc j = some fd := hfd
      unfold State.tick
      simp only [hp', hfd', hstall]

/-- A stuck engine has no step, and that is no fault (R14, R258). -/
theorem step_of_stalled {s : State} (h : s.tick = .error .stalled) : step s = .refused .busStalled := by
  have hproceed : proceed s = .refused .busStalled := by simp only [proceed, h]
  unfold step
  split
  · next hp => simp [State.tick, hp] at h
  · exact hproceed
  · exact hproceed
  · exact hproceed

theorem phase_of_stalled {s : State} (h : s.tick = .error .stalled) : s.phase ≠ .idle :=
  fun hp => by simp [State.tick, hp] at h

theorem runTicks_of_stalled {s : State} (h : s.tick = .error .stalled) (k : Nat) : runTicks k s = s := by
  cases k with
  | zero => rfl
  | succ k => simp only [runTicks, h]

/-- A stuck engine accepts nothing (R255). -/
theorem execRequest_of_stalled {s : State} (h : s.tick = .error .stalled) (r : Request) :
    execRequest r s = .refused .notQuiescent := by
  rw [execRequest_eq_issue]
  exact issue_of_not_quiescent (by simp [State.quiescent, phase_of_stalled h]) _

/-! ## A run cut short -/

theorem exchangesIn_cons (e : Event) (es : List Event) :
    exchangesIn (e :: es) = exchangesIn es + if e.exchange then 1 else 0 := by
  simp [exchangesIn, List.countP_cons]

theorem beforeExchange_cons_exchange {e : Event} (h : e.exchange = true) (k : Nat) (es : List Event) :
    beforeExchange (k + 1) (e :: es) = e :: beforeExchange k es := by
  simp [beforeExchange, h]

theorem beforeExchange_cons_quiet {e : Event} (h : e.exchange = false) (k : Nat) (es : List Event) :
    beforeExchange k (e :: es) = e :: beforeExchange k es := by
  cases k <;> simp [beforeExchange, h]

/-- Stuck in the middle of an operation, after the events `es` from a state whose open bus ran at `clk`. -/
structure StuckAfter (s t : State) (clk : Option Clk) (es : List Event) : Prop where
  stalled : t.tick = .error .stalled
  trace : t.trace = s.trace ++ es
  csLevel : t.csLevel = .low
  busOpen : t.busOpen = true
  busClk : t.busClk = es.foldl clockStep clk
  responses : t.responses = s.responses
  lastStatus : t.lastStatus = s.lastStatus
  busCfg : t.busCfg = s.busCfg
  cfg : t.cfg = s.cfg
  port : t.port = s.port

theorem StuckAfter.cons {s s' t : State} {clk : Option Clk} {e : Event} {es : List Event} (he : Ticked s s' e)
    (hs : s'.phase ≠ .idle) (h : StuckAfter s' t (clockStep clk e) es) : StuckAfter s t clk (e :: es) := by
  obtain ⟨hresp, hlast⟩ := he.unanswered hs
  exact
  { stalled := h.stalled
    trace := by rw [h.trace, he.trace, List.append_assoc]; rfl
    csLevel := h.csLevel
    busOpen := h.busOpen
    busClk := h.busClk
    responses := h.responses.trans hresp
    lastStatus := h.lastStatus.trans hlast
    busCfg := h.busCfg.trans he.busCfg
    cfg := h.cfg.trans he.cfg
    port := h.port.trans he.port }

/-- A run that started past `SETUP` never changes `cs_id` (R35). -/
theorem runTicks_csId (k : Nat) : ∀ {s : State}, s.phase ≠ .setup → (runTicks k s).csId = s.csId := by
  induction k with
  | zero => intro s _; rfl
  | succ k ih =>
    intro s hs
    cases ht : s.tick with
    | error h => simp only [runTicks, ht]
    | ok s' =>
      obtain ⟨e, he⟩ := tick_ticked ht
      simp only [runTicks, ht]
      rw [ih he.phase, he.csId hs]

/-- The run `u` of a transport that completes everything, and the run `t` of one that completes `n` exchanges of it and
then none, both from `s`: `t` is stuck before exchange `n`, or is `u` with the rest of the script unread. -/
def CutRun (s t u : State) (clk : Option Clk) (rest : List BusAnswer) (n : Nat) (es : List Event) : Prop :=
  if n < exchangesIn es then StuckAfter s t clk (beforeExchange n es) ∧ t.csId = u.csId
  else t = u.more (.never :: rest)

theorem CutRun.cons {s s' t u : State} {clk : Option Clk} {rest : List BusAnswer} {n n' : Nat} {e : Event}
    {es : List Event} (h : CutRun s' t u (clockStep clk e) rest n' es) (he : Ticked s s' e)
    (hs : s'.phase = .idle → t.phase = .idle) (hn : n = n' + if e.exchange then 1 else 0) :
    CutRun s t u clk rest n (e :: es) := by
  have hlt : n < exchangesIn (e :: es) ↔ n' < exchangesIn es := by rw [exchangesIn_cons]; omega
  have hbefore : beforeExchange n (e :: es) = e :: beforeExchange n' es := by
    cases hx : e.exchange with
    | true => rw [hn, hx, if_pos rfl, beforeExchange_cons_exchange hx]
    | false => rw [hn, hx, if_neg (by simp), Nat.add_zero, beforeExchange_cons_quiet hx]
  simp only [CutRun, hlt, hbefore] at h ⊢
  split at h
  · next hlt' =>
    rw [if_pos hlt']
    exact ⟨h.1.cons he fun hi => phase_of_stalled h.1.stalled (hs hi), h.2⟩
  · next hlt' =>
    rw [if_neg hlt']
    exact h

/-- The exchange that is never completed is the next one. -/
theorem CutRun.stalled {s s' u : State} {clk : Option Clk} {rest : List BusAnswer} {e : Event} {es : List Event}
    (ht : s.tick = .ok s') (he : Ticked s s' e) (ha : s.awaitsByte) (hempty : s.answers = []) (hl : Lined s clk)
    (hu : u.csId = s'.csId) : CutRun s (s.more (.never :: rest)) u clk rest 0 (e :: es) := by
  have hex : e.exchange = true := he.exchange.mpr ha
  obtain ⟨hphase, hlines⟩ := stage_of_awaitsByte ha
  have hlow : (s.csLevel, s.busOpen) = (.low, true) := hl.lines.trans hlines
  rw [CutRun, if_pos (by rw [exchangesIn_cons, hex]; simp)]
  have hbefore : beforeExchange 0 (e :: es) = [] := by simp [beforeExchange, hex]
  rw [hbefore]
  exact ⟨
    { stalled := tick_stalls ht ha hempty rest
      trace := (List.append_nil _).symm
      csLevel := congrArg Prod.fst hlow
      busOpen := congrArg Prod.snd hlow
      busClk := hl.clock (congrArg Prod.snd hlow)
      responses := rfl
      lastStatus := rfl
      busCfg := rfl
      cfg := rfl
      port := rfl }, ((hu.trans (he.csId hphase)).symm : s.csId = u.csId)⟩

/-- R14: a run cut short at the exchange that is never completed. -/
theorem runTicks_cut (rest : List BusAnswer) (k : Nat) : ∀ {s : State} {clk : Option Clk} {bytes : List Byte},
    s.answers = bytes.map .byte → Lined s clk → (runTicks k s).phase = .idle →
    ∃ es, (runTicks k s).trace = s.trace ++ es ∧
      CutRun s (runTicks k (s.more (.never :: rest))) (runTicks k s) clk rest bytes.length es := by
  induction k with
  | zero =>
    intro s clk bytes _ _ _
    exact ⟨[], (List.append_nil _).symm, by simp [CutRun, exchangesIn, runTicks]⟩
  | succ k ih =>
    intro s clk bytes hbytes hl hidle
    cases ht : s.tick with
    | error h =>
      have hstop : runTicks (k + 1) s = s := by simp only [runTicks, ht]
      rw [hstop] at hidle ⊢
      have hstop' : runTicks (k + 1) (s.more (.never :: rest)) = s.more (.never :: rest) := runTicks_idle _ hidle
      exact ⟨[], (List.append_nil _).symm, by simp [CutRun, exchangesIn, hstop']⟩
    | ok s' =>
      obtain ⟨e, he⟩ := tick_ticked ht
      have hgo : runTicks (k + 1) s = runTicks k s' := by simp only [runTicks, ht]
      rw [hgo] at hidle ⊢
      obtain ⟨es, htrace, hcut⟩ := ih (bytes := if e.exchange then bytes.tail else bytes)
        (by rw [he.answers, hbytes]; split <;> simp) (he.lined clk hl) hidle
      refine ⟨e :: es, by rw [htrace, he.trace, List.append_assoc]; rfl, ?_⟩
      by_cases hstall : s.awaitsByte ∧ bytes = []
      · obtain ⟨ha, rfl⟩ := hstall
        rw [runTicks_of_stalled (tick_stalls ht ha hbytes rest)]
        exact CutRun.stalled ht he ha hbytes hl (runTicks_csId k he.phase)
      · have hgo' : (s.more (.never :: rest)).tick = .ok (s'.more (.never :: rest)) := by
          rw [tick_more ((not_and_or.mp hstall).symm.imp_left fun hb => by simpa [hbytes] using hb), ht]
          rfl
        have hrun : runTicks (k + 1) (s.more (.never :: rest)) = runTicks k (s'.more (.never :: rest)) := by
          simp only [runTicks, hgo']
        rw [hrun]
        refine hcut.cons he (fun hi => by rw [runTicks_idle (s := s'.more _) _ hi]; exact hi) ?_
        split
        · next hx =>
          have hne : bytes ≠ [] := fun hb => hstall ⟨he.exchange.mp hx, hb⟩
          have hpos : 0 < bytes.length := List.length_pos_iff.mpr hne
          rw [List.length_tail]
          omega
        · rfl

/-! ## A request cut short -/

theorem quiescent_congr {s t : State} (hp : t.phase = s.phase) (hl : t.csLevel = s.csLevel)
    (ho : t.busOpen = s.busOpen) (hla : t.latch = s.latch) : t.quiescent = s.quiescent := by
  simp only [State.quiescent, hp, hl, ho, hla]

theorem quiescent_command (s : State) (p : CsId) (i : Instr) : (s.command p i).quiescent = s.quiescent :=
  quiescent_congr (by simp [State.command]) (by simp [State.command]) (by simp [State.command])
    (by simp [State.command])

theorem quiescent_gateThen {k : State → State} (hk : ∀ g, (k g).quiescent = g.quiescent) (s : State) (p : CsId) :
    (s.gateThen p k).quiescent = s.quiescent := by
  unfold State.gateThen
  split
  · exact quiescent_congr rfl rfl rfl rfl
  · exact (hk _).trans (quiescent_congr rfl rfl rfl rfl)

theorem quiescent_execFrame (s : State) (p : CsId) (i : Instr) : (s.execFrame p i).quiescent = s.quiescent := by
  have hover : (s.handOver i).quiescent = s.quiescent := by
    unfold State.handOver
    split <;> exact quiescent_congr rfl rfl rfl rfl
  unfold State.execFrame
  rw [← hover]
  split
  · exact quiescent_gateThen (quiescent_command · p i) _ p
  · exact quiescent_command _ p i

theorem quiescent_execResetPair (s : State) (p : CsId) : (s.execResetPair p).quiescent = s.quiescent := by
  unfold State.execResetPair
  refine quiescent_gateThen (fun g => ?_) s p
  exact quiescent_congr (by simp) (by simp) (by simp) (by simp)

/-- Where the transport completes every exchange an accepted request runs to its end, whichever it is (R246). -/
theorem execRequest_ends {r : Request} {s : State} (hq : s.quiescent = true) (hb : s.BusCompletes)
    (hwf : r.wellFormed s.cfg = true) (hcs : s.csId = none → ∃ cs, r = .init cs) :
    ∃ u, execRequest r s = .next u ∧ u.quiescent = true := by
  have hpin : (∀ cs, r ≠ .init cs) → ∃ p, s.Ready p := fun hr => by
    obtain ⟨p, hp⟩ := Option.ne_none_iff_exists'.mp fun hn => (hcs hn).elim fun cs h => hr cs h
    exact ⟨p, hq, hp, hb⟩
  cases r with
  | wire i =>
    obtain ⟨p, hready⟩ := hpin nofun
    exact ⟨_, exec_eq_execFrame hready hwf, (quiescent_execFrame s p i).trans hq⟩
  | isBusy =>
    obtain ⟨p, hready⟩ := hpin nofun
    exact ⟨_, execIsBusy_eq_execPoll hready, (quiescent_congr rfl rfl rfl rfl).trans hq⟩
  | reset =>
    obtain ⟨p, hready⟩ := hpin nofun
    exact ⟨_, execReset_eq_execResetPair hready, (quiescent_execResetPair s p).trans hq⟩
  | init cs => exact ⟨_, execInit_eq_execIdentify hq hb cs, (quiescent_congr rfl rfl rfl rfl).trans hq⟩

theorem lined_accept {s : State} (h : s.quiescent = true) (r : Call) : Lined (s.accept r) none := by
  obtain ⟨-, hl, ho, -⟩ := quiescent_cases h
  refine ⟨?_, fun hopen => by simp [ho] at hopen⟩
  have hfirst : r.op.firstPhase.lines = (.high, false) := by
    unfold OpName.firstPhase
    split
    · rfl
    · split <;> rfl
  simp [hl, ho, hfirst]

/-- R14, R258: a request whose exchanges after the first `bytes.length` are never completed. -/
theorem execRequest_cut {r : Request} {s : State} {bytes : List Byte} (hq : s.quiescent = true)
    (hwf : r.wellFormed s.cfg = true) (hcs : s.csId = none → ∃ cs, r = .init cs)
    (hbytes : s.answers = bytes.map .byte) (rest : List BusAnswer) :
    ∃ t u es, execRequest r s = .next u ∧ u.quiescent = true ∧ u.trace = s.trace ++ es ∧
      execRequest r (s.more (.never :: rest)) = .next t ∧
      CutRun (s.accept (requestCall r)) t u none rest bytes.length es := by
  obtain ⟨u, hu, huq⟩ := execRequest_ends hq (by simp [State.BusCompletes, hbytes]) hwf hcs
  have hfits : (requestCall r).fits s.cfg = true := (fits_requestCall _ _).trans hwf
  have hinit : s.csId = none → (requestCall r).op = .init := fun hn => by
    obtain ⟨cs, rfl⟩ := hcs hn
    rfl
  rw [execRequest_eq_issue, issue_of_accepted hq hfits hinit, Host.Outcome.next.injEq] at hu
  obtain ⟨es, htrace, hcut⟩ := runTicks_cut rest _ (s := s.accept (requestCall r)) hbytes (lined_accept hq _)
    (by rw [hu]; exact (quiescent_cases huq).1)
  rw [hu] at htrace hcut
  refine ⟨_, u, es, ?_, huq, htrace, ?_, hcut⟩
  · rw [execRequest_eq_issue, issue_of_accepted hq hfits hinit, hu]
  · rw [execRequest_eq_issue]
    exact issue_of_accepted (s := s.more _) hq hfits hinit

theorem transaction_head (s : State) (p : CsId) (clk : Clk) (b : Byte) (t : List Byte) (es : List Event) :
    ∃ rx es', transaction p s.busCfg clk (b :: t) (s.received (b :: t).length) ++ es =
      .csLow p :: .busBegin clk (busParams s.busCfg clk) :: .xfer b rx :: es' := by
  refine ⟨s.answer 0, ?_⟩
  simp [transaction, State.received, List.range_succ_eq_map]

/-- A wire operation's first three events (R120, R132): its gate's, or its command transaction's. -/
theorem execFrame_trace_head (s : State) (p : CsId) (i : Instr) :
    let clk := if isGated i.op then Clk.default else clkOf i.op
    ∃ tx rx es, (s.execFrame p i).trace =
      s.trace ++ .csLow p :: .busBegin clk (busParams s.busCfg clk) :: .xfer tx rx :: es := by
  have htrace : (s.handOver i).trace = s.trace ∧ (s.handOver i).busCfg = s.busCfg := by
    unfold State.handOver
    split <;> exact ⟨rfl, rfl⟩
  generalize hg : s.handOver i = g at htrace
  rw [← htrace.1, ← htrace.2]
  unfold State.execFrame
  rw [hg]
  split
  · unfold State.gateThen
    split
    · obtain ⟨rx, es, h⟩ := transaction_head g p .default (opcodeOf g.cfg .readSr1) [readFill] []
      exact ⟨_, rx, es, by rw [← h, List.append_nil]; rfl⟩
    · obtain ⟨rx, es, h⟩ := transaction_head g p .default (opcodeOf g.cfg .readSr1) [readFill] _
      exact ⟨_, rx, es, by rw [← h, ← List.append_assoc]; rfl⟩
  · obtain ⟨rx, es, h⟩ := transaction_head g p (clkOf i.op) (opcodeOf g.cfg i.op) (encode g.cfg i).tail []
    exact ⟨_, rx, es, by rw [← h, List.append_nil]; rfl⟩

/-- No wire operation changes `cs_id` (R35). -/
theorem csId_of_exec {i : Instr} {s t : State} (h : exec i s = .next t) : t.csId = s.csId := by
  rw [exec_eq_issue] at h
  unfold issue at h
  split at h <;> cases h
  refine runTicks_csId _ (s := s.accept (callOf i)) ?_
  rw [State.accept_phase, firstPhase_callOf]
  split <;> nofun

/-- A wire operation whose very first exchange is never completed has opened the transaction, and no more (R120). -/
theorem exec_stalls_at_opcode {i : Instr} {s : State} {p : CsId} (h : s.Ready p) (hans : s.answers = [])
    (hwf : i.wellFormed s.cfg = true) (rest : List BusAnswer) :
    let clk := if isGated i.op then Clk.default else clkOf i.op
    ∃ t, exec i (s.more (.never :: rest)) = .next t ∧
      StuckAfter (s.accept (callOf i)) t none [.csLow p, .busBegin clk (busParams s.busCfg clk)] := by
  obtain ⟨t, u, es, hu, -, htrace, ht, hcut⟩ := execRequest_cut (r := .wire i) (bytes := []) h.quiescent hwf
    (by simp [h.pin]) hans rest
  obtain ⟨tx, rx, es', hhead⟩ := execFrame_trace_head s p i
  have hprocedure : .next u = Host.Outcome.next (s.execFrame p i) := hu.symm.trans (exec_eq_execFrame h hwf)
  cases hprocedure
  obtain rfl := List.append_cancel_left (htrace.symm.trans hhead)
  rw [CutRun, if_pos (by simp [exchangesIn, Event.exchange])] at hcut
  exact ⟨t, ht, hcut.1⟩

/-- Settles O41: a run on the cut script is the run on the completing one up to the exchange that is never completed
(`execRequest_cut`); what a wire operation does before its first exchange is read off its procedure. -/
theorem stalledBus : Obligations.StalledBus := by
  refine ⟨fun i s p rest hq hp hwf hans => ?_, fun r s bytes rest hq hwf hcs hans => ?_⟩
  · have hs : s = ({ s with answers := [] } : State).more (.never :: rest) := by
      rw [State.more, List.nil_append, ← hans]
    obtain ⟨t, ht, hstuck⟩ := exec_stalls_at_opcode (s := { s with answers := [] })
      ⟨(quiescent_congr rfl rfl rfl rfl).trans hq, hp, by simp [State.BusCompletes]⟩ rfl hwf rest
    rw [← hs] at ht
    exact ⟨t, ht, hstuck.trace, hstuck.csLevel, hstuck.busOpen, hstuck.busClk, hstuck.responses, hstuck.lastStatus,
      csId_of_exec ht, step_of_stalled hstuck.stalled, execRequest_of_stalled hstuck.stalled⟩
  · have hs : s = ({ s with answers := bytes.map .byte } : State).more (.never :: rest) := by
      rw [State.more, ← hans]
    obtain ⟨t, u, es, hu, huq, htrace, ht, hcut⟩ := execRequest_cut (s := { s with answers := bytes.map .byte })
      ((quiescent_congr rfl rfl rfl rfl).trans hq) hwf hcs rfl rest
    rw [← hs] at ht
    refine ⟨t, u, es, hu, htrace, ht, ?_⟩
    unfold CutRun at hcut
    split at hcut
    · next hlt =>
      obtain ⟨hstuck, hpin⟩ := hcut
      rw [if_pos hlt]
      exact ⟨hstuck.trace, hstuck.csLevel, hstuck.busOpen, hstuck.busClk.trans (clockIn_eq_foldl _).symm,
        hstuck.responses, hstuck.lastStatus, hpin, hstuck.busCfg, hstuck.cfg, hstuck.port,
        step_of_stalled hstuck.stalled, execRequest_of_stalled hstuck.stalled⟩
    · next hlt =>
      subst hcut
      rw [if_neg hlt]
      exact ⟨(quiescent_congr rfl rfl rfl rfl).trans huq, rfl, rfl, rfl, rfl, rfl⟩

end Sys2Proof.Machine
end

section
/-! SUPPORT. What a request and a step can do, said once (`execRequest_ok`, `step_ok`), and the invariant of 10_state.md R54:
at construction, at acceptance, along a run, and what it says. -/

namespace Sys2Proof.Machine

/-! ## Requests and steps -/

/-- A request that has a next state was accepted (R253, R255, R268), and the sequencer ran its call. -/
theorem execRequest_ok {r : Request} {s t : State} (h : execRequest r s = .next t) :
    s.quiescent = true ∧ r.wellFormed s.cfg = true ∧ ((requestCall r).op = .init ∨ s.csId.isSome = true) ∧
      t = runTicks ((requestCall r).events s.cfg) (s.accept (requestCall r)) := by
  rw [execRequest_eq_issue] at h
  unfold issue at h
  split at h <;> cases h
  next hno =>
  simp only [State.rejects, fits_requestCall] at hno
  split at hno
  · cases hno
  · next hq =>
    split at hno
    · cases hno
    · next hwf =>
      split at hno
      · cases hno
      · next hpin =>
        refine ⟨by simpa using hq, by simpa using hwf, ?_, rfl⟩
        rw [Option.isSome_iff_ne_none]
        exact not_and_or.mp hpin |>.imp_left not_not.mp

/-- A step runs the request at the head of the host port, or makes one event of the operation in progress. -/
theorem step_ok {s t : State} (h : step s = .next t) :
    (s.phase = .idle ∧ ∃ item rest r, s.port = item :: rest ∧ readItem s.cfg item = .ok r ∧
      execRequest r { s with port := rest } = .next t) ∨
    (s.phase ≠ .idle ∧ s.tick = .ok t) := by
  have hproceed : proceed s = .next t → s.tick = .ok t := fun h => by
    unfold proceed at h
    split at h <;> cases h
    assumption
  unfold step at h
  split at h
  · next hp =>
    unfold serve at h
    split at h
    · cases h
    · next item rest hport =>
      split at h
      · cases h
      · next r hread => exact .inl ⟨hp, item, rest, r, hport, hread, h⟩
  · next hp => exact .inr ⟨by simp [hp], hproceed h⟩
  · next hp => exact .inr ⟨by simp [hp], hproceed h⟩
  · next hp => exact .inr ⟨by simp [hp], hproceed h⟩

/-! ## The invariant at acceptance -/

theorem OpName.firstPhase_eq (o : OpName) :
    o.firstPhase = if o = .init then .setup else if o.gated then .gate .csLow else .cmd 0 .csLow := by
  cases o <;> rfl

theorem addr_of_isAddressed {i : Instr} (h : isAddressed i.op = true) : i.addr?.isSome = true := by
  cases i <;> first | rfl | cases h

/-- The host chooses the payload length of exactly the operations that hand over a buffer (R96). -/
theorem isNone_span (i : Instr) : i.span?.isNone = (fixedLength i.op).isSome := by
  cases i <;> rfl

/-- A well-formed request leaves in the latches the operands its operation has (R31, R49). -/
theorem latchesFit_accept {r : Request} {s : State} (hwf : r.wellFormed s.cfg = true) :
    (s.accept (requestCall r)).latchesFit (requestCall r).op = true := by
  cases r with
  | isBusy => rfl
  | reset => rfl
  | init cs => rfl
  | wire i =>
    have haddr : (!isAddressed i.op || i.addr?.isSome) = true := by
      cases h : isAddressed i.op with
      | false => rfl
      | true => exact addr_of_isAddressed h
    have hspan := isNone_span i
    simp only [State.latchesFit, requestCall, callOf, State.accept_latch, haddr, Bool.true_and]
    obtain hs | ⟨⟨n, b⟩, hs⟩ := Option.eq_none_or_eq_some i.span?
    · rw [hs, Option.isNone_none, eq_comm, Option.isSome_iff_exists] at hspan
      obtain ⟨k, hk⟩ := hspan
      simp only [hk, hs, Option.map_none, decide_true, Bool.true_and, Bool.or_eq_true, decide_eq_true_eq]
      by_cases hd : dirOf i.op = .write
      · exact .inr (Option.isSome_iff_exists.mpr (val_of_write hd hs))
      · exact .inl hd
    · rw [hs, Option.isNone_some, eq_comm, Option.isSome_eq_false_iff, Option.isNone_iff_eq_none] at hspan
      have hle : n ≤ b.length := le_of_wellFormed (c := s.cfg) hwf hs
      simp [hspan, hs, State.accept, TransferBuffer.ofBytes, hle]

theorem wf_ofBytes (bs : List Byte) : (TransferBuffer.ofBytes bs).wf :=
  ⟨Memory.wf_ofBytes 0 bs, fun p hp => by simpa [TransferBuffer.ofBytes] using Memory.ofBytes_lt p hp⟩

theorem accept_buf_wf {s : State} (h : s.buf.wf) (r : Call) : (s.accept r).buf.wf := by
  cases hb : r.buf with
  | none => rwa [State.accept_buf_none s r hb]
  | some b =>
    rw [State.accept_buf_some s r hb]
    exact wf_ofBytes b

/-- Between operations the bus is at rest (R54). -/
theorem Closed.ofInv {s : State} (h : s.Inv) (hp : s.phase = .idle) : Closed s := by
  have hlines := h.linesFit
  simp only [State.linesFit, State.runningDesc, hp] at hlines
  obtain ⟨hl, ho, hc, hsc⟩ := hlines
  exact ⟨by rw [hl, ho, hc], hsc⟩

/-- At the first event of a transaction nothing is captured yet and the bus is at rest. -/
theorem Standing.first {s : State} (h : Closed s) (hout : s.latch.outputs = []) (fd : FrameDesc) :
    Standing s fd .csLow :=
  ⟨rfl, h.lines, by rw [hout]; rfl, h.sc⟩

/-- Acceptance keeps the invariant (R31, R37, R54). -/
theorem accept_inv {r : Request} {s : State} (hi : s.Inv) (hq : s.quiescent = true) (hwf : r.wellFormed s.cfg = true)
    (hpin : (requestCall r).op = .init ∨ s.csId.isSome = true) : (s.accept (requestCall r)).Inv := by
  have hfit := latchesFit_accept hwf
  have hclosed : Closed (s.accept (requestCall r)) :=
    have h := Closed.ofInv hi (quiescent_cases hq).1
    ⟨h.lines, h.sc⟩
  have hbuf := accept_buf_wf hi.bufWf (requestCall r)
  have hphase := (State.accept_phase s (requestCall r)).trans (requestCall r).op.firstPhase_eq
  have hop : (s.accept (requestCall r)).latch.op = some (requestCall r).op := rfl
  have hpin' : (requestCall r).op ≠ .init → (s.accept (requestCall r)).csId.isSome = true := hpin.resolve_left
  split at hphase
  · next hinit =>
    have hcs : (s.accept (requestCall r)).latch.cs.isSome = true := by
      cases r with
      | init cs => rfl
      | wire | isBusy | reset => cases hinit
    refine ⟨?_, ?_, hbuf⟩
    · simp only [State.phaseFits, hphase, hop, hinit ▸ hfit, hcs, hinit]
      rfl
    · obtain ⟨hlines, hsc⟩ := hclosed
      simp only [Prod.mk.injEq] at hlines
      simp only [State.linesFit, State.runningDesc, hphase]
      exact ⟨hlines.1, hlines.2.1, hlines.2.2, hsc⟩
  · next hinit =>
    split at hphase
    · next hgate =>
      refine ⟨?_, linesFit_of (.first hclosed rfl (gateDesc s.cfg)) (Running.runningDesc (.inl ⟨rfl, rfl⟩) hphase), hbuf⟩
      simp only [State.phaseFits, hphase, hop, hgate, hpin' hinit, hfit, Bool.and_self]
    · obtain ⟨fd, hfd, -⟩ := fits_cmd hphase hop (hpin' hinit) hbuf hfit
      refine ⟨?_, linesFit_of (.first hclosed rfl fd) (Running.runningDesc (.inr ⟨0, rfl, hfd⟩) hphase), hbuf⟩
      simp only [State.phaseFits, hphase, hop, hpin' hinit, hfit, decide_true, Bool.true_or, Bool.and_self]

/-! ## The invariant along a run -/

theorem tick_inv {s t : State} (hi : s.Inv) (h : s.tick = .ok t) : t.Inv := by
  rcases tick_cases hi with ⟨-, hno⟩ | hno | ⟨s', hs', hinv⟩
  · rw [hno] at h; cases h
  · rw [hno] at h; cases h
  · rw [hs'] at h; cases h; exact hinv

theorem runTicks_inv (k : Nat) : ∀ {s : State}, s.Inv → (runTicks k s).Inv := by
  induction k with
  | zero => exact fun hi => hi
  | succ k ih =>
    intro s hi
    unfold runTicks
    split
    · exact hi
    · next ht => exact ih (tick_inv hi ht)

theorem execRequest_inv {r : Request} {s t : State} (hi : s.Inv) (h : execRequest r s = .next t) : t.Inv := by
  obtain ⟨hq, hwf, hpin, rfl⟩ := execRequest_ok h
  exact runTicks_inv _ (accept_inv hi hq hwf hpin)

/-- The invariant does not look at the host port. -/
theorem State.Inv.port {s : State} (hi : s.Inv) (rest : List PortItem) : ({ s with port := rest } : State).Inv :=
  ⟨hi.phaseFits, hi.linesFit, hi.bufWf⟩

/-- Settles O50: acceptance establishes the invariant for the operation that starts (`accept_inv`), and each event of the
sequencer keeps it (`tick_inv`). -/
theorem stepKeepsInvariant : Obligations.StepKeepsInvariant := by
  intro s s' hi h
  obtain ⟨-, item, rest, r, -, -, hr⟩ | ⟨-, ht⟩ := step_ok h
  · exact execRequest_inv (hi.port rest) hr
  · exact tick_inv hi ht

/-! ## The invariant at construction, and what it says -/

theorem constructed_inv (c : Config) (b : BusCfg) : (State.constructed c b).Inv :=
  ⟨rfl, ⟨rfl, rfl, rfl, rfl⟩, Memory.wf_nil, by simp⟩

/-- Settles O49: nothing runs, the lines are at rest, the trace and the buffer are empty. -/
theorem invariantAtReset : Obligations.InvariantAtReset :=
  ⟨constructed_inv, constructed_inv _ _⟩

/-- Settles O1: the fields are those of the record, and the default configuration and clock rates meet the two
constraints that construction checks. -/
theorem resetState : Obligations.ResetState := by
  refine ⟨fun c b hc hb => ?_, ?_, fun k => ?_⟩
  · exact ⟨State.constructed c b, if_pos ⟨hc, hb⟩, rfl, rfl, rfl, rfl, rfl, rfl, rfl, rfl, rfl, rfl⟩
  · have hopcodes : standardConfig.Distinct := by decide
    have hclocks : standardBusCfg.Ok := by
      simp only [BusCfg.Ok, standardBusCfg]
      omega
    exact if_pos ⟨hopcodes, hclocks⟩
  · simp [State.reset, State.answer]

/-- A transaction runs in a gate or a command stage only (R54 (c)). -/
theorem runningDesc_phase {s : State} {fd : FrameDesc} {tp : TxPos} (h : s.runningDesc = some (fd, tp)) :
    s.phase = .gate tp ∨ ∃ j, s.phase = .cmd j tp := by
  cases hp : s.phase with
  | idle => simp [State.runningDesc, hp] at h
  | setup => simp [State.runningDesc, hp] at h
  | gate tp' =>
    simp only [State.runningDesc, hp, Option.some.injEq, Prod.mk.injEq] at h
    exact .inl (by rw [h.2])
  | cmd j tp' =>
    simp only [State.runningDesc, hp, Option.map_eq_some_iff, Prod.mk.injEq] at h
    obtain ⟨-, -, -, rfl⟩ := h
    exact .inr ⟨j, rfl⟩

/-- The bus is open only with chip-select low (R54 (a)). -/
theorem linesAt_open {fd : FrameDesc} {tp : TxPos} (h : (linesAt fd tp).2.1 = true) : (linesAt fd tp).1 = .low := by
  cases tp with
  | csLow => cases h
  | busBegin | opcode | addr | dummy | payload | busEnd | csHigh => rfl

theorem quiescent_of_inv {s : State} (hi : s.Inv) (hp : s.phase = .idle) : s.quiescent = true := by
  have hlines := (Closed.ofInv hi hp).lines
  simp only [Prod.mk.injEq] at hlines
  have hfits := hi.phaseFits
  have hlatch : s.latch = Latches.empty := by
    cases ho : s.latch.op with
    | none => simpa [State.phaseFits, hp, ho] using hfits
    | some o => simp [State.phaseFits, hp, ho] at hfits
  simp [State.quiescent, hp, hlines, hlatch]

/-- Settles O51: by whether a transaction runs. -/
theorem invariantSaysR54 : Obligations.InvariantSaysR54 := by
  intro s hi
  have hidle : s.phase = .idle → s.csLevel = .high ∧ s.busOpen = false := fun hp =>
    have hlines := (Closed.ofInv hi hp).lines
    ⟨congrArg Prod.fst hlines, congrArg (fun l => l.2.1) hlines⟩
  have hend : s.phase = .idle → scan s.cfg .outside s.trace = some .outside ∧ s.quiescent = true := fun hp =>
    ⟨(Closed.ofInv hi hp).sc, quiescent_of_inv hi hp⟩
  cases hr : s.runningDesc with
  | none =>
    have hlines := hi.linesFit
    simp only [State.linesFit, hr] at hlines
    obtain ⟨hl, ho, -, hsc⟩ := hlines
    exact ⟨fun h => by simp [ho] at h, hidle, fun h => by simp [hl] at h, ⟨_, hsc⟩, hend⟩
  | some x =>
    obtain ⟨fd, tp⟩ := x
    obtain ⟨-, hlines, -, hsc⟩ := Standing.ofInv hi.linesFit hr
    refine ⟨fun h => ?_, hidle, fun _ => ?_, ⟨_, hsc⟩, hend⟩
    · have hopen : (linesAt fd tp).2.1 = true := hlines ▸ h
      exact (congrArg Prod.fst hlines).trans (linesAt_open hopen)
    · exact (runningDesc_phase hr).imp (fun h => ⟨tp, h⟩) (fun ⟨j, h⟩ => ⟨j, tp, h⟩)

end Sys2Proof.Machine
end

section
/-! SUPPORT. One step of the sequencer, stage by stage (10_state.md R37): `tick_setup_ok`, `tick_gate_ok`, `tick_cmd_ok`. What
it does to the response and to `last_status` (R33): `tick_answered`, `tick_record`. -/

namespace Sys2Proof.Machine

/-! ## The arrows of the phase -/

theorem tick_setup_ok {s t : State} (hp : s.phase = .setup) (h : s.tick = .ok t) :
    ∃ cs, s.latch.cs = some cs ∧ t = (((s.setCsId cs).setCs .high).emit (.csHigh cs)).goto (.cmd 0 .csLow) := by
  simp only [State.tick, hp] at h
  split at h
  · cases h
  · next cs hcs =>
    cases h
    exact ⟨cs, hcs, rfl⟩

theorem tick_gate_ok {s t : State} {tp : TxPos} (hp : s.phase = .gate tp) (h : s.tick = .ok t) :
    ∃ x, s.eventAt (gateDesc s.cfg) tp = .ok x ∧
      ((∃ tp', nextPos (gateDesc s.cfg) tp = some tp' ∧ t = x.goto (.gate tp')) ∨
        (nextPos (gateDesc s.cfg) tp = none ∧ x.gateDone = .ok t)) := by
  simp only [State.tick, hp] at h
  split at h
  · cases h
  · next x hx =>
    refine ⟨x, hx, ?_⟩
    split at h
    · next tp' hn =>
      cases h
      exact .inl ⟨tp', hn, rfl⟩
    · next hn =>
      split at h <;> cases h
      next hd => exact .inr ⟨hn, hd⟩

theorem tick_cmd_ok {s t : State} {j : Fin 2} {tp : TxPos} (hp : s.phase = .cmd j tp) (h : s.tick = .ok t) :
    ∃ fd x, s.commandDesc j = some fd ∧ s.eventAt fd tp = .ok x ∧
      ((∃ tp', nextPos fd tp = some tp' ∧ t = x.goto (.cmd j tp')) ∨
        (nextPos fd tp = none ∧ x.commandDone j = .ok t)) := by
  simp only [State.tick, hp] at h
  split at h
  · cases h
  · next fd hfd =>
    split at h
    · cases h
    · next x hx =>
      refine ⟨fd, x, hfd, hx, ?_⟩
      split at h
      · next tp' hn =>
        cases h
        exact .inl ⟨tp', hn, rfl⟩
      · next hn =>
        split at h <;> cases h
        next hd => exact .inr ⟨hn, hd⟩

/-- Nothing follows `T_CSHIGH` only (R37). -/
theorem nextPos_eq_none {fd : FrameDesc} {tp : TxPos} (h : nextPos fd tp = none) : tp = .csHigh := by
  cases tp with
  | csHigh => rfl
  | csLow | busBegin | opcode | addr | dummy | payload | busEnd => cases h

/-- The arrows out of the gate (R37, R147). -/
theorem gate_advances {s t : State} {tp : TxPos} (hp : s.phase = .gate tp) (h : s.tick = .ok t) :
    ∃ e, t.trace = s.trace ++ [e] ∧ ∀ k, (positions (gateDesc s.cfg))[k]? = some tp →
      s.emitsAt (gateDesc s.cfg) e tp ∧
      (∀ m tx rx, tp = .payload m → e = .xfer tx rx → t.latch.outputs = s.latch.outputs ++ [rx]) ∧
      match (positions (gateDesc s.cfg))[k + 1]? with
      | some tp' => t.phase = .gate tp'
      | none => ∃ sample, s.latch.outputs.head? = some sample ∧
        if sample.toNat % 2 = 1 then
          t.phase = .idle ∧ t.lastStatus = some .busy ∧ t.responses = s.responses ++ [.status .busy []]
        else t.phase = .cmd 0 .csLow ∧ t.lastStatus = s.lastStatus ∧ t.responses = s.responses := by
  obtain ⟨x, hx, hnext⟩ := tick_gate_ok hp h
  obtain ⟨e, he, hemits, hlatch, houtputs⟩ := event_ok hx
  obtain ⟨tp', hn, rfl⟩ | ⟨hn, hd⟩ := hnext
  · refine ⟨e, he.trace, fun k hk => ⟨hemits (List.mem_of_getElem? hk), ?_, ?_⟩⟩
    · exact fun m tx rx htp hxfer => houtputs m tx rx htp rfl hxfer
    · rw [← nextPos_positions _ k tp hk, hn]
      rfl
  · obtain rfl := nextPos_eq_none hn
    refine ⟨e, (gateDone_ended hd).trace.trans he.trace, fun k hk =>
      ⟨hemits (List.mem_of_getElem? hk), nofun, ?_⟩⟩
    rw [← nextPos_positions _ k .csHigh hk, hn]
    obtain ⟨sample, hsample, hdone⟩ := gateDone_ok hd
    rw [hlatch nofun] at hsample
    refine ⟨sample, hsample, ?_⟩
    split at hdone
    · next hbusy =>
      subst hdone
      rw [if_pos hbusy]
      exact ⟨rfl, rfl, congrArg (· ++ [Response.status .busy []]) he.responses⟩
    · next hfree =>
      subst hdone
      rw [if_neg hfree]
      exact ⟨rfl, he.lastStatus, he.responses⟩

/-- The arrows out of a command (R37, R137, R214). -/
theorem cmd_advances {s t : State} {j : Fin 2} {tp : TxPos} (hp : s.phase = .cmd j tp) (h : s.tick = .ok t) :
    ∃ e, t.trace = s.trace ++ [e] ∧ ∃ fd, s.commandDesc j = some fd ∧ ∀ k, (positions fd)[k]? = some tp →
      s.emitsAt fd e tp ∧
      match (positions fd)[k + 1]? with
      | some tp' => t.phase = .cmd j tp'
      | none => if s.latch.op = some .reset ∧ j = 0 then t.phase = .cmd 1 .csLow else t.phase = .idle := by
  obtain ⟨fd, x, hfd, hx, hnext⟩ := tick_cmd_ok hp h
  obtain ⟨e, he, hemits, hlatch, -⟩ := event_ok hx
  obtain ⟨tp', hn, rfl⟩ | ⟨hn, hd⟩ := hnext
  · refine ⟨e, he.trace, fd, hfd, fun k hk => ⟨hemits (List.mem_of_getElem? hk), ?_⟩⟩
    rw [← nextPos_positions _ k tp hk, hn]
    rfl
  · obtain rfl := nextPos_eq_none hn
    refine ⟨e, (commandDone_ended hd).trace.trans he.trace, fd, hfd, fun k hk =>
      ⟨hemits (List.mem_of_getElem? hk), ?_⟩⟩
    rw [← nextPos_positions _ k .csHigh hk, hn]
    have hdone := commandDone_ok hd
    rw [hlatch nofun] at hdone
    split at hdone
    · next hsecond =>
      subst hdone
      exact (if_pos hsecond).mpr rfl
    · next hlast =>
      refine (if_neg hlast).mpr ?_
      obtain ⟨code, data, rfl⟩ | ⟨b, rfl⟩ := hdone
      · rfl
      · rfl

/-- Settles O47: one lemma per stage, on what the event at a position is (`event_ok`), that `nextPos` follows the diagram
(`nextPos_positions`), and what the end of a stage does (`gateDone_ok`, `commandDone_ok`). -/
theorem phaseAdvances : Obligations.PhaseAdvances := by
  refine ⟨fun s r => r.op.firstPhase_eq, fun s t h => ?_⟩
  cases hp : s.phase with
  | idle => simp [State.tick, hp] at h
  | setup =>
    obtain ⟨cs, hcs, rfl⟩ := tick_setup_ok hp h
    exact ⟨.csHigh cs, rfl, cs, hcs, rfl, rfl, rfl⟩
  | gate tp => exact gate_advances hp h
  | cmd j tp => exact cmd_advances hp h

/-! ## The response -/

/-- An operation that ends gives one response and records its code (R33). -/
theorem gateDone_answered {s t : State} (h : s.gateDone = .ok t) (hp : t.phase = .idle) :
    ∃ x, t.responses = s.responses ++ [x] ∧ t.lastStatus = statusAfter s.lastStatus (some x) := by
  obtain ⟨sample, -, hd⟩ := gateDone_ok h
  split at hd <;> subst hd
  · exact ⟨_, rfl, rfl⟩
  · cases hp

theorem commandDone_answered {s t : State} {j : Fin 2} (h : s.commandDone j = .ok t) (hp : t.phase = .idle) :
    ∃ x, t.responses = s.responses ++ [x] ∧ t.lastStatus = statusAfter s.lastStatus (some x) := by
  have hd := commandDone_ok h
  split at hd
  · subst hd
    cases hp
  · obtain ⟨code, data, rfl⟩ | ⟨b, rfl⟩ := hd
    · exact ⟨_, rfl, rfl⟩
    · exact ⟨_, rfl, rfl⟩

theorem tick_answered {s t : State} (h : s.tick = .ok t) (hp : t.phase = .idle) :
    ∃ x, t.responses = s.responses ++ [x] ∧ t.lastStatus = statusAfter s.lastStatus (some x) := by
  cases hs : s.phase with
  | idle => simp [State.tick, hs] at h
  | setup =>
    obtain ⟨cs, -, rfl⟩ := tick_setup_ok hs h
    cases hp
  | gate tp =>
    obtain ⟨x, hx, ⟨tp', -, rfl⟩ | ⟨-, hd⟩⟩ := tick_gate_ok hs h
    · cases hp
    · obtain ⟨e, he, -⟩ := event_ok hx
      rw [← he.responses, ← he.lastStatus]
      exact gateDone_answered hd hp
  | cmd j tp =>
    obtain ⟨fd, x, -, hx, ⟨tp', -, rfl⟩ | ⟨-, hd⟩⟩ := tick_cmd_ok hs h
    · cases hp
    · obtain ⟨e, he, -⟩ := event_ok hx
      rw [← he.responses, ← he.lastStatus]
      exact commandDone_answered hd hp

/-- A run of one operation gives at most one response, and `last_status` is its code (R33, R52). -/
theorem runTicks_answered (k : Nat) : ∀ s : State, ∃ xs, (runTicks k s).responses = s.responses ++ xs ∧
    xs.length ≤ 1 ∧ (runTicks k s).lastStatus = statusAfter s.lastStatus xs.head? := by
  induction k with
  | zero => exact fun s => ⟨[], by simp [runTicks], Nat.zero_le 1, rfl⟩
  | succ k ih =>
    intro s
    cases ht : s.tick with
    | error => exact ⟨[], by simp [runTicks, ht], Nat.zero_le 1, by simp [runTicks, ht, statusAfter]⟩
    | ok s' =>
      simp only [runTicks, ht]
      by_cases hp : s'.phase = .idle
      · obtain ⟨x, hresp, hlast⟩ := tick_answered ht hp
        rw [runTicks_idle k hp]
        exact ⟨[x], hresp, Nat.le_refl 1, hlast⟩
      · obtain ⟨e, he⟩ := tick_ticked ht
        obtain ⟨hresp, hlast⟩ := he.unanswered hp
        rw [← hresp, ← hlast]
        exact ih s'

/-- Settles O54: acceptance gives no response, and the run that follows at most one (`runTicks_answered`). -/
theorem lastStatusRecordsResponse : Obligations.LastStatusRecordsResponse := by
  intro r s t h
  obtain ⟨-, -, -, rfl⟩ := execRequest_ok h
  exact runTicks_answered _ (s.accept (requestCall r))

/-! ## Another value in `last_status` -/

/-- The same state but for `last_status`. -/
def State.record (s : State) (x : Option StatusCode) : State := { s with lastStatus := x }

theorem xfer_record (s : State) (x : Option StatusCode) (tx : Byte) :
    (s.record x).xfer tx = (s.xfer tx).map (fun p => (p.1, p.2.record x)) := by
  unfold State.xfer
  rw [show (s.record x).answers = s.answers from rfl]
  rcases s.answers with - | ⟨a, as⟩
  · rfl
  · cases a <;> rfl

theorem send_record (s : State) (x : Option StatusCode) (tx : Byte) :
    (s.record x).send tx = (s.send tx).map (·.record x) := by
  unfold State.send
  rw [xfer_record]
  cases s.xfer tx <;> rfl

theorem capture_record (s : State) (x : Option StatusCode) (k : Nat) (b : Byte) :
    (s.record x).capture k b = (s.capture k b).map (·.record x) := by
  unfold State.capture
  rw [show (s.record x).sink = s.sink from rfl, show (s.record x).buf = s.buf from rfl]
  cases s.sink with
  | none => rfl
  | some r => cases s.buf.write k b <;> rfl

/-- No event looks at `last_status`. -/
theorem event_record (s : State) (x : Option StatusCode) (fd : FrameDesc) (tp : TxPos) :
    (s.record x).eventAt fd tp = (s.eventAt fd tp).map (·.record x) := by
  cases tp with
  | busBegin | busEnd => rfl
  | csLow =>
    simp only [State.eventAt, State.lowerCs, show (s.record x).csId = s.csId from rfl]
    cases s.csId <;> rfl
  | csHigh =>
    simp only [State.eventAt, State.raiseCs, show (s.record x).csId = s.csId from rfl]
    cases s.csId <;> rfl
  | opcode => exact send_record s x _
  | dummy => exact send_record s x _
  | addr k =>
    simp only [State.eventAt, show (s.record x).latch = s.latch from rfl]
    cases s.latch.addr with
    | none => rfl
    | some a => exact send_record s x _
  | payload k =>
    simp only [State.eventAt, show (s.record x).payloadByte k = s.payloadByte k from rfl]
    cases fd.dir with
    | none => rfl
    | read =>
      simp only [State.receive, xfer_record]
      cases s.xfer readFill with
      | error => rfl
      | ok p => exact capture_record p.2 x k p.1
    | write =>
      cases s.payloadByte k with
      | error => rfl
      | ok b => exact send_record s x b

/-- The end of a stage writes `last_status` or leaves it, and never looks at it. -/
theorem gateDone_record (s : State) (x : Option StatusCode) :
    ∃ y, (s.record x).gateDone = s.gateDone.map (·.record y) := by
  unfold State.gateDone
  rw [show (s.record x).latch = s.latch from rfl]
  cases s.latch.outputs with
  | nil => exact ⟨x, rfl⟩
  | cons b bs =>
    cases hb : busyFlag b with
    | true => exact ⟨some .busy, by simp only [hb]; rfl⟩
    | false => exact ⟨x, by simp only [hb]; rfl⟩

theorem commandDone_record (s : State) (x : Option StatusCode) (j : Fin 2) :
    ∃ y, (s.record x).commandDone j = (s.commandDone j).map (·.record y) := by
  unfold State.commandDone
  rw [show (s.record x).latch = s.latch from rfl]
  cases s.latch.op with
  | none => exact ⟨x, rfl⟩
  | some o =>
    cases o with
    | wire w => exact ⟨some .ok, rfl⟩
    | isBusy => exact ⟨x, by cases s.latch.outputs <;> rfl⟩
    | reset =>
      by_cases hj : j = 0
      · exact ⟨x, by simp only [hj, if_true]; rfl⟩
      · exact ⟨some .ok, by simp only [hj, if_false]; rfl⟩
    | init =>
      rcases s.latch.outputs with - | ⟨mfr, - | ⟨dev, - | ⟨b, bs⟩⟩⟩
      · exact ⟨x, rfl⟩
      · exact ⟨x, rfl⟩
      · exact ⟨some (identityStatus mfr dev), rfl⟩
      · exact ⟨x, rfl⟩

/-- The sequencer makes the same event whatever `last_status` holds (R33). -/
theorem tick_record (s : State) (x : Option StatusCode) : ∃ y, (s.record x).tick = s.tick.map (·.record y) := by
  unfold State.tick
  rw [show (s.record x).phase = s.phase from rfl, show (s.record x).cfg = s.cfg from rfl,
    show (s.record x).latch = s.latch from rfl]
  cases s.phase with
  | idle => exact ⟨x, rfl⟩
  | setup => exact ⟨x, by cases s.latch.cs <;> rfl⟩
  | gate tp =>
    simp only [event_record]
    cases s.eventAt (gateDesc s.cfg) tp with
    | error => exact ⟨x, rfl⟩
    | ok s' =>
      simp only [Except.map]
      cases nextPos (gateDesc s.cfg) tp with
      | some tp' => exact ⟨x, rfl⟩
      | none =>
        obtain ⟨y, hy⟩ := gateDone_record s' x
        simp only [hy]
        exact ⟨y, by cases s'.gateDone <;> rfl⟩
  | cmd j tp =>
    simp only [event_record, show (s.record x).commandDesc j = s.commandDesc j from rfl]
    cases s.commandDesc j with
    | none => exact ⟨x, rfl⟩
    | some fd =>
      simp only
      cases s.eventAt fd tp with
      | error => exact ⟨x, rfl⟩
      | ok s' =>
        simp only [Except.map]
        cases nextPos fd tp with
        | some tp' => exact ⟨x, rfl⟩
        | none =>
          obtain ⟨y, hy⟩ := commandDone_record s' x j
          simp only [hy]
          exact ⟨y, by cases s'.commandDone j <;> rfl⟩

theorem runTicks_record (k : Nat) : ∀ (s : State) (x : Option StatusCode),
    ∃ y, runTicks k (s.record x) = (runTicks k s).record y := by
  induction k with
  | zero => exact fun s x => ⟨x, rfl⟩
  | succ k ih =>
    intro s x
    obtain ⟨y, hy⟩ := tick_record s x
    simp only [runTicks, hy]
    cases s.tick with
    | error => exact ⟨x, rfl⟩
    | ok s' => exact ih s' y

/-- Acceptance does not look at `last_status` either. -/
theorem issue_record (r : Call) (s : State) (x : Option StatusCode) :
    (∀ why, issue r s = .refused why → issue r (s.record x) = .refused why) ∧
      ∀ t, issue r s = .next t → ∃ y, issue r (s.record x) = .next (t.record y) := by
  simp only [issue, show (s.record x).rejects r = s.rejects r from rfl, show (s.record x).cfg = s.cfg from rfl,
    show (s.record x).accept r = (s.accept r).record x from rfl]
  cases s.rejects r with
  | some why => exact ⟨fun _ h => h, fun _ h => by cases h⟩
  | none =>
    obtain ⟨y, hy⟩ := runTicks_record (r.events s.cfg) (s.accept r) x
    simp only [hy]
    generalize runTicks (r.events s.cfg) (s.accept r) = u
    refine ⟨fun _ h => (by cases h), fun t h => ⟨y, ?_⟩⟩
    cases h
    rfl

/-- Settles O55: a request is the issue of its call, and neither its acceptance nor an event of its run looks at
`last_status` (`issue_record`). -/
theorem lastStatusReadByNothing : Obligations.LastStatusReadByNothing := by
  intro r s x
  simp only [execRequest_eq_issue]
  exact issue_record (requestCall r) s x

end Sys2Proof.Machine
end

section
/-! SUPPORT. What every step leaves and what its events hand over (10_state.md R34, R35): `step_ran`, `csId_of_step`. -/

namespace Sys2Proof.Machine

/-! ## What an event hands over -/

/-- The pin an event drives is the one `cs_id` names (R35), the parameters it hands over are those of `bus_cfg` (R34). -/
def State.Drives (s : State) : Event → Prop
  | .csLow pin => s.csId = some pin
  | .busBegin clk params => params = busParams s.busCfg clk
  | .xfer _ _ => True
  | .busEnd => True
  | .csHigh pin => s.csId = some pin

theorem State.Drives.congr {s t : State} {e : Event} (h : s.Drives e) (hc : t.csId = s.csId)
    (hb : t.busCfg = s.busCfg) : t.Drives e := by
  cases e with
  | csLow | csHigh => exact hc.trans h
  | busBegin clk params => exact h.trans (congrArg (busParams · clk) hb.symm)
  | xfer | busEnd => trivial

theorem event_drives {s t : State} {fd : FrameDesc} {tp : TxPos} (h : s.eventAt fd tp = .ok t) :
    ∃ e, Made s t fd tp e ∧ s.Drives e := by
  obtain ⟨e, he⟩ := event_made h
  obtain ⟨e', he', hemits, -⟩ := event_ok h
  obtain rfl : e' = e := by simpa using he'.trace.symm.trans he.trace
  refine ⟨e', he, ?_⟩
  by_cases hx : tp ∈ [TxPos.csLow, .busBegin, .busEnd, .csHigh]
  · have hat := hemits (by simp only [positions, List.mem_append]; simp only [List.mem_cons] at hx ⊢; tauto)
    cases tp with
    | csLow | csHigh =>
      obtain ⟨pin, hpin, rfl⟩ := hat
      exact hpin
    | busBegin =>
      obtain rfl := hat
      rfl
    | busEnd =>
      obtain rfl := hat
      trivial
    | opcode | addr | dummy | payload => simp at hx
  · have hxfer := he.exchange.mpr hx
    cases e' with
    | xfer => trivial
    | csLow | busBegin | busEnd | csHigh => cases hxfer

theorem tick_drives {s t : State} (h : s.tick = .ok t) : ∃ e, Ticked s t e ∧ t.Drives e := by
  obtain ⟨cs, hp, rfl⟩ | ⟨φ, fd, tp, x, hr, hp, hx, ht⟩ := tick_ok h
  · exact ⟨_, ticked_of_setup hp, rfl⟩
  · obtain ⟨e, he, hd⟩ := event_drives hx
    have hticked := ticked_of_running hr hp he ht
    exact ⟨e, hticked, hd.congr (hticked.csId (hp ▸ (hr.stage tp).1)) hticked.busCfg⟩

/-! ## Every step -/

/-- What a run of the sequencer leaves, and what it adds to the trace (R34, R35, R51). -/
structure Ran (s t : State) : Prop where
  busCfg : t.busCfg = s.busCfg
  cfg : t.cfg = s.cfg
  trace : ∃ es, t.trace = s.trace ++ es ∧ ∀ e ∈ es, t.Drives e

theorem Ran.refl (s : State) : Ran s s := ⟨rfl, rfl, [], (List.append_nil _).symm, nofun⟩

theorem Ran.cons {s s' t : State} {e : Event} (he : Ticked s s' e) (hd : s'.Drives e) (h : Ran s' t)
    (hc : t.csId = s'.csId) : Ran s t := by
  obtain ⟨hbus, hcfg, es, htrace, hes⟩ := h
  refine ⟨hbus.trans he.busCfg, hcfg.trans he.cfg, e :: es, by rw [htrace, he.trace, List.append_assoc]; rfl, ?_⟩
  exact List.forall_mem_cons.mpr ⟨hd.congr hc hbus, hes⟩

theorem runTicks_ran (k : Nat) : ∀ s : State, Ran s (runTicks k s) := by
  induction k with
  | zero => exact Ran.refl
  | succ k ih =>
    intro s
    cases ht : s.tick with
    | error => simpa only [runTicks, ht] using Ran.refl s
    | ok s' =>
      obtain ⟨e, he, hd⟩ := tick_drives ht
      simpa only [runTicks, ht] using (ih s').cons he hd (runTicks_csId k he.phase)

theorem step_ran {s t : State} (h : step s = .next t) : Ran s t := by
  obtain ⟨-, item, rest, r, -, -, hr⟩ | ⟨-, ht⟩ := step_ok h
  · obtain ⟨-, -, -, rfl⟩ := execRequest_ok hr
    obtain ⟨hbus, hcfg, htrace⟩ := runTicks_ran ((requestCall r).events s.cfg)
      (({ s with port := rest } : State).accept (requestCall r))
    exact ⟨hbus, hcfg, htrace⟩
  · obtain ⟨e, he, hd⟩ := tick_drives ht
    exact (Ran.refl t).cons he hd rfl

/-- Settles O52: what a step keeps and hands over is said once (`step_ran`); the parameters are `busParams`. -/
theorem busConfigurationFixed : Obligations.BusConfigurationFixed := by
  intro s s' h
  obtain ⟨hbus, hcfg, es, htrace, hes⟩ := step_ran h
  refine ⟨hbus, hcfg, es, htrace, fun clk params hmem => ?_⟩
  obtain rfl : params = busParams s'.busCfg clk := hes _ hmem
  rw [hbus]
  cases clk <;> exact ⟨rfl, rfl, rfl⟩

/-- A frame presents a wire operation, so an `INIT` on the port is a record (R99, R104). -/
theorem item_of_init {c : Config} {item : PortItem} {cs : CsId} (h : readItem c item = .ok (.init cs)) :
    item = .request (.init cs) := by
  unfold readItem at h
  split at h
  · cases h
    rfl
  · split at h <;> cases h

/-- Only the acceptance of `INIT` leads to `SETUP` (R37). -/
theorem request_of_setup {r : Request} (h : (requestCall r).op.firstPhase = .setup) : ∃ cs, r = .init cs := by
  cases r with
  | init cs => exact ⟨cs, rfl⟩
  | isBusy | reset => cases h
  | wire i =>
    rw [requestCall, firstPhase_callOf] at h
    split at h <;> cases h

/-- Only `INIT` changes `cs_id` (R35). -/
theorem csId_of_step {s t : State} (h : step s = .next t) (hc : t.csId ≠ s.csId) :
    s.phase = .setup ∨ (s.phase = .idle ∧ ∃ cs rest, s.port = .request (.init cs) :: rest) := by
  obtain ⟨hp, item, rest, r, hport, hread, hr⟩ | ⟨-, ht⟩ := step_ok h
  · obtain ⟨-, -, -, rfl⟩ := execRequest_ok hr
    have hsetup : (requestCall r).op.firstPhase = .setup := by
      by_contra hno
      exact hc (runTicks_csId _ (s := ({ s with port := rest } : State).accept (requestCall r)) hno)
    obtain ⟨cs, rfl⟩ := request_of_setup hsetup
    exact .inr ⟨hp, cs, rest, item_of_init hread ▸ hport⟩
  · obtain ⟨e, he⟩ := tick_ticked ht
    exact .inl (by_contra fun hno => hc (he.csId hno))

/-- Settles O53: `csId_of_step`, and what the events of a step drive (`step_ran`). -/
theorem chipSelectOnlyByInit : Obligations.ChipSelectOnlyByInit := by
  intro s s' h
  obtain ⟨-, -, es, htrace, hes⟩ := step_ran h
  refine ⟨csId_of_step h, es, htrace, fun pin hmem => ?_⟩
  rcases hmem with hlow | hhigh
  · exact hes _ hlow
  · exact hes _ hhigh

end Sys2Proof.Machine
end

section
/-! SUPPORT. What a whole request leaves in the responses and in the transfer buffer (10_state.md R49, R52), read off its
procedure: `execRequest_answers`, `execFrame_buf`, `execFrame_buf_read`. -/

namespace Sys2Proof.Machine

/-! ## The response of a whole request -/

theorem gateThen_answered {k : State → State} {r : Request} {s : State} (p : CsId)
    (hbusy : mayAnswer r (.status .busy []) = true)
    (hk : ∀ g, ∃ x, (k g).responses = g.responses ++ [x] ∧ mayAnswer r x = true) :
    ∃ x, (s.gateThen p k).responses = s.responses ++ [x] ∧ mayAnswer r x = true := by
  unfold State.gateThen
  split
  · exact ⟨_, rfl, hbusy⟩
  · exact hk _

@[simp] theorem State.handOver_responses (s : State) (i : Instr) : (s.handOver i).responses = s.responses := by
  unfold State.handOver; split <;> rfl

theorem execFrame_answered (s : State) (p : CsId) (i : Instr) :
    ∃ x, (s.execFrame p i).responses = s.responses ++ [x] ∧ mayAnswer (.wire i) x = true := by
  have hcommand : ∀ g : State, ∃ x, (g.command p i).responses = g.responses ++ [x] ∧
      mayAnswer (.wire i) x = true := fun g => ⟨_, rfl, rfl⟩
  rw [← s.handOver_responses i]
  unfold State.execFrame
  split
  · next hg => exact gateThen_answered p (by simp [mayAnswer, hg]) hcommand
  · exact hcommand _

theorem execIdentify_answered (s : State) (cs : CsId) :
    ∃ x, (s.execIdentify cs).responses = s.responses ++ [x] ∧ mayAnswer (.init cs) x = true := by
  refine ⟨.status (identityStatus (s.answer 3) (s.answer 4)) [], rfl, ?_⟩
  unfold identityStatus
  split
  · rfl
  · split <;> rfl

/-- A request to an engine that is ready gives one response, of a kind it may give (R52, R240). -/
theorem execRequest_answers {r : Request} {s : State} {p : CsId} (h : s.Ready p) (hwf : r.wellFormed s.cfg = true) :
    ∃ t x, execRequest r s = .next t ∧ t.responses = s.responses ++ [x] ∧ mayAnswer r x = true := by
  cases r with
  | wire i =>
    obtain ⟨x, hx⟩ := execFrame_answered s p i
    exact ⟨_, x, exec_eq_execFrame h hwf, hx⟩
  | isBusy => exact ⟨_, _, execIsBusy_eq_execPoll h, rfl, rfl⟩
  | reset =>
    obtain ⟨x, hx⟩ : ∃ x, (s.execResetPair p).responses = s.responses ++ [x] ∧ mayAnswer .reset x = true :=
      gateThen_answered p rfl fun g => ⟨.status .ok [], rfl, rfl⟩
    exact ⟨_, x, execReset_eq_execResetPair h, hx⟩
  | init cs =>
    obtain ⟨x, hx⟩ := execIdentify_answered s cs
    exact ⟨_, x, execInit_eq_execIdentify h.quiescent h.completes cs, hx⟩

/-- An engine whose `cs_id` has a value keeps one (R35). -/
theorem tick_csId_isSome {s t : State} (h : s.tick = .ok t) (hc : s.csId.isSome = true) : t.csId.isSome = true := by
  obtain ⟨cs, -, rfl⟩ | ⟨φ, fd, tp, x, hr, hp, hx, ht⟩ := tick_ok h
  · rfl
  · obtain ⟨e, he⟩ := tick_ticked h
    rwa [he.csId (hp ▸ (hr.stage tp).1)]

theorem runTicks_csId_isSome (k : Nat) : ∀ {s : State}, s.csId.isSome = true → (runTicks k s).csId.isSome = true := by
  induction k with
  | zero => exact fun hc => hc
  | succ k ih =>
    intro s hc
    unfold runTicks
    split
    · exact hc
    · next ht => exact ih (tick_csId_isSome ht hc)

/-- Settles O32: that the request ends quiescent (`execRequest_ends`), its response (`execRequest_answers`), and that no
event takes `cs_id` away. -/
theorem requestsEndQuiescent : Obligations.RequestsEndQuiescent := by
  intro r s p h hwf
  obtain ⟨t, x, ht, hresp, hmay⟩ := execRequest_answers h hwf
  obtain ⟨u, hu, hq⟩ := execRequest_ends h.quiescent h.completes hwf (by simp [h.pin])
  obtain rfl : t = u := by simpa using ht.symm.trans hu
  obtain ⟨-, -, -, hrun⟩ := execRequest_ok ht
  refine ⟨t, x, ht, hq, hresp, hmay, ?_⟩
  rw [hrun]
  exact runTicks_csId_isSome _ (by simp [h.pin])

/-! ## The transfer buffer -/

/-- A loaded buffer reads as the bytes it was loaded with, and as nothing outside (R49). -/
theorem TransferBuffer.read_ofBytes_eq (bs : List Byte) (i : Nat) : (TransferBuffer.ofBytes bs).read i = bs[i]? := by
  by_cases h : i < bs.length
  · rw [TransferBuffer.read_ofBytes bs h, List.getElem?_eq_getElem h]
  · rw [List.getElem?_eq_none (Nat.not_lt.mp h)]
    exact if_neg h

/-- A buffer write keeps the canonical form. -/
theorem TransferBuffer.wf_write {t : TransferBuffer} (h : t.wf) {i : Nat} (hi : i < t.len) (b : Byte) :
    TransferBuffer.wf { t with cells := Memory.write t.cells i b } := by
  refine ⟨Memory.wf_write h.1 i b, fun q hq => ?_⟩
  rcases Memory.mem_write hq with hq | ⟨rfl, -⟩
  · exact h.2 q hq
  · exact hi

/-- Settles O38: on the memory's own laws, `Memory.wf_write` and `Memory.read_write`. -/
theorem bufferWrites : Obligations.BufferWrites := by
  intro t i b hwf
  refine ⟨fun hi => ⟨{ t with cells := Memory.write t.cells i b }, if_pos hi, TransferBuffer.wf_write hwf hi b, rfl,
    fun j => ?_⟩, fun hi => ⟨if_neg (by omega), if_neg (by omega)⟩⟩
  simp only [TransferBuffer.read, Memory.read_write hwf.1]
  by_cases hj : j = i
  · simp [hj, hi]
  · simp [hj]

theorem State.handOver_some (s : State) {i : Instr} {n : Nat} {b : List Byte} (h : i.span? = some (n, b)) :
    s.handOver i = s.setBuf (TransferBuffer.ofBytes b) := by
  simp only [State.handOver, h]

theorem State.handOver_none (s : State) {i : Instr} (h : i.span? = none) : s.handOver i = s := by
  simp only [State.handOver, h]

/-- Only a read with a buffer of its own writes the buffer (R135, R136). -/
theorem State.filled_of_not_read (s : State) {i : Instr} (h : dirOf i.op = .read → i.span? = none) :
    s.filled i = s.buf := by
  unfold State.filled
  split
  · next hd hs => rw [h hd] at hs; cases hs
  · rfl
  · rfl
  · rfl

/-- No gated operation reads (R148). -/
theorem not_read_of_isGated {op : WireOp} (h : isGated op = true) : dirOf op ≠ .read := by
  cases op <;> first | decide | cases h

/-- Where an operation fills no buffer, the buffer is as it was handed over. -/
theorem execFrame_buf (s : State) (p : CsId) {i : Instr} (h : dirOf i.op = .read → i.span? = none) :
    (s.execFrame p i).buf = (s.handOver i).buf := by
  have hcommand : ∀ g : State, (g.command p i).buf = g.buf := fun g => g.filled_of_not_read h
  unfold State.execFrame
  split
  · unfold State.gateThen
    split
    · rfl
    · exact hcommand _
  · exact hcommand _

/-- A read with a buffer fills it from the received bytes on (R135). -/
theorem execFrame_buf_read (s : State) (p : CsId) {i : Instr} {n : Nat} {b : List Byte} (hd : dirOf i.op = .read)
    (hs : i.span? = some (n, b)) :
    (s.execFrame p i).buf = TransferBuffer.ofBytes (s.captured i ++ b.drop n) := by
  have hg : isGated i.op ≠ true := fun hg => not_read_of_isGated hg hd
  rw [State.execFrame, if_neg hg, State.handOver_some s hs]
  show (s.setBuf (TransferBuffer.ofBytes b)).filled i = _
  simp only [State.filled, hd, hs]
  rfl

theorem isAddressed_of_span {i : Instr} {x : Nat × List Byte} (h : i.span? = some x) : isAddressed i.op = true := by
  cases i <;> first | rfl | cases h

/-- The captured bytes come after opcode, address and dummies (R101, R138). -/
theorem captured_eq (s : State) {i : Instr} {n : Nat} {b : List Byte} (hd : dirOf i.op = .read)
    (hs : i.span? = some (n, b)) :
    s.captured i = (s.received (1 + 3 + dummyCount s.cfg i.op + n)).drop (1 + 3 + dummyCount s.cfg i.op) := by
  have hlength : (encode s.cfg i).length = 1 + 3 + dummyCount s.cfg i.op + n := by
    rw [encode_eq_frameBytes, length_frameBytes]
    simp [payloadOf, hd, headerLength, descriptor, isAddressed_of_span hs, length_of_span hs]
  simp only [State.captured, hd, hlength, length_of_span hs, Nat.add_sub_cancel]

theorem length_captured (s : State) {i : Instr} {n : Nat} {b : List Byte} (hd : dirOf i.op = .read)
    (hs : i.span? = some (n, b)) : (s.captured i).length = n := by
  rw [captured_eq s hd hs, List.length_drop, State.length_received, Nat.add_sub_cancel_left]

theorem getElem?_captured (s : State) {i : Instr} {n k : Nat} {b : List Byte} (hd : dirOf i.op = .read)
    (hs : i.span? = some (n, b)) (hk : k < n) :
    (s.captured i)[k]? = some (s.answer (1 + 3 + dummyCount s.cfg i.op + k)) := by
  simp [captured_eq s hd hs, State.received, hk]

/-- Settles O37: the buffer the procedure leaves (`execFrame_buf`, `execFrame_buf_read`), index by index. -/
theorem bufferFrame : Obligations.BufferFrame := by
  intro i s p h hwf
  refine ⟨_, exec_eq_execFrame h hwf, fun hs k => ?_, fun n b hs => ?_⟩
  · rw [execFrame_buf s p fun _ => hs, State.handOver_none s hs]
  · have hkept : dirOf i.op ≠ .read → (s.execFrame p i).buf = TransferBuffer.ofBytes b := fun hd => by
      rw [execFrame_buf s p fun hr => absurd hr hd, State.handOver_some s hs]
      rfl
    have hn : n ≤ b.length := le_of_wellFormed hwf hs
    refine ⟨?_, fun hd k => ?_, fun hd k => ?_⟩
    · by_cases hd : dirOf i.op = .read
      · rw [execFrame_buf_read s p hd hs]
        show (s.captured i ++ b.drop n).length = b.length
        rw [List.length_append, length_captured s hd hs, List.length_drop]
        omega
      · rw [hkept hd]
        rfl
    · rw [hkept (by simp [hd]), TransferBuffer.read_ofBytes_eq]
    · rw [execFrame_buf_read s p hd hs, TransferBuffer.read_ofBytes_eq]
      have hlength := length_captured s hd hs
      split
      · next hk => rw [List.getElem?_append_left (by omega), getElem?_captured s hd hs hk]
      · next hk =>
        rw [List.getElem?_append_right (by omega), List.getElem?_drop, hlength]
        congr 1
        omega

end Sys2Proof.Machine
end

section
/-! SUPPORT. What a step takes nothing away from (20_memory.md R72), what a wire operation does past its gate
(`execFrame_cases`), that an engine that is ready stays so (`State.Ready.exec`), and the transactions a request adds for the
device to see (`exchanges_of_ungated`, `exchanges_of_passed`). -/

namespace Sys2Proof.Machine

/-! ## What every step keeps -/

theorem runTicks_port (k : Nat) : ∀ s : State, (runTicks k s).port = s.port := by
  induction k with
  | zero => exact fun _ => rfl
  | succ k ih =>
    intro s
    cases ht : s.tick with
    | error => simp only [runTicks, ht]
    | ok s' =>
      obtain ⟨e, he⟩ := tick_ticked ht
      simp only [runTicks, ht]
      exact (ih s').trans he.port

/-- A step is a run of the sequencer: of a whole request, once it is taken from the head of the port and accepted, or of
one event. -/
theorem runTicks_of_step {s t : State} (h : step s = .next t) :
    ∃ k u, t = runTicks k u ∧ u.responses = s.responses ∧ (u.port = s.port ∨ ∃ item, s.port = item :: u.port) := by
  obtain ⟨-, item, rest, r, hport, -, hr⟩ | ⟨-, ht⟩ := step_ok h
  · obtain ⟨-, -, -, rfl⟩ := execRequest_ok hr
    exact ⟨_, _, rfl, rfl, .inr ⟨item, hport⟩⟩
  · exact ⟨1, s, by simp only [runTicks, ht], rfl, .inl rfl⟩

/-- Settles O57: a step is a run of the sequencer (`runTicks_of_step`), which takes nothing back and leaves the port
alone. -/
theorem traceOnlyGrows : Obligations.TraceOnlyGrows := by
  intro s s' h
  obtain ⟨-, -, es, htrace, -⟩ := step_ran h
  obtain ⟨k, u, rfl, hu, hport⟩ := runTicks_of_step h
  obtain ⟨xs, hresp, -⟩ := runTicks_answered k u
  refine ⟨⟨es, htrace.symm⟩, ⟨xs, by rw [hresp, hu]⟩, ?_⟩
  rwa [runTicks_port]

/-! ## A wire operation past its gate -/

@[simp] theorem State.handOver_trace (s : State) (i : Instr) : (s.handOver i).trace = s.trace := by
  unfold State.handOver; split <;> rfl

@[simp] theorem State.handOver_busCfg (s : State) (i : Instr) : (s.handOver i).busCfg = s.busCfg := by
  unfold State.handOver; split <;> rfl

@[simp] theorem State.handOver_cfg (s : State) (i : Instr) : (s.handOver i).cfg = s.cfg := by
  unfold State.handOver; split <;> rfl

@[simp] theorem State.handOver_csId (s : State) (i : Instr) : (s.handOver i).csId = s.csId := by
  unfold State.handOver; split <;> rfl

@[simp] theorem State.handOver_port (s : State) (i : Instr) : (s.handOver i).port = s.port := by
  unfold State.handOver; split <;> rfl

@[simp] theorem State.handOver_received (s : State) (i : Instr) (k : Nat) : (s.handOver i).received k = s.received k := by
  unfold State.handOver; split <;> rfl

@[simp] theorem State.handOver_answer (s : State) (i : Instr) (k : Nat) : (s.handOver i).answer k = s.answer k := by
  unfold State.handOver; split <;> rfl

/-- The state in which the command transaction of a wire operation begins, its gate, if it has one, having read not
busy (R137, R147). -/
def State.passed (s : State) (p : CsId) (i : Instr) : State :=
  if isGated i.op then (s.handOver i).transact p .default (gateFrame s.cfg) else s.handOver i

/-- Unless its gate reads busy, a wire operation sends its command (R137, R147). -/
theorem execFrame_of_passed {s : State} (p : CsId) {i : Instr}
    (h : isGated i.op = true → busyFlag (s.answer 1) = false) : s.execFrame p i = (s.passed p i).command p i := by
  unfold State.execFrame State.passed
  split
  · next hg => simp [State.gateThen, h hg]
  · rfl

/-- A gated operation whose gate reads busy makes the gate's transaction and no other (R147). -/
theorem execFrame_of_busy {s : State} (p : CsId) {i : Instr} (hg : isGated i.op = true)
    (hb : busyFlag (s.answer 1) = true) :
    s.execFrame p i = ((s.handOver i).transact p .default (gateFrame s.cfg)).done .busy [] := by
  simp [State.execFrame, hg, State.gateThen, hb]

/-- Either the gate stops a wire operation, or it sends its command (R147). -/
theorem execFrame_cases (s : State) (p : CsId) (i : Instr) :
    (isGated i.op = true ∧ busyFlag (s.answer 1) = true ∧
      s.execFrame p i = ((s.handOver i).transact p .default (gateFrame s.cfg)).done .busy []) ∨
    ((isGated i.op = true → busyFlag (s.answer 1) = false) ∧ s.execFrame p i = (s.passed p i).command p i) := by
  by_cases h : isGated i.op = true ∧ busyFlag (s.answer 1) = true
  · exact .inl ⟨h.1, h.2, execFrame_of_busy p h.1 h.2⟩
  · have hpass : isGated i.op = true → busyFlag (s.answer 1) = false := by simpa using h
    exact .inr ⟨hpass, execFrame_of_passed p hpass⟩

/-- A gated operation that returned `OK` was not stopped by its gate. -/
theorem not_busy_of_ok {s : State} {p : CsId} {i : Instr} (h : (s.execFrame p i).lastStatus = some .ok)
    (hg : isGated i.op = true) : busyFlag (s.answer 1) = false := by
  obtain ⟨-, -, hx⟩ | ⟨hpass, -⟩ := execFrame_cases s p i
  · rw [hx] at h
    cases h
  · exact hpass hg

@[simp] theorem State.passed_cfg (s : State) (p : CsId) (i : Instr) : (s.passed p i).cfg = s.cfg := by
  unfold State.passed; split <;> exact s.handOver_cfg i

@[simp] theorem State.passed_busCfg (s : State) (p : CsId) (i : Instr) : (s.passed p i).busCfg = s.busCfg := by
  unfold State.passed; split <;> exact s.handOver_busCfg i

/-- The command's first answer is the one after the two of the gate, where there is one. -/
theorem State.passed_received (s : State) (p : CsId) (i : Instr) (k : Nat) :
    (s.passed p i).received k = (if isGated i.op then s.consume 2 else s).received k := by
  unfold State.passed State.handOver; split <;> split <;> rfl

theorem State.command_trace (s : State) (p : CsId) (i : Instr) : (s.command p i).trace =
    s.trace ++ transaction p s.busCfg (clkOf i.op) (encode s.cfg i) (s.received (encode s.cfg i).length) := rfl

/-- Settles O33: past its gate a wire operation is its command (`execFrame_of_passed`), whose frame no duty of the host
decides. -/
theorem hostDutiesUnchecked : Obligations.HostDutiesUnchecked := by
  intro i s p h hwf hpass
  refine ⟨_, (s.passed p i).trace, exec_eq_execFrame h hwf, ?_⟩
  rw [execFrame_of_passed p hpass, State.command_trace, State.passed_busCfg, State.passed_cfg, State.passed_received]
  exact ⟨rfl, rfl⟩

/-! ## An engine that is ready stays ready -/

theorem State.Ready.transact {s : State} {p : CsId} (h : s.Ready p) (q : CsId) (clk : Clk) (t : List Byte) :
    (s.transact q clk t).Ready p :=
  ⟨(quiescent_congr rfl rfl rfl rfl).trans h.quiescent, h.pin, State.completes_consume h.completes _⟩

theorem State.Ready.setBuf {s : State} {p : CsId} (h : s.Ready p) (t : TransferBuffer) : (s.setBuf t).Ready p :=
  ⟨(quiescent_congr rfl rfl rfl rfl).trans h.quiescent, h.pin, h.completes⟩

theorem State.Ready.done {s : State} {p : CsId} (h : s.Ready p) (code : StatusCode) (data : List Byte) :
    (s.done code data).Ready p :=
  ⟨(quiescent_congr rfl rfl rfl rfl).trans h.quiescent, h.pin, h.completes⟩

theorem State.Ready.handOver {s : State} {p : CsId} (h : s.Ready p) (i : Instr) : (s.handOver i).Ready p := by
  unfold State.handOver
  split
  · exact h.setBuf _
  · exact h

theorem State.Ready.passed {s : State} {p : CsId} (h : s.Ready p) (i : Instr) : (s.passed p i).Ready p := by
  unfold State.passed
  split
  · exact (h.handOver i).transact ..
  · exact h.handOver i

/-- A wire operation leaves the engine as ready as it found it. -/
theorem State.Ready.execFrame {s : State} {p : CsId} (h : s.Ready p) (i : Instr) : (s.execFrame p i).Ready p := by
  obtain ⟨-, -, hx⟩ | ⟨-, hx⟩ := execFrame_cases s p i
  · rw [hx]
    exact ((h.handOver i).transact ..).done .busy []
  · rw [hx]
    exact (((h.passed i).transact ..).setBuf _).done .ok _

theorem State.Ready.execPoll {s : State} {p : CsId} (h : s.Ready p) : (s.execPoll p).Ready p :=
  ⟨(quiescent_congr rfl rfl rfl rfl).trans h.quiescent, h.pin, State.completes_consume h.completes _⟩

/-- A wire operation that has a next state was well-formed, and did what its procedure says. -/
theorem execFrame_of_exec {s t : State} {p : CsId} {i : Instr} (h : s.Ready p) (he : exec i s = .next t) :
    t = s.execFrame p i := by
  obtain ⟨-, hwf, -, -⟩ := execRequest_ok (r := .wire i) he
  simpa using he.symm.trans (exec_eq_execFrame h hwf)

theorem State.Ready.exec {s t : State} {p : CsId} {i : Instr} (h : s.Ready p) (he : exec i s = .next t) :
    t.Ready p :=
  execFrame_of_exec h he ▸ h.execFrame i

@[simp] theorem State.execFrame_cfg (s : State) (p : CsId) (i : Instr) : (s.execFrame p i).cfg = s.cfg := by
  obtain ⟨-, -, hx⟩ | ⟨-, hx⟩ := execFrame_cases s p i
  · rw [hx]
    exact s.handOver_cfg i
  · rw [hx]
    exact s.passed_cfg p i

@[simp] theorem State.execPoll_cfg (s : State) (p : CsId) : (s.execPoll p).cfg = s.cfg := rfl

/-! ## What the device sees of a request -/

theorem gateFrame_ne_nil (c : Config) : gateFrame c ≠ [] := nofun

theorem encode_eq_cons (c : Config) (i : Instr) : ∃ t, encode c i = opcodeOf c i.op :: t := ⟨_, rfl⟩

theorem encode_ne_nil (c : Config) (i : Instr) : encode c i ≠ [] := nofun

/-- An ungated operation is one transaction: its frame (R137). -/
theorem exchanges_of_ungated (s : State) (p : CsId) {i : Instr} (hg : isGated i.op = false) :
    (s.execFrame p i).exchanges =
      s.exchanges ++ [{ tx := encode s.cfg i, rx := s.received (encode s.cfg i).length }] := by
  rw [execFrame_of_passed p (by simp [hg]), ← exchanges_handOver s i, ← s.handOver_cfg i, ← s.handOver_received i]
  simp only [State.passed, hg, Bool.false_eq_true, if_false]
  exact exchanges_transact _ p _ (encode_ne_nil _ i)

/-- A gated operation past its gate is two transactions: the gate's and its frame's (R147). -/
theorem exchanges_of_passed (s : State) (p : CsId) {i : Instr} (hg : isGated i.op = true)
    (hpass : busyFlag (s.answer 1) = false) :
    (s.execFrame p i).exchanges = s.exchanges ++ [{ tx := gateFrame s.cfg, rx := s.received 2 },
      { tx := encode s.cfg i, rx := (s.consume 2).received (encode s.cfg i).length }] := by
  have hcommand : ((s.passed p i).command p i).exchanges = (s.passed p i).exchanges ++
      [{ tx := encode s.cfg i, rx := (s.consume 2).received (encode s.cfg i).length }] := by
    have hrec := s.passed_received p i (encode s.cfg i).length
    rw [if_pos hg] at hrec
    rw [← hrec, ← s.passed_cfg p i]
    exact exchanges_transact _ p _ (encode_ne_nil _ i)
  have hgate : (s.passed p i).exchanges = s.exchanges ++ [{ tx := gateFrame s.cfg, rx := s.received 2 }] := by
    rw [← exchanges_handOver s i, ← s.handOver_received i, State.passed, if_pos hg]
    exact exchanges_transact _ p _ (gateFrame_ne_nil _)
  rw [execFrame_of_passed p fun _ => hpass, hcommand, hgate, List.append_assoc]
  rfl

/-- `IS_BUSY` is one status read (R146). -/
theorem exchanges_execPoll (s : State) (p : CsId) :
    (s.execPoll p).exchanges = s.exchanges ++ [{ tx := gateFrame s.cfg, rx := s.received 2 }] :=
  exchanges_transact s p _ (gateFrame_ne_nil _)

/-- The status byte of a status read is receive position 1 (R81). -/
theorem flag_of_received (s : State) : ((s.received 2)[1]?).map busyFlag = some (busyFlag (s.answer 1)) := rfl

end Sys2Proof.Machine
end

section
/-! SUPPORT. Engine and device (20_memory.md R80 to R84): the premises on the device, each read at the transactions that a
request adds (`identity_of_contract`, `readBack_of_contract`, `working_of_contract`). -/

namespace Sys2Proof.Machine

/-! ## The identity -/

/-- A transaction that follows all others meets the identity contract. -/
theorem identity_of_contract {c : Config} {d : Device} {before : List Exchange} {x : Exchange}
    (h : identityContract c d (before ++ [x])) (hs : settled c (before ++ [x]) before.length = true)
    (hu : undisturbed c d before before.length) (hw : d.working before.length = false)
    (hp : polled c before.reverse = true) :
    (x.tx = identityFrame c → x.rx[3]? = some expectedMfr ∧ x.rx[4]? = some expectedDev) ∧
    (x.tx = jedecFrame c → x.rx[1]? = some expectedMfr ∧ x.rx[2]? = some 0x40 ∧ x.rx[3]? = some 0x17) :=
  h before.length x List.getElem?_concat_length hs ((undisturbed_append [x] le_rfl).mpr hu) hw
    (by rwa [List.take_left])

/-- Settles O58: the contract gives the bytes at the positions the two operations read (`identity_of_contract`). -/
theorem identityContractGivesOk : Obligations.IdentityContractGivesOk := by
  intro s d before hq hb hu hw hp
  refine ⟨fun cs hs hc => ?_, fun p hpin hs hc => ?_⟩
  · obtain ⟨hmfr, hdev⟩ := (identity_of_contract hc hs hu hw hp).1 rfl
    have hmfr : s.answer 3 = expectedMfr := Option.some.inj hmfr
    have hdev : s.answer 4 = expectedDev := Option.some.inj hdev
    have hcode : identityStatus (s.answer 3) (s.answer 4) = .ok := by simp [identityStatus, hmfr, hdev]
    refine ⟨_, execInit_eq_execIdentify hq hb cs, ?_⟩
    rw [State.execIdentify, hcode]
    exact ⟨rfl, rfl⟩
  · obtain ⟨hmfr, htype, hcap⟩ := (identity_of_contract hc hs hu hw hp).2 rfl
    have hmfr : s.answer 1 = expectedMfr := Option.some.inj hmfr
    have htype : s.answer 2 = 0x40 := Option.some.inj htype
    have hcap : s.answer 3 = 0x17 := Option.some.inj hcap
    refine ⟨_, exec_eq_execFrame ⟨hq, hpin, hb⟩ rfl, ?_⟩
    show s.responses ++ [.status .ok [s.answer 1, s.answer 2, s.answer 3]] = _
    rw [hmfr, htype, hcap]
    rfl

/-! ## The round trip -/

/-- A main-array read fills its buffer with what it received after opcode and address (R135, R171). -/
theorem buf_of_readData {s : State} (p : CsId) {a : Address} {n : Nat} {out : List Byte}
    (hwf : (Instr.readData a n out).wellFormed s.cfg = true) :
    (s.execFrame p (.readData a n out)).buf = TransferBuffer.ofBytes
      ((s.received (encode s.cfg (.readData a n out)).length).drop 4 ++ out.drop n) := by
  obtain ⟨hlength, -⟩ := Laws.FrameLength.readData a n out s.cfg hwf
  rw [execFrame_buf_read s p rfl rfl, captured_eq s rfl rfl, hlength]
  rfl

/-- The round-trip contract for five transactions that follow all others, with one status read after the program. -/
theorem readBack_of_contract {c : Config} {d : Device} {before : List Exchange} {we gate pp poll rd : Exchange}
    (h : roundTripContract c d (before ++ [we, gate, pp, poll, rd])) (hs : settled c before before.length = true)
    (hu : undisturbed c d before before.length) (hw : d.working before.length = false) {a : Address} {b : List Byte}
    (hpage : insidePage (.pageProgram a b.length b) = true) (hrange : inRange (.pageProgram a b.length b) = true)
    (hwe : we.tx = [opcodeOf c .writeEnable])
    (hgate : gate.tx = gateFrame c ∧ gate.rx[1]?.map busyFlag = some false)
    (hpp : pp.tx = encode c (.pageProgram a b.length b))
    (hpoll : poll.tx = gateFrame c ∧ poll.rx[1]?.map busyFlag = some false)
    (hrd : rd.tx = encode c (.readData a b.length (List.replicate b.length readFill))) : rd.rx.drop 4 = b :=
  h before [] [] we gate pp poll rd a b (by simp) ((settled_append _ le_rfl).trans hs)
    ((undisturbed_append _ le_rfl).mpr hu) hw hpage hrange hwe hgate.1 hgate.2 hpp nofun hpoll.1 hpoll.2 hrd

/-- Settles O59: the five transactions of the four requests are those of the contract (`readBack_of_contract`), and the
buffer holds what the last of them received (`buf_of_readData`). -/
theorem roundTrip : Obligations.RoundTrip := by
  intro s t1 t2 t3 t4 p a b out d h _ hpage hrange hs hu hw h1 h2 hok h3 hfalse h4 hc k hk
  have hr1 := h.exec h1
  have hr2 := hr1.exec h2
  obtain ⟨-, hwf, -, -⟩ := execRequest_ok (r := .wire (.readData a b.length out)) h4
  obtain rfl := execFrame_of_exec h h1
  obtain rfl := execFrame_of_exec hr1 h2
  obtain rfl : t3 = ((s.execFrame p .writeEnable).execFrame p (.pageProgram a b.length b)).execPoll p := by
    simpa using h3.symm.trans (execIsBusy_eq_execPoll hr2)
  obtain rfl := execFrame_of_exec hr2.execPoll h4
  have hpass := not_busy_of_ok hok rfl
  have hidle : busyFlag (((s.execFrame p .writeEnable).execFrame p (.pageProgram a b.length b)).answer 1) = false := by
    simpa [State.execPoll, State.answerBool] using hfalse
  rw [exchanges_of_ungated _ p rfl, exchanges_execPoll, exchanges_of_passed _ p rfl hpass,
    exchanges_of_ungated _ p rfl] at hc
  simp only [State.execFrame_cfg, State.execPoll_cfg, List.append_assoc, List.cons_append, List.nil_append] at hc
  have hback := readBack_of_contract hc hs hu hw hpage hrange rfl ⟨rfl, by rw [flag_of_received, hpass]⟩ rfl
    ⟨rfl, by rw [flag_of_received, hidle]⟩ rfl
  rw [buf_of_readData p hwf, TransferBuffer.read_ofBytes_eq, State.execPoll_cfg, State.execFrame_cfg,
    State.execFrame_cfg, hback, List.getElem?_append_left hk]

/-! ## The second mutation -/

theorem eq_of_decodeBare {i j : Instr} {t : List Byte} (h : decodeBare i t = .ok j) : j = i := by
  unfold decodeBare at h
  split at h <;> cases h
  rfl

theorem eq_of_decodeFixedRead {i j : Instr} {k : Nat} {t : List Byte} (h : decodeFixedRead i k t = .ok j) : j = i := by
  unfold decodeFixedRead at h
  split at h
  · cases h
  · split at h <;> cases h
    rfl

theorem eq_of_decodeRead {f : Nat → List Byte → Instr} {j : Instr} {t : List Byte} (h : decodeRead f t = .ok j) :
    j = f t.length t := by
  unfold decodeRead at h
  split at h <;> cases h
  rfl

theorem eq_of_decodeByte {f : Byte → Instr} {j : Instr} {t : List Byte} (h : decodeByte f t = .ok j) :
    ∃ v, j = f v := by
  unfold decodeByte at h
  split at h <;> cases h
  exact ⟨_, rfl⟩

/-- The decoder answers an instruction of the operation it read (R99). -/
theorem op_of_decodePayload {op : WireOp} {a : Address} {t : List Byte} {i : Instr} (h : decodePayload op a t = .ok i) :
    i.op = op := by
  cases op with
  | writeEnable | volatileWriteEnable | writeDisable | releasePowerDown | sectorErase | blockErase32K | blockErase64K
  | chipErase | eraseSecurityRegister | suspend | resume | powerDown | enableReset | resetDevice =>
    rw [eq_of_decodeBare h]
    rfl
  | readManufacturerId | readJedecId | readUniqueId | readSr1 | readSr2 | readSr3 =>
    rw [eq_of_decodeFixedRead h]
    rfl
  | readData | fastRead | readSfdp | readSecurityRegister =>
    rw [eq_of_decodeRead h]
    rfl
  | writeSr1 | writeSr2 | writeSr3 =>
    obtain ⟨v, rfl⟩ := eq_of_decodeByte h
    rfl
  | pageProgram | programSecurityRegister =>
    cases h
    rfl

/-- Byte 0 decides the operation (R99 (1)). -/
theorem opOfByte_of_decode {c : Config} {b : Byte} {t : List Byte} {i : Instr} (h : decode c (b :: t) = .ok i) :
    opOfByte c b = some i.op := by
  unfold decode at h
  split at h
  · cases h
  · next heq =>
    cases heq
    split at h
    · cases h
    · next op hop =>
      rw [hop]
      unfold decodeFields at h
      split at h
      · cases h
      · split at h
        · cases h
        · rw [op_of_decodePayload h]

/-- What the decoder reads from a frame of `i`, it reads as that operation (R98). -/
theorem op_of_instr {c : Config} (hd : c.Distinct) {i j : Instr} {rx : List Byte}
    (h : Exchange.instr c { tx := encode c i, rx := rx } = some j) : j.op = i.op := by
  obtain ⟨t, ht⟩ := encode_eq_cons c i
  unfold Exchange.instr at h
  split at h <;> cases h
  next hdec =>
  rw [ht] at hdec
  exact Option.some.inj ((opOfByte_of_decode hdec).symm.trans (opOfByte_opcodeOf hd i.op))

/-- A transaction that is none of the cases of R84 is a frame. -/
theorem instr_of_settled {c : Config} {xs : List Exchange} {k m : Nat} {x : Exchange} (hs : settled c xs k = true)
    (hm : m < k) (hx : xs[m]? = some x) : ∃ i, x.instr c = some i := by
  have hsound : soundAt c xs m = true := List.all_eq_true.mp hs m (List.mem_range.mpr hm)
  simp only [soundAt, hx] at hsound
  split at hsound
  · cases hsound
  · next i hi => exact ⟨i, hi⟩

/-- R186: after the frame of a mutating operation the device is working at the next transaction, if its work is not
complete before it begins. -/
theorem working_of_contract {c : Config} {d : Device} {before rest : List Exchange} {i : Instr} {rx : List Byte}
    (h : BusyContract c d (before ++ [{ tx := encode c i, rx := rx }] ++ rest)) (hd : c.Distinct)
    (hg : isGated i.op = true)
    (hs : settled c (before ++ [{ tx := encode c i, rx := rx }]) (before.length + 1) = true)
    (hu : undisturbed c d (before ++ [{ tx := encode c i, rx := rx }]) (before.length + 1))
    (hc : d.completes before.length = false) : d.working (before.length + 1) = true := by
  have hx : (before ++ [{ tx := encode c i, rx := rx }])[before.length]? = some { tx := encode c i, rx := rx } :=
    List.getElem?_concat_length
  obtain ⟨j, hj⟩ := instr_of_settled hs (Nat.lt_succ_self _) hx
  have hs' := (settled_append rest (by simp)).trans hs
  have hacts : d.acts before.length = true := by
    refine h.starts _ _ j ?_ hs' ((undisturbed_append rest (by simp)).mpr hu) hj (by rwa [op_of_instr hd hj])
    rwa [List.getElem?_append_left (by simp)]
  rw [h.lasts _ (by simp) hs', hacts, hc]
  simp

/-- The first transaction of a gated operation is its gate's (R147). -/
theorem exchanges_of_gated (s : State) (p : CsId) {i : Instr} (hg : isGated i.op = true) :
    ∃ rest, (s.execFrame p i).exchanges = s.exchanges ++ { tx := gateFrame s.cfg, rx := s.received 2 } :: rest := by
  obtain ⟨-, -, hx⟩ | ⟨hpass, -⟩ := execFrame_cases s p i
  · rw [hx, ← exchanges_handOver s i, ← s.handOver_received i]
    exact ⟨[], exchanges_transact _ p _ (gateFrame_ne_nil _)⟩
  · exact ⟨_, exchanges_of_passed s p hg (hpass hg)⟩

/-- A gated operation whose gate reads busy leaves the gate's six events and `BUSY` (R147). -/
theorem leaves_of_busy {s : State} {p : CsId} (h : s.Ready p) {i : Instr} (hg : isGated i.op = true)
    (hb : busyFlag (s.answer 1) = true) :
    s.Leaves (s.execFrame p i) (s.gateEvents p) .busy [] (s.handOver i).buf := by
  have hquiet := (h.execFrame i).quiescent
  rw [execFrame_of_busy p hg hb] at hquiet ⊢
  exact {
    trace := by
      simp only [State.done_trace, State.transact_trace, State.handOver_trace, State.handOver_busCfg,
        State.handOver_received]
      rfl
    lastStatus := rfl
    response := by simp
    buffer := rfl
    pin := s.handOver_csId i
    busCfg := s.handOver_busCfg i
    configuration := s.handOver_cfg i
    port := s.handOver_port i
    quiescent := hquiet }

/-- Settles O60: the first operation's frame sets the device to work (`working_of_contract`), so the second's gate, the
next transaction (`exchanges_of_gated`), reads busy. -/
theorem secondMutationBusy : Obligations.SecondMutationBusy := by
  intro s t1 p i j d h hd _ hwfj hgi hgj h1 hok hs hu hc
  have hr1 := h.exec h1
  obtain rfl := execFrame_of_exec h h1
  have hcfg := s.execFrame_cfg p i
  refine ⟨_, exec_eq_execFrame hr1 (by rwa [hcfg]), fun hcontract => leaves_of_busy hr1 hgj ?_⟩
  obtain ⟨rest, hrest⟩ := exchanges_of_gated (s.execFrame p i) p hgj
  have hfirst := exchanges_of_passed s p hgi (not_busy_of_ok hok hgi)
  rw [List.append_cons] at hfirst
  rw [hrest, hcfg] at hcontract
  have hwork : d.working (s.execFrame p i).exchanges.length = true := by
    rw [hfirst] at hs hu hc hcontract ⊢
    rw [List.length_append] at hs hu hc ⊢
    exact working_of_contract hcontract hd hgi hs hu hc
  have hgate : ((s.execFrame p i).exchanges ++
      { tx := gateFrame s.cfg, rx := (s.execFrame p i).received 2 } :: rest)[(s.execFrame p i).exchanges.length]? =
      some { tx := gateFrame s.cfg, rx := (s.execFrame p i).received 2 } := by simp
  have hflag := hcontract.flag _ _ hgate ((settled_append _ le_rfl).trans hs) rfl
  rw [flag_of_received, hwork] at hflag
  exact Option.some.inj hflag

end Sys2Proof.Machine
end

section
/-! SUPPORT. The encoding (30_encoding.md R90 to R100): what each part of the decoder accepts, so that decoding a frame
gives the instruction back (`decodePayload_payloadOf`) and an accepted sequence is the frame of its answer
(`decodePayload_inv`). -/

namespace Sys2Proof.Machine

/-! ## Opcodes (R98, R100) -/

/-- R98: with distinct opcodes no two operations have one opcode. -/
theorem opcodeOf_injective {c : Config} (h : c.Distinct) : Function.Injective (opcodeOf c) := fun op op' heq =>
  Option.some.inj (by rw [← opOfByte_opcodeOf h op, heq, opOfByte_opcodeOf h op'])

/-- Construction keeps the configuration and checks it (R98). -/
theorem distinct_of_construct {c : Config} {b : BusCfg} {s : State} (h : construct c b = some s) :
    s.cfg.Distinct := by
  unfold construct at h
  split at h
  · next hok =>
    cases h
    exact hok.1
  · cases h

theorem distinct_standardConfig : standardConfig.Distinct := by decide

/-- Settles O2: construction checks that the table has no opcode twice (`distinct_of_construct`). -/
theorem distinctOpcodes : Obligations.DistinctOpcodes :=
  ⟨fun _ _ _ h _ _ heq => opcodeOf_injective (distinct_of_construct h) heq,
    fun _ _ heq => opcodeOf_injective distinct_standardConfig heq⟩

/-- The bytes that are no opcode are those outside the table (R99 (1)). -/
theorem opOfByte_eq_none_iff {c : Config} {b : Byte} : opOfByte c b = none ↔ b ∉ c.opc.toList := by
  simp [opOfByte, ← opcodes_eq_toList]

/-- The 256 byte values, in order. -/
def allBytes : List Byte := (List.range 256).map (BitVec.ofNat 8)

theorem mem_allBytes (b : Byte) : b ∈ allBytes :=
  List.mem_map.mpr ⟨b.toNat, List.mem_range.mpr b.isLt, BitVec.eq_of_toNat_eq (by simp)⟩

theorem nodup_allBytes : allBytes.Nodup :=
  List.Nodup.map_on (fun x hx y hy h => by
    have := congrArg BitVec.toNat h
    rwa [BitVec.toNat_ofNat, BitVec.toNat_ofNat, Nat.mod_eq_of_lt (List.mem_range.mp hx),
      Nat.mod_eq_of_lt (List.mem_range.mp hy)] at this) List.nodup_range

/-- The bytes that are opcodes are the 29 of the table, in another order. -/
theorem length_filter_opcodes {c : Config} (h : c.Distinct) :
    (allBytes.filter (fun b => b ∈ c.opc.toList)).length = 29 :=
  List.Perm.length_eq (l₂ := c.opc.toList)
    ((List.perm_ext_iff_of_nodup (nodup_allBytes.filter _) h).mpr fun b => by simp [mem_allBytes])

/-- With distinct opcodes 227 bytes have no operation (R98, R100). -/
theorem length_unknownOpcodes {c : Config} (h : c.Distinct) :
    (allBytes.filter (fun b => opOfByte c b = none)).length = 227 := by
  have hsplit := List.length_eq_length_filter_add (l := allBytes) (fun b => b ∈ c.opc.toList)
  rw [length_filter_opcodes h] at hsplit
  have hlen : allBytes.length = 256 := by rw [allBytes, List.length_map, List.length_range]
  simp only [opOfByte_eq_none_iff, decide_not]
  omega

/-- Settles O7: a byte outside the table has no operation (`opOfByte_eq_none_iff`), and the default table holds 29 of the
256 (`length_unknownOpcodes`). -/
theorem unknownOpcodesRefused : Obligations.UnknownOpcodesRefused := by
  refine ⟨fun c b t hb => ?_, ?_⟩
  · simp only [decode, opOfByte_eq_none_iff.mpr hb]
  · have hcount := length_unknownOpcodes distinct_standardConfig
    rwa [allBytes, List.filter_map, List.length_map] at hcount

/-! ## The address field (R94, R131) -/

theorem addressField_addressOf (b2 b1 b0 : Byte) : addressField (addressOf b2 b1 b0) = [b2, b1, b0] := by
  unfold addressField addressOf
  simp only [List.cons.injEq, and_true]
  refine ⟨?_, ?_, ?_⟩ <;> ext i hi <;> simp <;> grind

theorem low24_addressOf (b2 b1 b0 : Byte) : low24 (addressOf b2 b1 b0) = addressOf b2 b1 b0 := by
  obtain ⟨h2, h1, h0, -⟩ := by simpa only [addressField, List.cons.injEq] using addressField_addressOf b2 b1 b0
  rw [← addressOf_field, h2, h1, h0]

/-- The field does not hold the top byte of the operand. -/
theorem addressField_low24 (a : Address) : addressField (low24 a) = addressField a := by
  rw [← addressOf_field, addressField_addressOf, addressField]

/-- Only addressed operations have an address operand (R96), and they have no byte operand. -/
theorem isAddressed_of_addr {i : Instr} {a : Address} (h : i.addr? = some a) :
    isAddressed i.op = true ∧ i.val? = none := by
  cases i <;> cases h <;> exact ⟨rfl, rfl⟩

/-- The frame of an operation, from its name, address field and buffer (R90). -/
theorem encode_congr {c : Config} {i j : Instr} (hop : i.op = j.op)
    (ha : addressField (i.addr?.getD 0) = addressField (j.addr?.getD 0)) (hs : i.span? = j.span?)
    (hv : i.val? = j.val?) : encode c i = encode c j := by
  have hlen : i.length = j.length := by rw [Instr.length, Instr.length, hop, hs]
  have hpay : i.payload = j.payload := by rw [Instr.payload, Instr.payload, hv, hs]
  rw [encode, encode, frame, frame, hop, hlen, hpay, ha]

/-- Settles O4: the frame holds the address field right after the opcode, and the field is that of the low 24 bits
(`addressField_low24`). -/
theorem addressedFrames : Obligations.AddressedFrames := by
  intro c i a ha
  obtain ⟨haddr, hval⟩ := isAddressed_of_addr ha
  refine ⟨?_, fun i' hop ha' hs => ?_⟩
  · rw [addressBytes_eq, addrBytes_eq_addressField, encode_eq_frameBytes, ha]
    simp [frameBytes, descriptor, haddr, addressField]
  · obtain ⟨-, hval'⟩ := isAddressed_of_addr ha'
    exact encode_congr hop (by rw [ha, ha']; exact addressField_low24 a) hs (hval'.trans hval.symm)

/-! ## What each part of the decoder accepts (R99) -/

theorem takeAddress_field (addressed : Bool) (a : Address) (t : List Byte) :
    takeAddress addressed ((if addressed then addressField a else []) ++ t) =
      .ok (if addressed then low24 a else 0, t) := by
  cases addressed with
  | false => rfl
  | true => simp [takeAddress, addressField, addressOf_field]

/-- What is taken for the address field is the field of the address read, an address of 24 bits. -/
theorem eq_of_takeAddress {addressed : Bool} {t rest : List Byte} {a : Address}
    (h : takeAddress addressed t = .ok (a, rest)) :
    t = (if addressed then addressField a else []) ++ rest ∧ low24 a = a := by
  unfold takeAddress at h
  split at h
  · next haddr =>
    split at h <;> cases h
    rw [if_pos haddr, addressField_addressOf, low24_addressOf]
    exact ⟨rfl, rfl⟩
  · next haddr =>
    cases h
    rw [if_neg haddr]
    exact ⟨rfl, rfl⟩

theorem decodeBare_ok_iff {i j : Instr} {p : List Byte} : decodeBare i p = .ok j ↔ p = [] ∧ i = j := by
  simp only [decodeBare]
  split <;> simp [*]

theorem decodeFixedRead_ok_iff {i j : Instr} {k : Nat} {p : List Byte} :
    decodeFixedRead i k p = .ok j ↔ p = List.replicate k readFill ∧ i = j := by
  unfold decodeFixedRead
  split
  · next hlen =>
    have : p ≠ List.replicate k readFill := fun hp => hlen (by rw [hp, List.length_replicate])
    simp [this]
  · split <;> simp [*]

theorem decodeRead_ok_iff {f : Nat → List Byte → Instr} {j : Instr} {p : List Byte} :
    decodeRead f p = .ok j ↔ ∃ n, p = List.replicate n readFill ∧ f n p = j := by
  unfold decodeRead
  split
  · next hp =>
    constructor
    · intro h
      exact ⟨_, hp, Except.ok.inj h⟩
    · rintro ⟨n, rfl, rfl⟩
      rw [List.length_replicate]
  · next hp =>
    constructor
    · intro h
      cases h
    · rintro ⟨n, rfl, -⟩
      exact absurd (by rw [List.length_replicate]) hp

theorem decodeByte_ok_iff {f : Byte → Instr} {j : Instr} {p : List Byte} :
    decodeByte f p = .ok j ↔ ∃ v, p = [v] ∧ f v = j := by
  unfold decodeByte
  split
  · simp
  · next hp =>
    constructor
    · intro h
      cases h
    · rintro ⟨v, rfl, -⟩
      exact absurd rfl (hp v)

theorem decode_of_opOfByte {c : Config} {b : Byte} {op : WireOp} (h : opOfByte c b = some op) (t : List Byte) :
    decode c (b :: t) = decodeFields c op t := by
  simp only [decode, h]

/-! ## Decoding a frame -/

/-- The frame of an operation, part by part (R90). -/
theorem frameBytes_descriptor (c : Config) (op : WireOp) (n : Nat) (a : Address) (p : List Byte) :
    frameBytes (descriptor c op n) a p =
      opcodeOf c op :: ((if isAddressed op then addressField a else []) ++
        (List.replicate (dummyCount c op) dummyValue ++ p)) := by
  rw [frameBytes, List.append_assoc, List.append_assoc]
  rfl

/-- What the decoder reads after the opcode of a frame: the low 24 bits of the address, then the payload. -/
theorem decode_frameBytes {c : Config} (hd : c.Distinct) (op : WireOp) (n : Nat) (a : Address) (p : List Byte) :
    decode c (frameBytes (descriptor c op n) a p) = decodePayload op (if isAddressed op then low24 a else 0) p := by
  simp only [frameBytes_descriptor, decode_of_opOfByte (opOfByte_opcodeOf hd op), decodeFields, takeAddress_field,
    dropDummies_replicate]

/-- A program sends the first `n` bytes of its buffer, and is read as one with a buffer of those `n`. -/
theorem program_take {n : Nat} {b : List Byte} (hn : n ≤ b.length) (f : Nat → List Byte → Instr) :
    f ((b.take n).take n).length ((b.take n).take n) = f n (b.take n) := by
  rw [List.take_take, Nat.min_self, List.length_take_of_le hn]

/-- The payload of a well-formed instruction is read as that instruction (R99 (3), (5)). -/
theorem decodePayload_payloadOf {c : Config} {i : Instr} (hwf : i.wellFormed c = true) :
    decodePayload i.op (if isAddressed i.op then low24 (i.addr?.getD 0) else 0) (payloadOf i) = .ok i.canonical := by
  cases i with
  | writeEnable | volatileWriteEnable | writeDisable | releasePowerDown | chipErase | suspend | resume | powerDown
  | enableReset | resetDevice | sectorErase | blockErase32K | blockErase64K | eraseSecurityRegister =>
    exact decodeBare_ok_iff.mpr ⟨rfl, rfl⟩
  | readManufacturerId | readJedecId | readUniqueId | readSr1 | readSr2 | readSr3 =>
    exact decodeFixedRead_ok_iff.mpr ⟨rfl, rfl⟩
  | readData a n b | fastRead a n b | readSfdp a n b | readSecurityRegister a n b =>
    exact decodeRead_ok_iff.mpr ⟨n, rfl, rfl⟩
  | writeSr1 v | writeSr2 v | writeSr3 v => exact decodeByte_ok_iff.mpr ⟨v, rfl, rfl⟩
  | pageProgram a n b | programSecurityRegister a n b =>
    have hn : n ≤ b.length := le_of_wellFormed hwf rfl
    exact congrArg Except.ok (program_take hn _)

/-- Settles O5: the decoder takes the frame apart (`decode_frameBytes`) and reads its payload
(`decodePayload_payloadOf`). -/
theorem decodeOfEncode : Obligations.DecodeOfEncode := by
  intro c i hd hwf
  rw [encode_eq_frameBytes, decode_frameBytes hd, decodePayload_payloadOf hwf]

/-! ## The frame of what was decoded -/

/-- The answer to a payload holds it, the address read, and nothing a frame does not carry. -/
theorem decodePayload_inv {op : WireOp} {a : Address} {p : List Byte} {i : Instr} (h : decodePayload op a p = .ok i)
    (ha : low24 a = a) :
    i.addr? = (if isAddressed op then some a else none) ∧ payloadOf i = p ∧ i.canonical = i := by
  cases op with
  | writeEnable | volatileWriteEnable | writeDisable | releasePowerDown | chipErase | suspend | resume | powerDown
  | enableReset | resetDevice =>
    obtain ⟨rfl, rfl⟩ := decodeBare_ok_iff.mp h
    exact ⟨rfl, rfl, rfl⟩
  | sectorErase | blockErase32K | blockErase64K | eraseSecurityRegister =>
    obtain ⟨rfl, rfl⟩ := decodeBare_ok_iff.mp h
    exact ⟨rfl, rfl, by rw [Instr.canonical, ha]⟩
  | readManufacturerId | readJedecId | readUniqueId | readSr1 | readSr2 | readSr3 =>
    obtain ⟨rfl, rfl⟩ := decodeFixedRead_ok_iff.mp h
    exact ⟨rfl, rfl, rfl⟩
  | readData | fastRead | readSfdp | readSecurityRegister =>
    obtain ⟨n, rfl, rfl⟩ := decodeRead_ok_iff.mp h
    exact ⟨rfl, rfl, by rw [Instr.canonical, ha]⟩
  | writeSr1 | writeSr2 | writeSr3 =>
    obtain ⟨v, rfl, rfl⟩ := decodeByte_ok_iff.mp h
    exact ⟨rfl, rfl, rfl⟩
  | pageProgram | programSecurityRegister =>
    cases h
    refine ⟨rfl, ?_, by rw [Instr.canonical, ha, List.take_length]⟩
    show (p.take p.length).take p.length = p
    rw [List.take_length, List.take_length]

/-- What follows the opcode is the fields of a frame: an address of 24 bits, the dummies, the payload (R99). -/
theorem decodeFields_inv {c : Config} {op : WireOp} {t : List Byte} {i : Instr} (h : decodeFields c op t = .ok i) :
    ∃ a p, low24 a = a ∧ decodePayload op a p = .ok i ∧
      t = (if isAddressed op then addressField a else []) ++ (List.replicate (dummyCount c op) dummyValue ++ p) := by
  unfold decodeFields at h
  split at h
  · cases h
  · next a rest htake =>
    split at h
    · cases h
    · next p hdrop =>
      obtain ⟨ht, ha⟩ := eq_of_takeAddress htake
      exact ⟨a, p, ha, h, by rw [ht, eq_of_dropDummies hdrop]⟩

/-- Settles O6: each part of the decoder took from the sequence (`decodeFields_inv`) what the frame of its answer has
there (`decodePayload_inv`). -/
theorem encodeOfDecode : Obligations.EncodeOfDecode := by
  intro c t i h
  cases t with
  | nil => cases h
  | cons b t =>
    have hop := opOfByte_of_decode h
    rw [decode_of_opOfByte hop] at h
    obtain ⟨a, p, ha, hdec, ht⟩ := decodeFields_inv h
    obtain ⟨haddr, hpay, hcanon⟩ := decodePayload_inv hdec ha
    refine ⟨?_, hcanon⟩
    rw [encode_eq_frameBytes, frameBytes_descriptor, hpay, haddr, ht, opcodeOf_of_opOfByte hop]
    cases isAddressed i.op <;> rfl

/-! ## Samples and words -/

/-- Settles O8: the decoder run on each sample. -/
theorem sampleFrames : Obligations.SampleFrames :=
  ⟨by rfl, by rfl, by rfl, by rfl, by rfl, by rfl, by rfl⟩

/-- A frame presented to an idle engine runs as the instruction the decoder reads (R99, R253). -/
theorem step_of_frame {s : State} {t : List Byte} {rest : List PortItem} {i : Instr} (hp : s.phase = .idle)
    (hport : s.port = .frame t :: rest) (hdec : decode s.cfg t = .ok i) :
    step s = exec i { s with port := rest } := by
  simp only [step, hp, serve, hport, readItem, hdec, execRequest]

/-- Settles O44: the word's frame is at the head of the port (`step_of_frame`). -/
theorem stepRunsWord : Obligations.StepRunsWord := fun s nbits w _ hp hdec =>
  step_of_frame (s := s.withFetchWord nbits w) (rest := s.port) hp rfl hdec

end Sys2Proof.Machine
end

section
/-! SUPPORT. The scope of a transaction (40_transaction_scope.md R120 to R126): its bracket, that a byte is exchanged only
inside one (`lines_of_inv`), and which transactions a wire operation adds to the trace (`execFrame_trace_of_passed`). -/

namespace Sys2Proof.Machine

/-! ## The bracket (R120, R125) -/

/-- Settles O45: `lowerCs` drives the pin `cs_id` names, and the two events are appended one after the other. -/
theorem beginBracket : Obligations.BeginBracket := by
  intro s p clk hpin
  refine ⟨(s.setCs .low).emit (.csLow p), by simp only [State.lowerCs, hpin], ?_⟩
  simp [State.openBus, State.emit, State.setCs]

/-- Settles O46: `raiseCs` after `closeBus` drives the pin `cs_id` names, and the two events are appended one after the
other. -/
theorem endBracket : Obligations.EndBracket := by
  intro s p hpin
  have hraise : s.closeBus.raiseCs = .ok ((s.closeBus.setCs .high).emit (.csHigh p)) := by
    simp only [State.raiseCs, State.closeBus_csId, hpin]
  rw [hraise]
  simp [State.closeBus, State.emit, State.setCs]

/-! ## Exchanges stand inside the bracket (R123) -/

/-- The invariant's lines at a position are the position's own. -/
theorem lines_of_inv {s : State} {fd : FrameDesc} {tp : TxPos} (hi : s.Inv) (hr : s.runningDesc = some (fd, tp)) :
    (s.csLevel, s.busOpen) = tp.lines := by
  have hlines := (Standing.ofInv hi.linesFit hr).lines
  have hpos : ((linesAt fd tp).1, (linesAt fd tp).2.1) = tp.lines := by cases tp <;> rfl
  rw [← hpos, ← hlines]

/-- Settles O48: the sequencer exchanges a byte only at a position of an exchange (`Ticked.exchange`), where the invariant
has the lines low and open (`lines_of_inv`). -/
theorem noByteOutsideBracket : Obligations.NoByteOutsideBracket := by
  intro s s' tx rx hi ht htrace
  obtain ⟨e, he⟩ := tick_ticked ht
  obtain rfl : e = .xfer tx rx := by simpa using he.trace.symm.trans htrace
  obtain ⟨fd, tp, hr, htp⟩ := he.exchange.mp rfl
  have hlines := lines_of_inv hi hr
  rw [TxPos.lines_of_exchange htp] at hlines
  exact ⟨congrArg Prod.fst hlines, congrArg Prod.snd hlines⟩

/-! ## The transactions of a wire operation (R121, R126) -/

@[simp] theorem transactionsIn_append (es fs : List Event) :
    transactionsIn (es ++ fs) = transactionsIn es + transactionsIn fs := List.countP_append

/-- What stands between the two ends of a transaction is exchanges (R122). -/
theorem exists_xfer_of_mem_zipWith {t r : List Byte} {e : Event} (h : e ∈ List.zipWith Event.xfer t r) :
    ∃ tx rx, e = .xfer tx rx := by
  rw [← List.map_uncurry_zip_eq_zipWith] at h
  obtain ⟨⟨tx, rx⟩, -, rfl⟩ := List.mem_map.mp h
  exact ⟨tx, rx, rfl⟩

/-- A transaction begins once: its exchanges open nothing. -/
@[simp] theorem transactionsIn_transaction (p : CsId) (b : BusCfg) (clk : Clk) (t r : List Byte) :
    transactionsIn (transaction p b clk t r) = 1 := by
  have hbytes : transactionsIn (List.zipWith Event.xfer t r) = 0 := List.countP_eq_zero.mpr fun e he => by
    obtain ⟨tx, rx, rfl⟩ := exists_xfer_of_mem_zipWith he
    exact Bool.false_ne_true
  rw [transaction, transactionsIn_append, transactionsIn_append, hbytes]
  rfl

/-- A transaction hands over the parameters of one clock setting (R121). -/
theorem busBegin_mem_transaction {p : CsId} {b : BusCfg} {clk clk' : Clk} {t r : List Byte} {params : BusParams} :
    .busBegin clk' params ∈ transaction p b clk t r ↔ clk' = clk ∧ params = busParams b clk := by
  have hbytes : Event.busBegin clk' params ∉ List.zipWith Event.xfer t r := fun he => by
    obtain ⟨tx, rx, h⟩ := exists_xfer_of_mem_zipWith he
    cases h
  simp [transaction, hbytes]

/-- The gate runs at the default clock (R147). -/
theorem busBegin_read_notMem_gateEvents (s : State) (p : CsId) (params : BusParams) :
    .busBegin .read params ∉ s.gateEvents p := by
  simp [State.gateEvents, busBegin_mem_transaction]

theorem clkOf_eq_read_iff {op : WireOp} : clkOf op = .read ↔ op = .readData :=
  ⟨clkOf_eq_read, fun h => h ▸ rfl⟩

/-- Before its command a wire operation has made its gate's transaction, if it has a gate (R147). -/
theorem State.passed_trace (s : State) (p : CsId) (i : Instr) :
    (s.passed p i).trace = s.trace ++ (if isGated i.op then s.gateEvents p else []) := by
  unfold State.passed
  split
  · rw [State.transact_trace, State.handOver_trace, State.handOver_busCfg, State.handOver_received]
    rfl
  · simp

/-- A wire operation past its gate adds the gate's transaction, if it has one, and its command's (R126, R137). -/
theorem execFrame_trace_of_passed (s : State) (p : CsId) {i : Instr}
    (hpass : isGated i.op = true → busyFlag (s.answer 1) = false) :
    (s.execFrame p i).trace = s.trace ++ ((if isGated i.op then s.gateEvents p else []) ++
      transaction p s.busCfg (clkOf i.op) (encode s.cfg i)
        ((if isGated i.op then s.consume 2 else s).received (encode s.cfg i).length)) := by
  rw [execFrame_of_passed p hpass, State.command_trace, State.passed_trace, State.passed_busCfg, State.passed_cfg,
    State.passed_received, List.append_assoc]

/-- Settles O34: a gate that reads busy makes its transaction alone (`leaves_of_busy`); past it the command's transaction
follows the gate's, if there is one (`execFrame_trace_of_passed`). -/
theorem transactionCounts : Obligations.TransactionCounts := by
  intro i s p h hwf
  refine ⟨_, exec_eq_execFrame h hwf, ?_⟩
  change _ = _ + if isGated i.op ∧ busyFlag (s.answer 1) = false then 2 else 1
  obtain ⟨hg, hb, -⟩ | ⟨hpass, -⟩ := execFrame_cases s p i
  · rw [(leaves_of_busy h hg hb).trace]
    simp [State.gateEvents, hb]
  · rw [execFrame_trace_of_passed s p hpass]
    cases hg : isGated i.op with
    | true => simp [State.gateEvents, hpass hg]
    | false => simp

/-- Settles O35: the gate's transaction is at the default clock (`busBegin_read_notMem_gateEvents`), the command's at the
operation's own, and no gated operation is `READ_DATA`. -/
theorem readClockOnlyForReadData : Obligations.ReadClockOnlyForReadData := by
  intro i s p h hwf
  obtain ⟨hg, hb, -⟩ | ⟨hpass, -⟩ := execFrame_cases s p i
  · refine ⟨_, _, exec_eq_execFrame h hwf, (leaves_of_busy h hg hb).trace, ?_⟩
    have hop : i.op ≠ .readData := fun hr => by
      rw [hr] at hg
      cases hg
    simp [busBegin_read_notMem_gateEvents, hop]
  · refine ⟨_, _, exec_eq_execFrame h hwf, execFrame_trace_of_passed s p hpass, ?_⟩
    have hgate : ∀ params, .busBegin .read params ∉ (if isGated i.op then s.gateEvents p else []) := fun params => by
      split
      · exact busBegin_read_notMem_gateEvents s p params
      · exact List.not_mem_nil
    simp [hgate, busBegin_mem_transaction, eq_comm (a := Clk.read), clkOf_eq_read_iff]

end Sys2Proof.Machine
end

section
/-! SUPPORT. The command dispatcher (41_command_dispatcher.md R131, R137, R140): of a transaction the device decides the
received bytes alone (`map_sent_transaction`), and the address bytes are digits of the address (`addrBytes_eq_digits`). -/

namespace Sys2Proof.Machine

/-! ## The procedure (R137) -/

/-- Settles O30: the gate and the command transaction, each followed event by event (`exec_eq_execFrame`). -/
theorem sequencerFollowsProcedure : Obligations.SequencerFollowsProcedure :=
  fun _ _ _ h hwf => exec_eq_execFrame h hwf

/-! ## What is sent (R140) -/

/-- Without its received bytes a list of exchanges is its transmitted bytes. -/
theorem map_sent_exchanges {t r : List Byte} (h : r.length = t.length) :
    (List.zipWith Event.xfer t r).map Event.sent = List.zipWith Event.xfer t (List.replicate t.length 0) := by
  induction t generalizing r with
  | nil => rfl
  | cons b t ih =>
    cases r with
    | nil => cases h
    | cons x r =>
      rw [List.zipWith_cons_cons, List.map_cons, ih (Nat.succ.inj h)]
      rfl

/-- What a transaction sends is decided by its pin, its clock setting and its frame (R122). -/
theorem map_sent_transaction (p : CsId) (b : BusCfg) (clk : Clk) {t r : List Byte} (h : r.length = t.length) :
    (transaction p b clk t r).map Event.sent = transaction p b clk t (List.replicate t.length 0) := by
  rw [transaction, List.map_append, List.map_append, map_sent_exchanges h]
  rfl

theorem map_sent_gateEvents (s : State) (p : CsId) : (s.gateEvents p).map Event.sent =
    transaction p s.busCfg .default [opcodeOf s.cfg .readSr1, 0x00] [0, 0] :=
  map_sent_transaction p s.busCfg .default (s.length_received 2)

/-- What a wire operation past its gate sends does not depend on the received bytes (R137). -/
theorem map_sent_execFrame_of_passed (s : State) (p : CsId) {i : Instr}
    (hpass : isGated i.op = true → busyFlag (s.answer 1) = false) :
    (s.execFrame p i).trace.map Event.sent = s.trace.map Event.sent ++
      ((if isGated i.op then transaction p s.busCfg .default [opcodeOf s.cfg .readSr1, 0x00] [0, 0] else []) ++
        transaction p s.busCfg (clkOf i.op) (encode s.cfg i) (List.replicate (encode s.cfg i).length 0)) := by
  rw [execFrame_trace_of_passed s p hpass, List.map_append, List.map_append,
    map_sent_transaction _ _ _ (State.length_received ..), apply_ite (List.map Event.sent), map_sent_gateEvents,
    List.map_nil]

/-- Settles O36: either both gates read busy and their transactions are all that is sent (`map_sent_gateEvents`), or
neither stops its operation, and both send the gate's frame, if there is one, and the command's
(`map_sent_execFrame_of_passed`). -/
theorem transmitIndependentOfDevice : Obligations.TransmitIndependentOfDevice := by
  intro i s p answers drawn h hwf hb s' (hflag : isGated i.op = true → busyFlag (s.answer 1) = busyFlag (s'.answer 1))
  have h' : s'.Ready p := ⟨(quiescent_congr rfl rfl rfl rfl).trans h.quiescent, h.pin, hb⟩
  refine ⟨_, _, exec_eq_execFrame h hwf, exec_eq_execFrame h' hwf, ?_⟩
  obtain ⟨hg, hbusy, -⟩ | ⟨hpass, -⟩ := execFrame_cases s p i
  · rw [(leaves_of_busy h hg hbusy).trace, (leaves_of_busy h' hg ((hflag hg).symm.trans hbusy)).trace,
      List.map_append, List.map_append, map_sent_gateEvents, map_sent_gateEvents]
  · rw [map_sent_execFrame_of_passed s p hpass,
      map_sent_execFrame_of_passed s' p fun hg => (hflag hg).symm.trans (hpass hg)]

/-! ## The address encoder (R131) -/

/-- The address bytes are the three low digits of the address to base 256, most significant first. -/
theorem addrBytes_eq_digits (a : Address) : addrBytes a =
    [BitVec.ofNat 8 (a.toNat / 65536 % 256), BitVec.ofNat 8 (a.toNat / 256 % 256), BitVec.ofNat 8 (a.toNat % 256)] := by
  have hmod : ∀ n, BitVec.ofNat 8 (n % 256) = BitVec.ofNat 8 n := fun n => BitVec.eq_of_toNat_eq (by simp)
  rw [← addressBytes_eq, addressBytes, hmod, hmod, hmod]

/-- Addresses that agree on bits 23:0 are sent alike. -/
theorem addrBytes_congr {a b : Address} (h : a.toNat % 16777216 = b.toNat % 16777216) : addrBytes a = addrBytes b := by
  have h2 : a.toNat / 65536 % 256 = b.toNat / 65536 % 256 := by omega
  have h1 : a.toNat / 256 % 256 = b.toNat / 256 % 256 := by omega
  have h0 : a.toNat % 256 = b.toNat % 256 := by omega
  rw [addrBytes_eq_digits, addrBytes_eq_digits, h2, h1, h0]

/-- A multiple of `2^24` is not sent. -/
theorem addrBytes_add_high (a : Address) (k : Nat) : addrBytes (a + BitVec.ofNat 32 (k * 16777216)) = addrBytes a :=
  addrBytes_congr (by rw [BitVec.toNat_add, BitVec.toNat_ofNat]; omega)

/-- Settles O3: the digits of the address (`addrBytes_eq_digits`), of which a multiple of `2^24` changes none
(`addrBytes_add_high`). -/
theorem addressEncoding : Obligations.AddressEncoding :=
  ⟨addrBytes_eq_digits, addrBytes_add_high, by decide, by decide, by decide, by decide⟩

end Sys2Proof.Machine
end

section
/-! SUPPORT. The busy gate (42_busy_gate.md R146 to R148): the flag it tests (`busyFlag_eq`) and the six events it makes
(`gateEvents_eq`). -/

namespace Sys2Proof.Machine

/-! ## The gate (R147) -/

/-- The flag by arithmetic: the status byte is odd (R38). -/
theorem busyFlag_eq (b : Byte) : busyFlag b = decide (b.toNat % 2 = 1) := by
  rw [busyFlag, BitVec.getLsbD, Nat.testBit_zero]

theorem gateEvents_eq (s : State) (p : CsId) : s.gateEvents p =
    [.csLow p, .busBegin .default (busParams s.busCfg .default), .xfer s.cfg.opc.readSr1 (s.answer 0),
      .xfer 0x00 (s.answer 1), .busEnd, .csHigh p] := rfl

/-- `IS_BUSY` makes the gate's events (R146, R147). -/
theorem execPoll_trace (s : State) (p : CsId) : (s.execPoll p).trace = s.trace ++ s.gateEvents p := rfl

/-- Settles O24: the procedure is one status read with the gate's events (`execPoll_trace`), and its answer is the flag of
the byte at position 1 (`busyFlag_eq`). -/
theorem isBusy : Obligations.IsBusy := by
  intro s p h
  refine ⟨_, execIsBusy_eq_execPoll h, ?_, ?_, rfl, rfl, rfl, rfl, rfl, rfl, h.execPoll.quiescent⟩
  · rw [execPoll_trace, gateEvents_eq]
  · rw [← busyFlag_eq]
    rfl

/-- Settles O29: what a gate that reads busy leaves (`leaves_of_busy`), its events written out (`gateEvents_eq`). -/
theorem busyStopsGatedOperations : Obligations.BusyStopsGatedOperations := by
  intro s p i h hwf hg hodd
  have hbusy : busyFlag (s.answer 1) = true := by rw [busyFlag_eq, decide_eq_true hodd]
  rw [← gateEvents_eq]
  exact ⟨_, exec_eq_execFrame h hwf, leaves_of_busy h hg hbusy⟩

/-! ## The compound operations (R146, R161, R214) -/

/-- Settles O31: each compound operation's run, followed event by event (`execIsBusy_eq_execPoll`,
`execReset_eq_execResetPair`, `execInit_eq_execIdentify`). -/
theorem compoundsFollowProcedure : Obligations.CompoundsFollowProcedure := fun _ _ cs h =>
  ⟨execIsBusy_eq_execPoll h, execReset_eq_execResetPair h, execInit_eq_execIdentify h.quiescent h.completes cs⟩

/-! ## What is gated (R148) -/

/-- Settles O28: ten of the 29 wire operations are gated, and of the compound ones `RESET`. -/
theorem gatedOperations : Obligations.GatedOperations := by
  intro o
  cases o with
  | isBusy | init => exact iff_of_false Bool.false_ne_true (by decide)
  | reset => exact iff_of_true rfl (by decide)
  | wire w =>
    cases w with
    | pageProgram | sectorErase | blockErase32K | blockErase64K | chipErase | writeSr1 | writeSr2 | writeSr3
    | eraseSecurityRegister | programSecurityRegister => exact iff_of_true rfl (by decide)
    | writeEnable | volatileWriteEnable | writeDisable | releasePowerDown | readManufacturerId | readJedecId
    | readUniqueId | readData | fastRead | readSr1 | readSr2 | readSr3 | readSfdp | readSecurityRegister | suspend
    | resume | powerDown | enableReset | resetDevice => exact iff_of_false Bool.false_ne_true (by decide)

end Sys2Proof.Machine
end

section
/-! SUPPORT. The identification family (43_identification.md R156 to R163). First what a wire operation with no gate leaves,
whichever family it is of: its one transaction (`sends_of_ungated`), with no buffer (`exec_sends_of_no_buffer`) and as a read
that fills one (`exec_sends_of_read_buffer`); then the identity test (`identityStatus_eq_ok_iff`) and `INIT`
(`execIdentify_trace`). -/

namespace Sys2Proof.Machine

/-! ## Wire operations that are not gated (R137) -/

/-- An ungated wire operation sends its frame in one transaction and returns `OK` with the bytes it captured (R137). -/
theorem sends_of_ungated {s : State} {p : CsId} (h : s.Ready p) {i : Instr} (hg : isGated i.op = false) :
    s.Sends (s.execFrame p i) p (clkOf i.op) (encode s.cfg i) (s.captured i) (s.execFrame p i).buf := by
  have hrun : s.execFrame p i = (s.handOver i).command p i := by simp [State.execFrame, hg]
  have hcaptured : (s.handOver i).captured i = s.captured i := by simp [State.captured]
  have hquiet := (h.execFrame i).quiescent
  rw [hrun] at hquiet ⊢
  exact {
    trace := by simp [State.command_trace]
    lastStatus := rfl
    response := by simp [State.command, hcaptured]
    buffer := rfl
    pin := s.handOver_csId i
    busCfg := s.handOver_busCfg i
    configuration := s.handOver_cfg i
    port := s.handOver_port i
    quiescent := hquiet }

/-- An ungated wire operation that hands no buffer over leaves the transfer buffer as it is (R49, R137). -/
theorem exec_sends_of_no_buffer {s : State} {p : CsId} (h : s.Ready p) {i : Instr} (hg : isGated i.op = false)
    (hs : i.span? = none) :
    ∃ t, exec i s = .next t ∧ s.Sends t p (clkOf i.op) (encode s.cfg i) (s.captured i) s.buf := by
  have hwf : i.wellFormed s.cfg = true := by simp [Instr.wellFormed, hs]
  have hbuf : (s.execFrame p i).buf = s.buf := by rw [execFrame_buf s p fun _ => hs, State.handOver_none s hs]
  exact ⟨_, exec_eq_execFrame h hwf, hbuf ▸ sends_of_ungated h hg⟩

/-- A payload that fits its buffer and `LEN_MAX` is all a wire operation's operands are checked for (R253). -/
theorem wellFormed_of_fits {c : Config} {i : Instr} {n : Nat} {b : List Byte} (hs : i.span? = some (n, b))
    (hn : n ≤ b.length) (hmax : fitsLenMax c n = true) : i.wellFormed c = true := by
  simp [Instr.wellFormed, hs, fitsBuffer, hn, hmax]

/-- A read with a buffer fills `buf[0..n-1]` with what it captures and keeps the rest (R49, R135). -/
theorem exec_sends_of_read_buffer {s : State} {p : CsId} (h : s.Ready p) {i : Instr} {n : Nat} {b : List Byte}
    (hd : dirOf i.op = .read) (hs : i.span? = some (n, b)) (hn : n ≤ b.length) (hmax : fitsLenMax s.cfg n = true) :
    ∃ t, exec i s = .next t ∧
      s.Sends t p (clkOf i.op) (encode s.cfg i) (s.captured i) (TransferBuffer.ofBytes (s.captured i ++ b.drop n)) ∧
      (s.captured i).length = n := by
  have hg : isGated i.op = false := Bool.eq_false_iff.mpr fun hg => not_read_of_isGated hg hd
  exact ⟨_, exec_eq_execFrame h (wellFormed_of_fits hs hn hmax),
    execFrame_buf_read s p hd hs ▸ sends_of_ungated h hg, length_captured s hd hs⟩

/-- The frame of a read with a buffer: opcode, address, dummies, fills (R96, R138). -/
theorem encode_of_read_buffer (c : Config) {i : Instr} {a : Address} {n : Nat} {b : List Byte}
    (hd : dirOf i.op = .read) (hs : i.span? = some (n, b)) (ha : i.addr? = some a) :
    encode c i = [opcodeOf c i.op] ++ addressBytes a ++ List.replicate (dummyCount c i.op + n) 0x00 := by
  have haddressed : isAddressed i.op = true := isAddressed_of_span hs
  rw [encode_eq_frameBytes, addressBytes_eq, addrBytes_eq_addressField, List.replicate_add, ← List.append_assoc]
  simp [frameBytes, descriptor, payloadOf, haddressed, hd, ha, length_of_span hs, dummyValue, readFill]

/-- The bytes captured by a read with a buffer are those received from its payload on (R135). -/
theorem captured_of_read_buffer (s : State) {i : Instr} {a : Address} {n : Nat} {b : List Byte}
    (hd : dirOf i.op = .read) (hs : i.span? = some (n, b)) (ha : i.addr? = some a) :
    s.captured i = (s.received (encode s.cfg i).length).drop (4 + dummyCount s.cfg i.op) := by
  have hlength : (encode s.cfg i).length = 1 + 3 + dummyCount s.cfg i.op + n := by
    rw [encode_of_read_buffer s.cfg hd hs ha]
    simp [addressBytes]
    omega
  rw [captured_eq s hd hs, hlength]

/-! ## The identity reads (R156 to R158) -/

/-- Two fills after the opcode and two dummies (R156). -/
theorem captured_readManufacturerId (s : State) : s.captured .readManufacturerId = [s.answer 3, s.answer 4] := rfl

/-- Three fills after the opcode (R157). -/
theorem captured_readJedecId (s : State) : s.captured .readJedecId = [s.answer 1, s.answer 2, s.answer 3] := rfl

/-- Eight fills after the opcode and four dummies (R158). -/
theorem captured_readUniqueId (s : State) : s.captured .readUniqueId =
    [s.answer 5, s.answer 6, s.answer 7, s.answer 8, s.answer 9, s.answer 10, s.answer 11, s.answer 12] := rfl

/-- Settles O11: no gate and no buffer (`exec_sends_of_no_buffer`); the outputs are `captured_readManufacturerId`. -/
theorem readManufacturerId : Obligations.ReadManufacturerId := by
  intro s p h
  rw [← captured_readManufacturerId]
  exact exec_sends_of_no_buffer h rfl rfl

/-- Settles O12: no gate and no buffer (`exec_sends_of_no_buffer`); the outputs are `captured_readJedecId`. -/
theorem readJedecId : Obligations.ReadJedecId := by
  intro s p h
  rw [← captured_readJedecId]
  exact exec_sends_of_no_buffer h rfl rfl

/-- Settles O13: no gate and no buffer (`exec_sends_of_no_buffer`); the outputs are `captured_readUniqueId`. -/
theorem readUniqueId : Obligations.ReadUniqueId := by
  intro s p h
  rw [← captured_readUniqueId]
  exact exec_sends_of_no_buffer h rfl rfl

/-! ## The SFDP read (R159) -/

/-- Settles O14: a read that fills its buffer (`exec_sends_of_read_buffer`), its frame and its captured bytes written out
(`encode_of_read_buffer`, `captured_of_read_buffer`). -/
theorem readSfdp : Obligations.ReadSfdp := by
  intro s p a n b h hn hmax tx data
  have htx : encode s.cfg (.readSfdp a n b) = tx := encode_of_read_buffer s.cfg rfl rfl rfl
  have hdata : s.captured (.readSfdp a n b) = data := by
    rw [captured_of_read_buffer s rfl rfl rfl, htx]
    rfl
  rw [← htx, ← hdata]
  exact exec_sends_of_read_buffer h rfl rfl hn hmax

/-! ## The identity test (R160) -/

theorem identityStatus_of_mfr_ne {mfr : Byte} (h : mfr ≠ expectedMfr) (dev : Byte) :
    identityStatus mfr dev = .unknownManufacturerId := if_pos h

theorem identityStatus_of_dev_ne {dev : Byte} (h : dev ≠ expectedDev) :
    identityStatus expectedMfr dev = .unknownDeviceId := by simp [identityStatus, h]

theorem identityStatus_expected : identityStatus expectedMfr expectedDev = .ok := by decide

/-- One pair is accepted (R160). -/
theorem identityStatus_eq_ok_iff {mfr dev : Byte} :
    identityStatus mfr dev = .ok ↔ mfr = expectedMfr ∧ dev = expectedDev := by
  constructor
  · intro hok
    by_cases hmfr : mfr = expectedMfr
    · subst hmfr
      refine ⟨rfl, by_contra fun hdev => ?_⟩
      rw [identityStatus_of_dev_ne hdev] at hok
      cases hok
    · rw [identityStatus_of_mfr_ne hmfr] at hok
      cases hok
  · rintro ⟨rfl, rfl⟩
    exact identityStatus_expected

/-- Settles O27: one lemma per outcome of the test. -/
theorem identityTest : Obligations.IdentityTest := fun _ dev =>
  ⟨fun hmfr => identityStatus_of_mfr_ne hmfr dev, fun hmfr hdev => hmfr ▸ identityStatus_of_dev_ne hdev,
    identityStatus_eq_ok_iff⟩

/-! ## `INIT` (R161, R163) -/

/-- The set-up event stands before the transaction of R156 (R161). -/
theorem execIdentify_trace (s : State) (cs : CsId) : (s.execIdentify cs).trace = s.trace ++
    (.csHigh cs :: transaction cs s.busCfg .default (identityFrame s.cfg) (s.received 5)) :=
  List.append_assoc s.trace [.csHigh cs] _

/-- Settles O26: the procedure of R161 (`execInit_eq_execIdentify`), its ten events (`execIdentify_trace`), and the test of
the bytes at positions 3 and 4 (`identityTest`). -/
theorem initializeEngine : Obligations.Initialize := by
  intro s cs hq hb
  obtain ⟨hmfr, hdev, hok⟩ := identityTest (s.answer 3) (s.answer 4)
  exact ⟨s.execIdentify cs, execInit_eq_execIdentify hq hb cs, execIdentify_trace s cs, rfl,
    (quiescent_congr rfl rfl rfl rfl).trans hq, rfl, rfl, rfl, rfl,
    identityStatus (s.answer 3) (s.answer 4), rfl, rfl, hmfr, hdev, fun h3 h4 => hok.mpr ⟨h3, h4⟩⟩

end Sys2Proof.Machine
end

section
/-! SUPPORT. The reads of the main array (44_data_read.md R170 to R173): what a read that fills a buffer sends and returns, with
its frame written out (`exec_reads_address`), for its clock and its dummy count. -/

namespace Sys2Proof.Machine

/-- A read with a buffer sends opcode, address, dummies and fills, and returns the bytes received under the fills, which fill
`buf[0..n-1]` (R96, R135, R138). -/
theorem exec_reads_address {s : State} {p : CsId} (h : s.Ready p) {i : Instr} {a : Address} {n : Nat} {b : List Byte}
    (hd : dirOf i.op = .read) (hs : i.span? = some (n, b)) (ha : i.addr? = some a) (hn : n ≤ b.length)
    (hmax : fitsLenMax s.cfg n = true) :
    let tx := [opcodeOf s.cfg i.op] ++ addressBytes a ++ List.replicate (dummyCount s.cfg i.op + n) 0x00
    let data := (s.received tx.length).drop (4 + dummyCount s.cfg i.op)
    ∃ t, exec i s = .next t ∧
      s.Sends t p (clkOf i.op) tx data (TransferBuffer.ofBytes (data ++ b.drop n)) ∧ data.length = n := by
  intro tx data
  have htx : encode s.cfg i = tx := encode_of_read_buffer s.cfg hd hs ha
  have hdata : s.captured i = data := by rw [captured_of_read_buffer s hd hs ha, htx]
  rw [← htx, ← hdata]
  exact exec_sends_of_read_buffer h hd hs hn hmax

/-- Settles O15: `exec_reads_address` with no dummies, at the clock `clkOf` gives `READ_DATA`. -/
theorem readData : Obligations.ReadData := by
  intro s p a n b h hn hmax
  have hfills : List.replicate (dummyCount s.cfg .readData + n) (0x00 : Byte) = List.replicate n 0x00 :=
    congrArg (List.replicate · 0x00) (Nat.zero_add n)
  rw [← hfills]
  exact exec_reads_address h (i := .readData a n b) rfl rfl rfl hn hmax

/-- Settles O16: `exec_reads_address` with `DUMMY_FAST_READ` dummies, at the default clock. -/
theorem fastRead : Obligations.FastRead := by
  intro s p a n b h hn hmax
  exact exec_reads_address h (i := .fastRead a n b) rfl rfl rfl hn hmax

end Sys2Proof.Machine
end

section
/-! SUPPORT. Program and erase of the main array (45_program_erase.md R181 to R185). First what a gated operation leaves,
whichever family it is of: its gate alone, or its gate and one transaction of its frame (`exec_sendsGated`); then that frame
written out, for an erase at an address (`exec_erases_address`) and for a program from a buffer (`exec_programs_buffer`). -/

namespace Sys2Proof.Machine

/-! ## Gated wire operations (R137, R147) -/

/-- A gated operation runs at the default clock (R121, R148). -/
theorem clkOf_of_isGated {op : WireOp} (hg : isGated op = true) : clkOf op = .default := by
  cases hclk : clkOf op with
  | default => rfl
  | read =>
    rw [clkOf_eq_read hclk] at hg
    cases hg

/-- Only the frame of a read has dummies (R96). -/
theorem dummyCount_of_not_read (c : Config) {op : WireOp} (hd : dirOf op ≠ .read) : dummyCount c op = 0 := by
  cases op with
  | readManufacturerId | readUniqueId | fastRead | readSfdp | readSecurityRegister => exact absurd rfl hd
  | writeEnable | volatileWriteEnable | writeDisable | releasePowerDown | readJedecId | readData | pageProgram
  | sectorErase | blockErase32K | blockErase64K | chipErase | readSr1 | writeSr1 | readSr2 | writeSr2 | readSr3
  | writeSr3 | eraseSecurityRegister | programSecurityRegister | suspend | resume | powerDown | enableReset
  | resetDevice => rfl

/-- An operation that does not read has no output (R135). -/
theorem captured_of_not_read (s : State) {i : Instr} (hd : dirOf i.op ≠ .read) : s.captured i = [] := by
  unfold State.captured
  split
  · next hr => exact absurd hr hd
  · rfl
  · rfl

/-- A gated operation whose gate does not read busy leaves the gate's events, its command's, and `OK` (R137, R147). -/
theorem leaves_of_not_busy {s : State} {p : CsId} (h : s.Ready p) {i : Instr} (hg : isGated i.op = true)
    (hb : busyFlag (s.answer 1) = false) :
    s.Leaves (s.execFrame p i) (s.gateEvents p ++ transaction p s.busCfg .default (encode s.cfg i)
      ((s.consume 2).received (encode s.cfg i).length)) .ok [] (s.handOver i).buf := by
  have hd : dirOf i.op ≠ .read := not_read_of_isGated hg
  have htrace := execFrame_trace_of_passed s p (i := i) fun _ => hb
  have hbuf := execFrame_buf s p fun hr => absurd hr hd
  have hquiet := (h.execFrame i).quiescent
  have hrun : s.execFrame p i = ((s.handOver i).transact p .default (gateFrame s.cfg)).command p i := by
    rw [execFrame_of_passed p (i := i) fun _ => hb, State.passed, if_pos hg]
  rw [if_pos hg, if_pos hg, clkOf_of_isGated hg] at htrace
  rw [hrun] at htrace hbuf hquiet ⊢
  exact {
    trace := htrace
    lastStatus := rfl
    response := by simp [State.command, captured_of_not_read _ hd]
    buffer := hbuf
    pin := by simp [State.command]
    busCfg := by simp [State.command]
    configuration := by simp [State.command]
    port := by simp [State.command]
    quiescent := hquiet }

/-- A gated wire operation makes its gate alone and returns `BUSY`, or its gate and one transaction of its frame and returns
`OK`; it does not write the buffer it was handed (R137, R147). -/
theorem exec_sendsGated {s : State} {p : CsId} (h : s.Ready p) {i : Instr} (hwf : i.wellFormed s.cfg = true)
    (hg : isGated i.op = true) :
    ∃ t, exec i s = .next t ∧ s.SendsGated t p (encode s.cfg i) (s.handOver i).buf := by
  refine ⟨_, exec_eq_execFrame h hwf, ?_⟩
  unfold State.SendsGated
  split
  · next hb => exact leaves_of_busy h hg hb
  · next hb => exact leaves_of_not_busy h hg (Bool.eq_false_iff.mpr hb)

/-! ## Their frames (R138) -/

/-- The frame of a gated operation with an address: opcode, address, payload (R96, R138). -/
theorem encode_of_gated_address (c : Config) {i : Instr} {a : Address} (hg : isGated i.op = true)
    (ha : i.addr? = some a) : encode c i = [opcodeOf c i.op] ++ addressBytes a ++ payloadOf i := by
  obtain ⟨haddressed, -⟩ := isAddressed_of_addr ha
  have hdummies : dummyCount c i.op = 0 := dummyCount_of_not_read c (not_read_of_isGated hg)
  rw [encode_eq_frameBytes, addressBytes_eq, addrBytes_eq_addressField]
  simp [frameBytes, descriptor, haddressed, hdummies, ha]

theorem payloadOf_of_dir_none {i : Instr} (hd : dirOf i.op = .none) : payloadOf i = [] := by
  simp only [payloadOf, hd]

/-- A write with a buffer sends `buf[0..n-1]` (R95, R136). -/
theorem payloadOf_of_write_buffer {i : Instr} {n : Nat} {b : List Byte} (hd : dirOf i.op = .write)
    (hs : i.span? = some (n, b)) : payloadOf i = b.take n := by
  simp [payloadOf, hd, Instr.payload, val_of_span_some hs, hs, length_of_span hs]

/-! ## Erases at an address and programs (R181 to R184) -/

/-- An erase sends opcode and address after its gate, and leaves the transfer buffer as it is (R182 to R184). -/
theorem exec_erases_address {s : State} {p : CsId} (h : s.Ready p) {i : Instr} {a : Address} (hg : isGated i.op = true)
    (hd : dirOf i.op = .none) (ha : i.addr? = some a) (hs : i.span? = none) :
    ∃ t, exec i s = .next t ∧ s.SendsGated t p ([opcodeOf s.cfg i.op] ++ addressBytes a) s.buf := by
  have hwf : i.wellFormed s.cfg = true := by simp [Instr.wellFormed, hs]
  have hrun := exec_sendsGated h hwf hg
  rwa [encode_of_gated_address s.cfg hg ha, payloadOf_of_dir_none hd, List.append_nil, State.handOver_none s hs] at hrun

/-- A program sends opcode, address and `buf[0..n-1]` after its gate, and leaves the buffer as it was handed over (R181). -/
theorem exec_programs_buffer {s : State} {p : CsId} (h : s.Ready p) {i : Instr} {a : Address} {n : Nat} {b : List Byte}
    (hg : isGated i.op = true) (hd : dirOf i.op = .write) (ha : i.addr? = some a) (hs : i.span? = some (n, b))
    (hn : n ≤ b.length) (hmax : fitsLenMax s.cfg n = true) :
    ∃ t, exec i s = .next t ∧
      s.SendsGated t p ([opcodeOf s.cfg i.op] ++ addressBytes a ++ b.take n) (TransferBuffer.ofBytes b) := by
  have hrun := exec_sendsGated h (wellFormed_of_fits hs hn hmax) hg
  rwa [encode_of_gated_address s.cfg hg ha, payloadOf_of_write_buffer hd hs, State.handOver_some s hs] at hrun

/-- Settles O19: `exec_programs_buffer`. -/
theorem pageProgram : Obligations.PageProgram := by
  intro s p a n b h hn hmax
  exact exec_programs_buffer h (i := .pageProgram a n b) rfl rfl rfl rfl hn hmax

/-- Settles O20: `exec_erases_address`, which asks nothing of the address, for each of the three erases. -/
theorem arrayErases : Obligations.ArrayErases := by
  intro s p a h
  exact ⟨exec_erases_address h (i := .sectorErase a) rfl rfl rfl rfl,
    exec_erases_address h (i := .blockErase32K a) rfl rfl rfl rfl,
    exec_erases_address h (i := .blockErase64K a) rfl rfl rfl rfl⟩

/-! ## The chip erase (R185) -/

theorem encode_chipErase (c : Config) : encode c .chipErase = [c.opc.chipErase] := rfl

/-- Settles O21: a gated operation (`exec_sendsGated`) whose frame is its opcode (`encode_chipErase`). -/
theorem chipErase : Obligations.ChipErase := by
  intro s p h
  rw [← encode_chipErase]
  exact exec_sendsGated h rfl rfl

end Sys2Proof.Machine
end

section
/-! SUPPORT. The security registers (46_security_register.md R196 to R198). Their operations are instances of the shapes of the
main array: `exec_reads_address`, `exec_erases_address`, `exec_programs_buffer`. -/

namespace Sys2Proof.Machine

/-- Settles O17: `exec_reads_address` with `DUMMY_SECREG_READ` dummies, at the default clock. -/
theorem readSecurityRegister : Obligations.ReadSecurityRegister := by
  intro s p a n b h hn hmax
  exact exec_reads_address h (i := .readSecurityRegister a n b) rfl rfl rfl hn hmax

/-- Settles O23: the erase is an `exec_erases_address` and the program an `exec_programs_buffer`; neither asks anything of the
address or of a write enable before it. -/
theorem mutateSecurityRegisters : Obligations.MutateSecurityRegisters := by
  intro s p a n b h hn hmax
  constructor
  · exact exec_erases_address h (i := .eraseSecurityRegister a) rfl rfl rfl rfl
  · exact exec_programs_buffer h (i := .programSecurityRegister a n b) rfl rfl rfl rfl hn hmax

end Sys2Proof.Machine
end

section
/-! SUPPORT. The opcode-only commands, the status-register accessors and the resets (47_status_registers_reset.md R205 to R214,
48_bare_commands.md R225 to R232), each shape said once: the opcode alone (`exec_sends_opcode`), a register read
(`exec_reads_register`), a register written after the gate (`exec_writes_register`), and `RESET` past its gate
(`leaves_of_reset_not_busy`). -/

namespace Sys2Proof.Machine

/-! ## Payloads of fixed length (R96) -/

theorem span_of_fixedLength {i : Instr} {n : Nat} (h : fixedLength i.op = some n) : i.span? = none := by
  rw [← Option.isNone_iff_eq_none, isNone_span, h]
  rfl

theorem length_of_fixedLength {i : Instr} {n : Nat} (h : fixedLength i.op = some n) : i.length = n := by
  simp [Instr.length, payloadLength, h]

/-- The read clock is for a payload of host-chosen length (R121). -/
theorem clkOf_of_fixedLength {op : WireOp} {n : Nat} (h : fixedLength op = some n) : clkOf op = .default := by
  cases hclk : clkOf op with
  | default => rfl
  | read =>
    rw [clkOf_eq_read hclk] at h
    cases h

/-! ## The opcode alone (R212, R213, R225) -/

/-- An operation with neither address nor payload has its opcode for a frame (R96, R138). -/
theorem encode_of_opcode_only (c : Config) {i : Instr} (ha : isAddressed i.op = false) (hd : dirOf i.op = .none) :
    encode c i = [opcodeOf c i.op] := by
  have hdummies : dummyCount c i.op = 0 := dummyCount_of_not_read c (by simp [hd])
  simp [encode_eq_frameBytes, frameBytes, descriptor, ha, hdummies, payloadOf_of_dir_none hd]

/-- An ungated operation with neither address nor payload sends its opcode and returns `OK` with no data (R225). -/
theorem exec_sends_opcode {s : State} {p : CsId} (h : s.Ready p) {i : Instr} (hg : isGated i.op = false)
    (ha : isAddressed i.op = false) (hd : dirOf i.op = .none) :
    ∃ t, exec i s = .next t ∧ s.Sends t p .default [opcodeOf s.cfg i.op] [] s.buf := by
  have hn : fixedLength i.op = some 0 := length_of_dir_none hd
  have hrun := exec_sends_of_no_buffer h hg (span_of_fixedLength hn)
  rwa [clkOf_of_fixedLength hn, encode_of_opcode_only s.cfg ha hd, captured_of_not_read s (by simp [hd])] at hrun

/-- Settles O9: none of the seven is gated, has an address or has a payload (`exec_sends_opcode`). -/
theorem bareCommands : Obligations.BareCommands := by
  intro s p h i hi
  have hbare : isGated i.op = false ∧ isAddressed i.op = false ∧ dirOf i.op = .none := by
    revert i
    decide
  obtain ⟨hg, ha, hd⟩ := hbare
  exact exec_sends_opcode h hg ha hd

/-- Settles O10: the two reset steps are opcode-only commands like any other (`exec_sends_opcode`). -/
theorem resetSteps : Obligations.ResetSteps := by
  intro s p h
  constructor
  · exact exec_sends_opcode h (i := .enableReset) rfl rfl rfl
  · exact exec_sends_opcode h (i := .resetDevice) rfl rfl rfl

/-! ## The status registers (R206 to R211) -/

/-- A read of one byte with neither address nor dummies sends its opcode and a fill, and returns the byte received under the
fill (R206). -/
theorem exec_reads_register {s : State} {p : CsId} (h : s.Ready p) {i : Instr} (ha : isAddressed i.op = false)
    (hdummies : dummyCount s.cfg i.op = 0) (hd : dirOf i.op = .read) (hn : fixedLength i.op = some 1) :
    ∃ t, exec i s = .next t ∧ s.Sends t p .default [opcodeOf s.cfg i.op, 0x00] [s.answer 1] s.buf := by
  have hg : isGated i.op = false := Bool.eq_false_iff.mpr fun hg => not_read_of_isGated hg hd
  have hlength : i.length = 1 := length_of_fixedLength hn
  have hframe : encode s.cfg i = [opcodeOf s.cfg i.op, 0x00] := by
    simp [encode_eq_frameBytes, frameBytes, descriptor, payloadOf, ha, hdummies, hd, hlength, readFill]
  have hbyte : s.captured i = [s.answer 1] := by
    simp only [State.captured, hd, hframe, hlength]
    rfl
  have hrun := exec_sends_of_no_buffer h hg (span_of_fixedLength hn)
  rwa [clkOf_of_fixedLength hn, hframe, hbyte] at hrun

/-- Settles O18: `exec_reads_register` for each of the three. -/
theorem readStatusRegisters : Obligations.ReadStatusRegisters := by
  intro s p h
  exact ⟨exec_reads_register h (i := .readSr1) rfl rfl rfl rfl,
    exec_reads_register h (i := .readSr2) rfl rfl rfl rfl,
    exec_reads_register h (i := .readSr3) rfl rfl rfl rfl⟩

/-- A gated write of the byte operand sends opcode and byte after its gate, whatever the byte is (R209). -/
theorem exec_writes_register {s : State} {p : CsId} (h : s.Ready p) {i : Instr} {v : Byte} (hg : isGated i.op = true)
    (ha : isAddressed i.op = false) (hd : dirOf i.op = .write) (hn : fixedLength i.op = some 1) (hv : i.val? = some v) :
    ∃ t, exec i s = .next t ∧ s.SendsGated t p [opcodeOf s.cfg i.op, v] s.buf := by
  have hs : i.span? = none := span_of_fixedLength hn
  have hlength : i.length = 1 := length_of_fixedLength hn
  have hdummies : dummyCount s.cfg i.op = 0 := dummyCount_of_not_read s.cfg (not_read_of_isGated hg)
  have hframe : encode s.cfg i = [opcodeOf s.cfg i.op, v] := by
    simp [encode_eq_frameBytes, frameBytes, descriptor, payloadOf, Instr.payload, ha, hdummies, hd, hv, hlength]
  have hrun := exec_sendsGated h (by simp [Instr.wellFormed, hs]) hg
  rwa [hframe, State.handOver_none s hs] at hrun

/-- Settles O22: `exec_writes_register`, which asks nothing of the byte, for each of the three. -/
theorem writeStatusRegisters : Obligations.WriteStatusRegisters := by
  intro s p v h
  exact ⟨exec_writes_register h (i := .writeSr1 v) rfl rfl rfl rfl rfl,
    exec_writes_register h (i := .writeSr2 v) rfl rfl rfl rfl rfl,
    exec_writes_register h (i := .writeSr3 v) rfl rfl rfl rfl rfl⟩

/-! ## `RESET` (R214) -/

/-- After a transaction the oracle goes on where the transaction left it (R79). -/
theorem State.answer_transact {s : State} (hb : s.BusCompletes) (p : CsId) (clk : Clk) (t : List Byte) (k : Nat) :
    (s.transact p clk t).answer k = s.answer (t.length + k) := State.answer_consume hb t.length k

/-- A transaction of the opcode alone exchanges one byte. -/
theorem State.transact_opcode_trace (s : State) (p : CsId) (clk : Clk) (b : Byte) :
    (s.transact p clk [b]).trace = s.trace ++ transaction p s.busCfg clk [b] [s.answer 0] := rfl

theorem leaves_of_reset_busy {s : State} {p : CsId} (h : s.Ready p) (hbusy : busyFlag (s.answer 1) = true) :
    s.Leaves (s.execResetPair p) (s.gateEvents p) .busy [] s.buf := by
  rw [State.execResetPair, State.gateThen, if_pos hbusy]
  exact ⟨rfl, rfl, rfl, rfl, rfl, rfl, rfl, rfl, ((h.transact ..).done ..).quiescent⟩

/-- Past its gate `RESET` makes the two reset transactions, one exchange each (R214). -/
theorem leaves_of_reset_not_busy {s : State} {p : CsId} (h : s.Ready p) (hfree : ¬ busyFlag (s.answer 1) = true) :
    s.Leaves (s.execResetPair p)
      (s.gateEvents p ++ transaction p s.busCfg .default [s.cfg.opc.enableReset] [s.answer 2] ++
        transaction p s.busCfg .default [s.cfg.opc.resetDevice] [s.answer 3]) .ok [] s.buf := by
  have hgate := h.transact p .default (gateFrame s.cfg)
  have hfirst : (s.transact p .default (gateFrame s.cfg)).answer 0 = s.answer 2 :=
    State.answer_transact h.completes p .default (gateFrame s.cfg) 0
  have hsecond : ((s.transact p .default (gateFrame s.cfg)).transact p .default
      [opcodeOf s.cfg .enableReset]).answer 0 = s.answer 3 :=
    (State.answer_transact hgate.completes p .default [opcodeOf s.cfg .enableReset] 0).trans
      (State.answer_transact h.completes p .default (gateFrame s.cfg) 1)
  rw [State.execResetPair, State.gateThen, if_neg hfree]
  exact {
    trace := by
      rw [State.done_trace, State.transact_opcode_trace, State.transact_opcode_trace, State.transact_cfg, hfirst, hsecond,
        ← List.append_assoc, ← List.append_assoc]
      rfl
    lastStatus := rfl
    response := by simp
    buffer := by simp
    pin := by simp
    busCfg := by simp
    configuration := by simp
    port := by simp
    quiescent := (((hgate.transact ..).transact ..).done ..).quiescent }

/-- Settles O25: the procedure of R214 (`execReset_eq_execResetPair`) by what its gate reads (`leaves_of_reset_busy`,
`leaves_of_reset_not_busy`). -/
theorem resetPair : Obligations.ResetPair := by
  intro s p h
  refine ⟨_, execReset_eq_execResetPair h, ?_⟩
  split
  · next hbusy => exact leaves_of_reset_busy h hbusy
  · next hfree => exact leaves_of_reset_not_busy h hfree

end Sys2Proof.Machine
end

section
/-! SUPPORT. What the host port gives back (60_exceptions.md R240 to R261): which requests are accepted (`issue_of_illFormed`,
`issue_of_no_pin`), what a step does by its phase (`step_of_idle`, `step_of_running`), where the sequencer is stuck
(`tick_stalled_iff`), and which responses a request may be given (`answered_of_completes`). -/

namespace Sys2Proof.Machine

/-! ## Acceptance (R253, R255, R268) -/

theorem issue_of_illFormed {r : Call} {s : State} (hq : s.quiescent = true) (hf : r.fits s.cfg = false) :
    issue r s = .refused .illFormed := by
  simp [issue, State.rejects, hq, hf]

/-- Before `cs_id` has a value only `INIT` is accepted (R268). -/
theorem issue_of_no_pin {r : Call} {s : State} (hq : s.quiescent = true) (hf : r.fits s.cfg = true)
    (hop : r.op ≠ .init) (hcs : s.csId = none) : issue r s = .refused .noChipSelect := by
  simp [issue, State.rejects, hq, hf, hop, hcs]

theorem requestCall_op_eq_init_iff {r : Request} : (requestCall r).op = .init ↔ ∃ cs, r = .init cs := by
  constructor
  · exact fun h => request_of_setup (by rw [h]; rfl)
  · rintro ⟨cs, rfl⟩
    rfl

/-- Settles O39: the three reasons in the order they are looked at, then acceptance, each of the request's call. -/
theorem acceptance : Obligations.Acceptance := by
  intro r s
  rw [execRequest_eq_issue, ← fits_requestCall s.cfg r]
  refine ⟨fun hq => issue_of_not_quiescent hq _, issue_of_illFormed, fun hq hf hr hcs => ?_, fun hq hf hcs => ?_⟩
  · refine issue_of_no_pin hq hf (fun hop => ?_) hcs
    obtain ⟨cs, hinit⟩ := requestCall_op_eq_init_iff.mp hop
    exact hr cs hinit
  · exact ⟨_, issue_of_accepted hq hf fun hn => requestCall_op_eq_init_iff.mpr (hcs hn)⟩

theorem issue_ne_fault (r : Call) (s : State) (f : Fault) : issue r s ≠ .fault f := by
  unfold issue
  split <;> nofun

/-- Settles O40: a call is refused or runs (`issue_ne_fault`). -/
theorem noRequestFaults : Obligations.NoRequestFaults := by
  intro r s f
  rw [execRequest_eq_issue]
  exact issue_ne_fault _ s f

/-! ## The step (R246, R253) -/

theorem step_of_idle {s : State} (hp : s.phase = .idle) : step s = serve s := by
  simp only [step, hp]

theorem step_of_running {s t : State} (h : s.tick = .ok t) : step s = .next t := by
  have hproceed : proceed s = .next t := by simp only [proceed, h]
  cases hp : s.phase with
  | idle => simp [State.tick, hp] at h
  | setup | gate | cmd => simpa only [step, hp] using hproceed

/-- A record at the head of the port runs (R102, R253). -/
theorem step_of_request {s : State} {r : Request} {rest : List PortItem} (hp : s.phase = .idle)
    (hport : s.port = .request r :: rest) : step s = execRequest r { s with port := rest } := by
  simp only [step_of_idle hp, serve, hport, readItem]

/-- A sequence that is no frame is refused by the decoder's reason (R100). -/
theorem step_of_not_frame {s : State} {t : List Byte} {e : DecodeRefusal} {rest : List PortItem} (hp : s.phase = .idle)
    (hport : s.port = .frame t :: rest) (hdec : decode s.cfg t = .error e) : step s = .refused (.notAFrame e) := by
  simp only [step_of_idle hp, serve, hport, readItem, hdec]

theorem step_of_empty_port {s : State} (hp : s.phase = .idle) (hport : s.port = []) : step s = .refused .noRequest := by
  simp only [step_of_idle hp, serve, hport]

/-- Settles O43: one lemma for each thing the port can hold. -/
theorem stepRunsRequest : Obligations.StepRunsRequest := fun _ _ hp =>
  ⟨fun _ hport => step_of_request hp hport, fun _ _ hport hdec => step_of_frame hp hport hdec,
    fun _ _ hport hdec => step_of_not_frame hp hport hdec, step_of_empty_port hp⟩

/-! ## The stuck engine (R14, R258) -/

/-- The end of a transaction is no exchange, so no transport can hold it up. -/
theorem gateDone_ne_stalled (s : State) : s.gateDone ≠ .error .stalled := by
  unfold State.gateDone
  split
  · split <;> nofun
  · nofun

theorem commandDone_ne_stalled (s : State) (j : Fin 2) : s.commandDone j ≠ .error .stalled := by
  unfold State.commandDone
  split
  · nofun
  · nofun
  · split <;> nofun
  · split <;> nofun
  · split <;> nofun

/-- The sequencer is stuck only in the event of a running transaction. -/
theorem event_of_tick_stalled {s : State} (h : s.tick = .error .stalled) :
    ∃ fd tp, s.runningDesc = some (fd, tp) ∧ s.eventAt fd tp = .error .stalled := by
  cases hp : s.phase with
  | idle => simp [State.tick, hp] at h
  | setup =>
    simp only [State.tick, hp, State.raiseCs, State.setCsId_csId] at h
    split at h <;> cases h
  | gate tp =>
    refine ⟨gateDesc s.cfg, tp, by simp only [State.runningDesc, hp], ?_⟩
    simp only [State.tick, hp] at h
    split at h
    · next hx => exact hx.trans h
    · split at h
      · cases h
      · split at h
        · next hd => exact absurd (hd.trans h) (gateDone_ne_stalled _)
        · cases h
  | cmd j tp =>
    simp only [State.tick, hp] at h
    split at h
    · cases h
    · next fd hfd =>
      refine ⟨fd, tp, by simp only [State.runningDesc, hp, hfd, Option.map_some], ?_⟩
      split at h
      · next hx => exact hx.trans h
      · split at h
        · cases h
        · split at h
          · next hd => exact absurd (hd.trans h) (commandDone_ne_stalled _ j)
          · cases h

/-- No exchange that is never completed is made (R14). -/
theorem tick_ne_ok_of_never {s t : State} {rest : List BusAnswer} (ha : s.awaitsByte) (hnever : s.answers = .never :: rest) :
    s.tick ≠ .ok t := by
  intro h
  obtain ⟨cs, hp, -⟩ | ⟨φ, fd, tp, x, hr, hp, hx, -⟩ := tick_ok h
  · exact (stage_of_awaitsByte ha).1 hp
  · exact event_never hnever ((awaitsByte_iff (hr.runningDesc hp)).mp ha) hx

/-- From a state with the invariant the sequencer is stuck just before an exchange that is never completed (R14). -/
theorem tick_stalled_iff {s : State} (hi : s.Inv) :
    s.tick = .error .stalled ↔ s.awaitsByte ∧ ∃ rest, s.answers = .never :: rest := by
  constructor
  · intro h
    obtain ⟨fd, tp, hrun, hx⟩ := event_of_tick_stalled h
    obtain ⟨hexchange, hnever⟩ := event_stalled hx
    exact ⟨⟨fd, tp, hrun, hexchange⟩, hnever⟩
  · rintro ⟨ha, rest, hnever⟩
    obtain ⟨hp, -⟩ | hstall | ⟨t, ht, -⟩ := tick_cases hi
    · have hlines := (stage_of_awaitsByte ha).2
      rw [hp] at hlines
      cases hlines
    · exact hstall
    · exact absurd ht (tick_ne_ok_of_never ha hnever)

/-- Settles O42: an idle engine's step is the port's (`serve_ne`); in the middle of an operation the sequencer makes an event
or is stuck (`tick_cases`), and where it is stuck says `tick_stalled_iff`. -/
theorem onlyStalledBusStops : Obligations.OnlyStalledBusStops := by
  intro s hi
  rw [← tick_stalled_iff hi]
  obtain ⟨hp, htick⟩ | hstall | ⟨t, ht, -⟩ := tick_cases hi
  · obtain ⟨hfault, hstuck⟩ := serve_ne s
    rw [step_of_idle hp, htick]
    exact ⟨hfault, absurd hp, iff_of_false hstuck nofun⟩
  · rw [step_of_stalled hstall, hstall]
    exact ⟨nofun, fun _ => .inr rfl, iff_of_true rfl rfl⟩
  · rw [step_of_running ht, ht]
    exact ⟨nofun, fun _ => .inl ⟨t, rfl⟩, iff_of_false nofun nofun⟩

/-! ## The responses (R240, R243, R245) -/

/-- A script either completes every exchange, or completes some and then never the next (R14). -/
theorem script_cases (l : List BusAnswer) :
    .never ∉ l ∨ ∃ (bytes : List Byte) (rest : List BusAnswer), l = bytes.map .byte ++ .never :: rest := by
  induction l with
  | nil => exact .inl List.not_mem_nil
  | cons a l ih =>
    cases a with
    | never => exact .inr ⟨[], l, rfl⟩
    | byte b =>
      obtain hno | ⟨bytes, rest, rfl⟩ := ih
      · exact .inl (by simpa using hno)
      · exact .inr ⟨b :: bytes, rest, rfl⟩

/-- On a transport that completes every exchange a request is given one response, of a kind it may be given; also a first
`INIT`. -/
theorem answered_of_completes {r : Request} {s t : State} (hb : s.BusCompletes) (h : execRequest r s = .next t) :
    ∃ x, t.responses = s.responses ++ [x] ∧ mayAnswer r x = true := by
  obtain ⟨hq, hwf, hpin, -⟩ := execRequest_ok h
  obtain hinit | hpin := hpin
  · obtain ⟨cs, rfl⟩ := requestCall_op_eq_init_iff.mp hinit
    obtain rfl : s.execIdentify cs = t := by simpa using (execInit_eq_execIdentify hq hb cs).symm.trans h
    exact execIdentify_answered s cs
  · obtain ⟨p, hp⟩ := Option.isSome_iff_exists.mp hpin
    obtain ⟨u, x, hu, hx⟩ := execRequest_answers ⟨hq, hp, hb⟩ hwf
    obtain rfl : u = t := by simpa using hu.symm.trans h
    exact ⟨x, hx⟩

/-- Settles O56: where every exchange completes, `answered_of_completes`; where one never does, the request is stuck before
its response, or needs no exchange that far and is answered as on the script without it (`stalledBus`). -/
theorem responsesByOperation : Obligations.ResponsesByOperation := by
  intro r s t h
  obtain hb | ⟨bytes, rest, hans⟩ := script_cases s.answers
  · obtain ⟨x, hresp, hmay⟩ := answered_of_completes hb h
    exact ⟨[x], hresp, by simpa using hmay⟩
  · obtain ⟨hq, hwf, hpin, -⟩ := execRequest_ok h
    have hcs : s.csId = none → ∃ cs, r = .init cs := fun hn =>
      requestCall_op_eq_init_iff.mp (hpin.resolve_right (by simp [hn]))
    obtain ⟨t', u, es, hu, -, ht, hcut⟩ := stalledBus.2 r s bytes rest hq hwf hcs hans
    obtain rfl : t' = t := by simpa using ht.symm.trans h
    split at hcut
    · obtain ⟨-, -, -, -, hresp, -⟩ := hcut
      exact ⟨[], by simp [hresp], nofun⟩
    · obtain ⟨-, -, hresp, -⟩ := hcut
      obtain ⟨x, hx, hmay⟩ := answered_of_completes (by simp [State.BusCompletes]) hu
      exact ⟨[x], hresp.trans hx, by simpa using hmay⟩

end Sys2Proof.Machine
end
